-- ==== Sys2Proof/Word.lean ====
section
/-! DEFINITION. The word types of ZBP: a register or command word, a buffer cell, and the five fields of a command word. -/

namespace Sys2Proof

/-- A 32-bit word: a command word or a register (rule R5, `LEN_W = 32`; rule R50). -/
abbrev Word := BitVec 32

/-- A buffer cell (rules R6, R31). -/
abbrev Byte := BitVec 8

/-- The five fields every command word has (rule R51). -/
structure Fields where
  /-- bits 31:12, reserved -/
  rsv1 : BitVec 20
  /-- bits 11:8, the operation code -/
  op : BitVec 4
  /-- bits 7:6, reserved -/
  rsv0 : BitVec 2
  /-- bits 5:3, the mode code -/
  mode : BitVec 3
  /-- bits 2:0, the depth code -/
  depth : BitVec 3
  deriving DecidableEq, Repr

end Sys2Proof
end

