-- ==== Sys2Proof/Config.lean ====
section
/-! DEFINITION. The parameters of the block (rule R5). -/

namespace Sys2Proof

/-- The three OPEN sizes of rule R5. The model carries them in its state, where no step changes them, so that a
statement about every state is a statement about every size (log entry 1). -/
structure Params where
  /-- `SYM_SIZE`: number of cells of SYM -/
  symSize : Nat
  /-- `CAR_SIZE`: number of cells of CAR -/
  carSize : Nat
  /-- `PIX_SIZE`: number of cells of PIX -/
  pixSize : Nat
  deriving DecidableEq, Repr

/-- The bounds rule R5 sets on the sizes. -/
abbrev Params.Legal (p : Params) : Prop :=
  (0 < p.symSize ∧ p.symSize < 2 ^ 30) ∧ (3 ≤ p.carSize ∧ p.carSize < 2 ^ 30) ∧
    (3 ≤ p.pixSize ∧ p.pixSize < 2 ^ 30)

/-- DESIGN CHOICE (log entry 1): the sizes the spec's test vectors use, a 32 by 32 carrier. -/
def Params.standard : Params := { symSize := 1024, carSize := 3072, pixSize := 3072 }

/-- `FORMAT_VERSION` (rule R5): the value of the MetaHeader's version field, written and accepted. -/
abbrev Config.formatVersion : BitVec 3 := 1#3

end Sys2Proof
end

