-- ==== Sys2Proof/Syntax.lean ====
section
/-! DEFINITION. The commands of ZBP: one constructor per row of the opcode table (rules R55, R57, R58). -/

namespace Sys2Proof

/-- One constructor per row of the opcode table: the twenty legal words of rule R55 and the thirty-four words of rule
R58 that are not illegal and raise `NotSupportedError`. Every bit of every row is fixed (operation, mode and depth are
all in the name), so no constructor has an operand; a command's operands are registers and buffers (rule R50). A depth
of 8 is depth code 0 (rule R53). -/
inductive Instr where
  /-- `NOP`, word 0x00000000, rule R110 -/
  | nop
  /-- `HDRPUT static, 8`, word 0x00000108, rule R103 -/
  | hdrputStatic8
  /-- `HDRPUT static, 1`, word 0x00000109, rule R103 -/
  | hdrputStatic1
  /-- `HDRPUT static, 2`, word 0x0000010A, rule R103 -/
  | hdrputStatic2
  /-- `HDRPUT static, 3`, word 0x0000010B, rule R103 -/
  | hdrputStatic3
  /-- `HDRPUT static, 4`, word 0x0000010C, rule R103 -/
  | hdrputStatic4
  /-- `HDRPUT static, 5`, word 0x0000010D, rule R103 -/
  | hdrputStatic5
  /-- `HDRPUT static, 6`, word 0x0000010E, rule R103 -/
  | hdrputStatic6
  /-- `HDRPUT static, 7`, word 0x0000010F, rule R103 -/
  | hdrputStatic7
  /-- `HDRPUT hidden, 8`, word 0x00000110, rule R103 -/
  | hdrputHidden8
  /-- `HDRPUT hidden, 1`, word 0x00000111, rule R103 -/
  | hdrputHidden1
  /-- `HDRPUT hidden, 2`, word 0x00000112, rule R103 -/
  | hdrputHidden2
  /-- `HDRPUT hidden, 3`, word 0x00000113, rule R103 -/
  | hdrputHidden3
  /-- `HDRPUT hidden, 4`, word 0x00000114, rule R103 -/
  | hdrputHidden4
  /-- `HDRPUT hidden, 5`, word 0x00000115, rule R103 -/
  | hdrputHidden5
  /-- `HDRPUT hidden, 6`, word 0x00000116, rule R103 -/
  | hdrputHidden6
  /-- `HDRPUT hidden, 7`, word 0x00000117, rule R103 -/
  | hdrputHidden7
  /-- `HDRGET`, word 0x00000200, rule R104 -/
  | hdrget
  /-- `PACK`, word 0x00000300, rule R73 -/
  | pack
  /-- `UNPACK`, word 0x00000400, rule R74 -/
  | unpack
  /-- `MERGE.8`, word 0x00000500, rule R88 -/
  | merge8
  /-- `MERGE.1`, word 0x00000501, rule R88 -/
  | merge1
  /-- `MERGE.2`, word 0x00000502, rule R89 -/
  | merge2
  /-- `MERGE.3`, word 0x00000503, rule R88 -/
  | merge3
  /-- `MERGE.4`, word 0x00000504, rule R90 -/
  | merge4
  /-- `MERGE.5`, word 0x00000505, rule R88 -/
  | merge5
  /-- `MERGE.6`, word 0x00000506, rule R91 -/
  | merge6
  /-- `MERGE.7`, word 0x00000507, rule R88 -/
  | merge7
  /-- `EXTRACT.8`, word 0x00000600, rule R88 -/
  | extract8
  /-- `EXTRACT.1`, word 0x00000601, rule R88 -/
  | extract1
  /-- `EXTRACT.2`, word 0x00000602, rule R92 -/
  | extract2
  /-- `EXTRACT.3`, word 0x00000603, rule R88 -/
  | extract3
  /-- `EXTRACT.4`, word 0x00000604, rule R93 -/
  | extract4
  /-- `EXTRACT.5`, word 0x00000605, rule R88 -/
  | extract5
  /-- `EXTRACT.6`, word 0x00000606, rule R94 -/
  | extract6
  /-- `EXTRACT.7`, word 0x00000607, rule R88 -/
  | extract7
  /-- `TAIL`, word 0x00000700, rule R95 -/
  | tail
  /-- `ENCODE static, 8`, word 0x00000808, rule R111 -/
  | encodeStatic8
  /-- `ENCODE static, 1`, word 0x00000809, rule R116 -/
  | encodeStatic1
  /-- `ENCODE static, 2`, word 0x0000080A, rule R116 -/
  | encodeStatic2
  /-- `ENCODE static, 3`, word 0x0000080B, rule R116 -/
  | encodeStatic3
  /-- `ENCODE static, 4`, word 0x0000080C, rule R116 -/
  | encodeStatic4
  /-- `ENCODE static, 5`, word 0x0000080D, rule R116 -/
  | encodeStatic5
  /-- `ENCODE static, 6`, word 0x0000080E, rule R116 -/
  | encodeStatic6
  /-- `ENCODE static, 7`, word 0x0000080F, rule R116 -/
  | encodeStatic7
  /-- `ENCODE hidden, 8`, word 0x00000810, rule R116 -/
  | encodeHidden8
  /-- `ENCODE hidden, 1`, word 0x00000811, rule R116 -/
  | encodeHidden1
  /-- `ENCODE hidden, 2`, word 0x00000812, rule R112 -/
  | encodeHidden2
  /-- `ENCODE hidden, 3`, word 0x00000813, rule R116 -/
  | encodeHidden3
  /-- `ENCODE hidden, 4`, word 0x00000814, rule R112 -/
  | encodeHidden4
  /-- `ENCODE hidden, 5`, word 0x00000815, rule R116 -/
  | encodeHidden5
  /-- `ENCODE hidden, 6`, word 0x00000816, rule R112 -/
  | encodeHidden6
  /-- `ENCODE hidden, 7`, word 0x00000817, rule R116 -/
  | encodeHidden7
  /-- `DECODE`, word 0x00000900, rule R113 -/
  | decode
  deriving DecidableEq, Repr

end Sys2Proof
end

