-- ==== Sys2Proof/WellFormed.lean ====
section
/-! DEFINITION. What a well-formed command is: the six tests of rule R56, each by name, and the fields rule R55 gives
each row of the opcode table. -/

namespace Sys2Proof

/-- Rule R52, format N: no operand. -/
abbrev Fields.isFormatN (f : Fields) : Prop :=
  f.op.toNat = 0x0 ∨ f.op.toNat = 0x2 ∨ f.op.toNat = 0x3 ∨ f.op.toNat = 0x4 ∨ f.op.toNat = 0x7 ∨ f.op.toNat = 0x9

/-- Rule R52, format D: a depth operand. -/
abbrev Fields.isFormatD (f : Fields) : Prop := f.op.toNat = 0x5 ∨ f.op.toNat = 0x6

/-- Rule R52, format MD: a mode and a depth operand. -/
abbrev Fields.isFormatMD (f : Fields) : Prop := f.op.toNat = 0x1 ∨ f.op.toNat = 0x8

/-- A command's fields are well-formed when none of the six conditions of rule R56 holds. -/
abbrev Fields.WellFormed (f : Fields) : Prop :=
  f.rsv1 = 0 ∧ f.rsv0 = 0 ∧ f.op.toNat < 0xA ∧ (f.isFormatN → f.mode = 0 ∧ f.depth = 0) ∧
    (f.isFormatD → f.mode = 0) ∧ (f.isFormatMD → f.mode = 1 ∨ f.mode = 2)

/-- The fields of a command with no reserved bit set. -/
def Fields.ofCodes (op : BitVec 4) (mode depth : BitVec 3) : Fields :=
  { rsv1 := 0, op := op, rsv0 := 0, mode := mode, depth := depth }

/-- The operation, mode and depth codes of each row, from the opcode map of rule R55 (mode 1 is static, mode 2 is
hidden, rule R54; depth code 0 stands for 8, rule R53). -/
def Instr.fields : Instr → Fields
  | .nop => Fields.ofCodes 0x0 0 0
  | .hdrputStatic8 => Fields.ofCodes 0x1 1 0
  | .hdrputStatic1 => Fields.ofCodes 0x1 1 1
  | .hdrputStatic2 => Fields.ofCodes 0x1 1 2
  | .hdrputStatic3 => Fields.ofCodes 0x1 1 3
  | .hdrputStatic4 => Fields.ofCodes 0x1 1 4
  | .hdrputStatic5 => Fields.ofCodes 0x1 1 5
  | .hdrputStatic6 => Fields.ofCodes 0x1 1 6
  | .hdrputStatic7 => Fields.ofCodes 0x1 1 7
  | .hdrputHidden8 => Fields.ofCodes 0x1 2 0
  | .hdrputHidden1 => Fields.ofCodes 0x1 2 1
  | .hdrputHidden2 => Fields.ofCodes 0x1 2 2
  | .hdrputHidden3 => Fields.ofCodes 0x1 2 3
  | .hdrputHidden4 => Fields.ofCodes 0x1 2 4
  | .hdrputHidden5 => Fields.ofCodes 0x1 2 5
  | .hdrputHidden6 => Fields.ofCodes 0x1 2 6
  | .hdrputHidden7 => Fields.ofCodes 0x1 2 7
  | .hdrget => Fields.ofCodes 0x2 0 0
  | .pack => Fields.ofCodes 0x3 0 0
  | .unpack => Fields.ofCodes 0x4 0 0
  | .merge8 => Fields.ofCodes 0x5 0 0
  | .merge1 => Fields.ofCodes 0x5 0 1
  | .merge2 => Fields.ofCodes 0x5 0 2
  | .merge3 => Fields.ofCodes 0x5 0 3
  | .merge4 => Fields.ofCodes 0x5 0 4
  | .merge5 => Fields.ofCodes 0x5 0 5
  | .merge6 => Fields.ofCodes 0x5 0 6
  | .merge7 => Fields.ofCodes 0x5 0 7
  | .extract8 => Fields.ofCodes 0x6 0 0
  | .extract1 => Fields.ofCodes 0x6 0 1
  | .extract2 => Fields.ofCodes 0x6 0 2
  | .extract3 => Fields.ofCodes 0x6 0 3
  | .extract4 => Fields.ofCodes 0x6 0 4
  | .extract5 => Fields.ofCodes 0x6 0 5
  | .extract6 => Fields.ofCodes 0x6 0 6
  | .extract7 => Fields.ofCodes 0x6 0 7
  | .tail => Fields.ofCodes 0x7 0 0
  | .encodeStatic8 => Fields.ofCodes 0x8 1 0
  | .encodeStatic1 => Fields.ofCodes 0x8 1 1
  | .encodeStatic2 => Fields.ofCodes 0x8 1 2
  | .encodeStatic3 => Fields.ofCodes 0x8 1 3
  | .encodeStatic4 => Fields.ofCodes 0x8 1 4
  | .encodeStatic5 => Fields.ofCodes 0x8 1 5
  | .encodeStatic6 => Fields.ofCodes 0x8 1 6
  | .encodeStatic7 => Fields.ofCodes 0x8 1 7
  | .encodeHidden8 => Fields.ofCodes 0x8 2 0
  | .encodeHidden1 => Fields.ofCodes 0x8 2 1
  | .encodeHidden2 => Fields.ofCodes 0x8 2 2
  | .encodeHidden3 => Fields.ofCodes 0x8 2 3
  | .encodeHidden4 => Fields.ofCodes 0x8 2 4
  | .encodeHidden5 => Fields.ofCodes 0x8 2 5
  | .encodeHidden6 => Fields.ofCodes 0x8 2 6
  | .encodeHidden7 => Fields.ofCodes 0x8 2 7
  | .decode => Fields.ofCodes 0x9 0 0

/-- A command of the table is well-formed when its fields are. Every row of the table is (rule R55: it has one row per
combination that is not an illegal encoding). -/
abbrev Instr.WellFormed (i : Instr) : Prop := i.fields.WellFormed

end Sys2Proof
end

