-- ==== Sys2Proof/Decode.lean ====
section
/-! DEFINITION. The decoder of rule R63, total on all words, which rejects an illegal word by the condition of rule R56
it meets, and the encoder. -/

namespace Sys2Proof

/-- Why a word is illegal: the six conditions of rule R56. All six raise the same error with the same information. -/
inductive IllegalCause where
  /-- (a) `RSV1` is not 0 -/
  | rsv1
  /-- (b) `RSV0` is not 0 -/
  | rsv0
  /-- (c) `OP` is 0xA to 0xF -/
  | op
  /-- (d) format N with `MODE` or `DEPTH` not 0 -/
  | operandOfN
  /-- (e) format D with `MODE` not 0 -/
  | modeOfD
  /-- (f) format MD with `MODE` not 1 or 2 -/
  | modeOfMD
  deriving DecidableEq, Repr

/-- The fields of a word (rule R51). -/
def fieldsOf (w : Word) : Fields :=
  { rsv1 := w.extractLsb' 12 20, op := w.extractLsb' 8 4, rsv0 := w.extractLsb' 6 2,
    mode := w.extractLsb' 3 3, depth := w.extractLsb' 0 3 }

/-- The tests of rule R56, in its order. -/
def illegalCause (f : Fields) : Option IllegalCause :=
  if f.rsv1 ≠ 0 then some .rsv1
  else if f.rsv0 ≠ 0 then some .rsv0
  else if 0xA ≤ f.op.toNat then some .op
  else if f.isFormatN ∧ (f.mode ≠ 0 ∨ f.depth ≠ 0) then some .operandOfN
  else if f.isFormatD ∧ f.mode ≠ 0 then some .modeOfD
  else if f.isFormatMD ∧ ¬(f.mode = 1 ∨ f.mode = 2) then some .modeOfMD
  else none

/-- `HDRPUT static` by depth code (rule R55; code 0 is depth 8, rule R53). -/
def hdrputStaticOf (depth : BitVec 3) : Instr :=
  match depth.toNat with
  | 1 => .hdrputStatic1
  | 2 => .hdrputStatic2
  | 3 => .hdrputStatic3
  | 4 => .hdrputStatic4
  | 5 => .hdrputStatic5
  | 6 => .hdrputStatic6
  | 7 => .hdrputStatic7
  | _ => .hdrputStatic8

/-- `HDRPUT hidden` by depth code (rule R55; code 0 is depth 8, rule R53). -/
def hdrputHiddenOf (depth : BitVec 3) : Instr :=
  match depth.toNat with
  | 1 => .hdrputHidden1
  | 2 => .hdrputHidden2
  | 3 => .hdrputHidden3
  | 4 => .hdrputHidden4
  | 5 => .hdrputHidden5
  | 6 => .hdrputHidden6
  | 7 => .hdrputHidden7
  | _ => .hdrputHidden8

/-- `MERGE` by depth code (rule R55; code 0 is depth 8, rule R53). -/
def mergeOf (depth : BitVec 3) : Instr :=
  match depth.toNat with
  | 1 => .merge1
  | 2 => .merge2
  | 3 => .merge3
  | 4 => .merge4
  | 5 => .merge5
  | 6 => .merge6
  | 7 => .merge7
  | _ => .merge8

/-- `EXTRACT` by depth code (rule R55; code 0 is depth 8, rule R53). -/
def extractOf (depth : BitVec 3) : Instr :=
  match depth.toNat with
  | 1 => .extract1
  | 2 => .extract2
  | 3 => .extract3
  | 4 => .extract4
  | 5 => .extract5
  | 6 => .extract6
  | 7 => .extract7
  | _ => .extract8

/-- `ENCODE static` by depth code (rule R55; code 0 is depth 8, rule R53). -/
def encodeStaticOf (depth : BitVec 3) : Instr :=
  match depth.toNat with
  | 1 => .encodeStatic1
  | 2 => .encodeStatic2
  | 3 => .encodeStatic3
  | 4 => .encodeStatic4
  | 5 => .encodeStatic5
  | 6 => .encodeStatic6
  | 7 => .encodeStatic7
  | _ => .encodeStatic8

/-- `ENCODE hidden` by depth code (rule R55; code 0 is depth 8, rule R53). -/
def encodeHiddenOf (depth : BitVec 3) : Instr :=
  match depth.toNat with
  | 1 => .encodeHidden1
  | 2 => .encodeHidden2
  | 3 => .encodeHidden3
  | 4 => .encodeHidden4
  | 5 => .encodeHidden5
  | 6 => .encodeHidden6
  | 7 => .encodeHidden7
  | _ => .encodeHidden8

/-- The dispatch of rule R63 on (op, m, d), for fields that no test of rule R56 refuses; the last arm refuses. -/
def select (f : Fields) : Except IllegalCause Instr :=
  match f.op.toNat with
  | 0x0 => .ok .nop
  | 0x1 => .ok (if f.mode = 1 then hdrputStaticOf f.depth else hdrputHiddenOf f.depth)
  | 0x2 => .ok .hdrget
  | 0x3 => .ok .pack
  | 0x4 => .ok .unpack
  | 0x5 => .ok (mergeOf f.depth)
  | 0x6 => .ok (extractOf f.depth)
  | 0x7 => .ok .tail
  | 0x8 => .ok (if f.mode = 1 then encodeStaticOf f.depth else encodeHiddenOf f.depth)
  | 0x9 => .ok .decode
  | _ => .error .op

/-- Decode a command word (rule R63). -/
def decode (w : Word) : Except IllegalCause Instr :=
  match illegalCause (fieldsOf w) with
  | some c => .error c
  | none => select (fieldsOf w)

/-- The word of each command (rule R55 and the opcode table). -/
def encode : Instr → Word
  | .nop => 0x00000000#32
  | .hdrputStatic8 => 0x00000108#32
  | .hdrputStatic1 => 0x00000109#32
  | .hdrputStatic2 => 0x0000010A#32
  | .hdrputStatic3 => 0x0000010B#32
  | .hdrputStatic4 => 0x0000010C#32
  | .hdrputStatic5 => 0x0000010D#32
  | .hdrputStatic6 => 0x0000010E#32
  | .hdrputStatic7 => 0x0000010F#32
  | .hdrputHidden8 => 0x00000110#32
  | .hdrputHidden1 => 0x00000111#32
  | .hdrputHidden2 => 0x00000112#32
  | .hdrputHidden3 => 0x00000113#32
  | .hdrputHidden4 => 0x00000114#32
  | .hdrputHidden5 => 0x00000115#32
  | .hdrputHidden6 => 0x00000116#32
  | .hdrputHidden7 => 0x00000117#32
  | .hdrget => 0x00000200#32
  | .pack => 0x00000300#32
  | .unpack => 0x00000400#32
  | .merge8 => 0x00000500#32
  | .merge1 => 0x00000501#32
  | .merge2 => 0x00000502#32
  | .merge3 => 0x00000503#32
  | .merge4 => 0x00000504#32
  | .merge5 => 0x00000505#32
  | .merge6 => 0x00000506#32
  | .merge7 => 0x00000507#32
  | .extract8 => 0x00000600#32
  | .extract1 => 0x00000601#32
  | .extract2 => 0x00000602#32
  | .extract3 => 0x00000603#32
  | .extract4 => 0x00000604#32
  | .extract5 => 0x00000605#32
  | .extract6 => 0x00000606#32
  | .extract7 => 0x00000607#32
  | .tail => 0x00000700#32
  | .encodeStatic8 => 0x00000808#32
  | .encodeStatic1 => 0x00000809#32
  | .encodeStatic2 => 0x0000080A#32
  | .encodeStatic3 => 0x0000080B#32
  | .encodeStatic4 => 0x0000080C#32
  | .encodeStatic5 => 0x0000080D#32
  | .encodeStatic6 => 0x0000080E#32
  | .encodeStatic7 => 0x0000080F#32
  | .encodeHidden8 => 0x00000810#32
  | .encodeHidden1 => 0x00000811#32
  | .encodeHidden2 => 0x00000812#32
  | .encodeHidden3 => 0x00000813#32
  | .encodeHidden4 => 0x00000814#32
  | .encodeHidden5 => 0x00000815#32
  | .encodeHidden6 => 0x00000816#32
  | .encodeHidden7 => 0x00000817#32
  | .decode => 0x00000900#32

/-- Depth code of a depth written as a bit width (rules R53, R60): the width masked to its low 3 bits, so 8 is code 0. -/
def depthCode (width : Nat) : BitVec 3 := BitVec.ofNat 3 width

/-- Pseudo-instruction `ENCS` (rule R61). -/
def pseudoEncs : Word := encode .encodeStatic8

/-- Pseudo-instruction `ENCH d` (rule R61). -/
def pseudoEnch (width : Nat) : Word := encode (encodeHiddenOf (depthCode width))

/-- Pseudo-instruction `HDRS` (rule R61). -/
def pseudoHdrs : Word := encode .hdrputStatic8

/-- Pseudo-instruction `HDRH d` (rule R61). -/
def pseudoHdrh (width : Nat) : Word := encode (hdrputHiddenOf (depthCode width))

/-- The host's question: the command the decoder reads from the low `nbits` bits of `w`. A command is one 32-bit word
written to one register (rules R17, R50), so there are no words to lay out in a byte order. -/
def decodeTableWord (nbits w : Nat) : Option Instr :=
  match decode (BitVec.ofNat 32 (w % 2 ^ nbits)) with
  | .ok i => some i
  | .error _ => none

end Sys2Proof
end

