-- ==== Sys2Proof/Machine/State.lean ====
section
/-! DEFINITION. The state of the block, its errors, the host's moves, the reasons a step can stop, and reset. -/

namespace Sys2Proof.Machine

/-- The three buffers (rule R11). -/
inductive Buf where
  | sym
  | car
  | pix
  deriving DecidableEq, Repr

/-- The seven registers of the host's map (rules R12 to R18). -/
inductive Reg where
  | cmd
  | status
  | errinfo
  | symlen
  | carlen
  | pixlen
  | hdr
  deriving DecidableEq, Repr

/-- The seven errors a command can raise (rule R141). They are outcomes of a command, reported in STATUS and ERRINFO;
the machine goes on (rule R154). -/
inductive Error where
  | capacity
  | notSupported
  | invalidSymbol
  | length
  | bounds
  | header
  | illegalCommand
  deriving DecidableEq, Repr

/-- The moves the host has (rules R13, R46, R60, R170). A register is named by its offset and a cell by its index, as
the host gives them, so an offset or index the spec does not define can be written down and is refused. -/
inductive HostAction where
  /-- read the 32-bit register at an offset -/
  | readReg (offset : Nat)
  /-- write the 32-bit register at an offset; offset 0 is CMD, whose write runs the command (rule R17) -/
  | writeReg (offset : Nat) (value : Word)
  /-- read one buffer byte -/
  | readByte (buf : Buf) (index : Nat)
  /-- write one buffer byte -/
  | writeByte (buf : Buf) (index : Nat) (value : Byte)
  /-- assert and release reset, between commands (rule R170) -/
  | reset
  deriving DecidableEq, Repr

/-- Why the machine stops with a fault. -/
inductive Fault where
  /-- Raised by any read, the engine's or the host's, of a cell nothing has written since reset: it holds no value
  (rule R23), and reading it is a host error (`93_implementation_defined.md` U5). Safe: hardware would go on with an
  unspecified byte. -/
  | unwrittenCell (buf : Buf) (index : Nat)
  /-- Raised by an engine access at or beyond a buffer's size, which rule R39 says no command makes; it cannot be
  reached while the sizes keep the bounds of rule R5. Safe. -/
  | noSuchCell (buf : Buf) (index : Nat)
  deriving DecidableEq, Repr

/-- Why the machine refuses a step. -/
inductive Refusal where
  /-- Raised by an arm of `exec` whose command has no meaning yet; no arm does. Safe. -/
  | notModelled (mnemonic : String)
  /-- Raised by a host access at an offset that is not one of the seven aligned register words: "outside this spec: a
  model refuses them" (rule R13, U9). Safe. -/
  | registerOffset (offset : Nat)
  /-- Raised by a host access to an index at or beyond the buffer's size: "the model's host has moves only ... for
  indices inside each buffer" (U9). Safe. -/
  | bufferIndex (buf : Buf) (index : Nat)
  deriving DecidableEq, Repr

/-- How a command's work can end other than with its effect: with one of the spec's errors and its context value (rule
R146), or with a stop of the model. -/
inductive Stop where
  | error (e : Error) (info : Word)
  | fault (f : Fault)
  deriving DecidableEq, Repr

/-- The three fields of HDR (rule R18); also the fields of a header read from PIX (rule R102). -/
structure Hdr where
  version : BitVec 3
  mode : BitVec 3
  depth : BitVec 3
  deriving DecidableEq, Repr

/-- The contents of one buffer: the cells that hold a value, by rising index. An index that is not listed holds no
value (rule R23, U5; DESIGN CHOICE, log entry 2), so no entry can equal what an unlisted index reads as. -/
abbrev Memory := List Host.Cell

/-- The state of the block (rule R10), its parameters (rule R5), and the model's own two fields for the host's side. -/
structure State where
  /-- the sizes of the buffers (rule R5); no step changes them -/
  params : Params
  /-- CMD, the last word written (rule R17) -/
  cmd : Word
  /-- STATUS.DONE, bit 7 (rule R15) -/
  done : Bool
  /-- STATUS.ERRCODE, bits 3:0 (rule R15) -/
  errcode : BitVec 4
  /-- ERRINFO (rule R16) -/
  errinfo : Word
  /-- SYMLEN (rule R12) -/
  symlen : Word
  /-- CARLEN (rule R12) -/
  carlen : Word
  /-- PIXLEN (rule R12) -/
  pixlen : Word
  /-- HDR (rule R18) -/
  hdr : Hdr
  /-- SYM (rule R11) -/
  sym : Memory
  /-- CAR (rule R11) -/
  car : Memory
  /-- PIX (rule R11) -/
  pix : Memory
  /-- the MODEL's own field: the host's moves still to come, oldest first (DESIGN CHOICE, log entry 3) -/
  pending : List HostAction
  /-- the MODEL's own field: what the host's last read was answered with (DESIGN CHOICE, log entry 4) -/
  readData : Option Word
  deriving DecidableEq, Repr

/-- The state after reset for given sizes: every register 0 and every cell without a value (rules R23, R170). No host
move is pending and none has been answered (log entries 3 and 4). -/
def State.resetWith (p : Params) : State :=
  { params := p, cmd := 0, done := false, errcode := 0, errinfo := 0, symlen := 0, carlen := 0, pixlen := 0,
    hdr := { version := 0, mode := 0, depth := 0 }, sym := [], car := [], pix := [], pending := [], readData := none }

/-- The machine right after reset (rule R23), with the sizes of log entry 1. -/
def State.reset : State := State.resetWith Params.standard

end Sys2Proof.Machine
end

