-- ==== Sys2Proof/Machine/Flags.lean ====
section
/-! DEFINITION. The registers as the host reads them, the error codes, and the two ways a command ends. -/

namespace Sys2Proof.Machine

/-- `STATUS.ERRCODE` of each error (rule R141). -/
def Error.code : Error → BitVec 4
  | .capacity => 1
  | .notSupported => 2
  | .invalidSymbol => 3
  | .length => 4
  | .bounds => 5
  | .header => 6
  | .illegalCommand => 7

/-- STATUS as a word: DONE in bit 7, ERRCODE in bits 3:0, every reserved bit 0 (rules R15, R19). -/
def statusWord (done : Bool) (errcode : BitVec 4) : Word :=
  (if done then 0x80#32 else 0#32) ||| errcode.setWidth 32

/-- HDR as a word: VERSION in bits 8:6, MODE in 5:3, DEPTH in 2:0, every reserved bit 0 (rules R18, R19). -/
def Hdr.word (h : Hdr) : Word :=
  (h.version.setWidth 32 <<< 6) ||| (h.mode.setWidth 32 <<< 3) ||| h.depth.setWidth 32

/-- `{mode code, depth code}` in bits 5:3 and 2:0: the ERRINFO of `NotSupportedError`, which is the low six bits of the
command word or of the header (rules R51, R143). -/
def pairWord (mode depth : BitVec 3) : Word := (mode.setWidth 32 <<< 3) ||| depth.setWidth 32

/-- The success epilogue (rule R50, step 4). -/
def succeed (s : State) : State := { s with done := true, errcode := 0, errinfo := 0 }

end Sys2Proof.Machine
end

