-- ==== Sys2Proof/Machine/Ops.lean ====
section
/-! DEFINITION. The named operations over buffers and registers, the error entry, and the frame every command runs in. -/

namespace Sys2Proof.Machine

/-! ## One buffer as data -/

/-- The byte at an index, if the cell holds a value. -/
def Memory.read : Memory → Nat → Option Byte
  | [], _ => none
  | (k, v) :: m, a => if k = a then some v else Memory.read m a

/-- Write one byte, keeping the indices rising. -/
def Memory.write : Memory → Nat → Byte → Memory
  | [], a, v => [(a, v)]
  | (k, w) :: m, a, v =>
    if a < k then (a, v) :: (k, w) :: m
    else if a = k then (a, v) :: m
    else (k, w) :: Memory.write m a v

/-- Write consecutive bytes from an index on. -/
def Memory.writeList : Memory → Nat → List Byte → Memory
  | m, _, [] => m
  | m, a, v :: vs => Memory.writeList (Memory.write m a v) (a + 1) vs

/-- The canonical form: indices strictly rising. -/
def Memory.wf : Memory → Bool
  | [] => true
  | [_] => true
  | (a, _) :: (b, w) :: m => decide (a < b) && Memory.wf ((b, w) :: m)

/-- Every listed index is below a size. -/
def Memory.below (size : Nat) (m : Memory) : Bool := m.all fun c => decide (c.1 < size)

/-! ## The buffers of the state -/

/-- Number of cells of a buffer (rule R11). -/
def State.size (s : State) : Buf → Nat
  | .sym => s.params.symSize
  | .car => s.params.carSize
  | .pix => s.params.pixSize

/-- The contents of a buffer. -/
def State.mem (s : State) : Buf → Memory
  | .sym => s.sym
  | .car => s.car
  | .pix => s.pix

/-- Replace the contents of a buffer. -/
def State.setMem (s : State) (b : Buf) (m : Memory) : State :=
  match b with
  | .sym => { s with sym := m }
  | .car => { s with car := m }
  | .pix => { s with pix := m }

/-- The byte a cell holds, if it holds one: the model's read of one byte, used by every statement about buffers. -/
def State.byte (s : State) (b : Buf) (a : Nat) : Option Byte := Memory.read (s.mem b) a

/-- `MemRead(B, a, 1)` (rule R7). -/
def memRead (s : State) (b : Buf) (a : Nat) : Except Stop Byte :=
  if a < s.size b then
    match s.byte b a with
    | some v => .ok v
    | none => .error (.fault (.unwrittenCell b a))
  else .error (.fault (.noSuchCell b a))

/-- `MemWrite(B, a, 1, v)` (rule R7). -/
def memWrite (s : State) (b : Buf) (a : Nat) (v : Byte) : Except Stop State :=
  if a < s.size b then .ok (s.setMem b (Memory.write (s.mem b) a v))
  else .error (.fault (.noSuchCell b a))

/-- Read `B[a..a+len)`, one byte at a time in increasing order (rules R7, R34). -/
def readRange (s : State) (b : Buf) : (a len : Nat) → Except Stop (List Byte)
  | _, 0 => .ok []
  | a, len + 1 => do
    let v ← memRead s b a
    let vs ← readRange s b (a + 1) len
    .ok (v :: vs)

/-- Write consecutive cells `B[a], B[a+1], ...`, one byte at a time in increasing order (rules R7, R34). -/
def writeRange (s : State) (b : Buf) (a : Nat) : List Byte → Except Stop State
  | [] => .ok s
  | v :: vs => do
    let t ← memWrite s b a v
    writeRange t b (a + 1) vs

/-! ## Checks, errors and the frame of a command -/

/-- A check of a command's list: unless `p` holds, the command ends with the error (rule R50, step 2). -/
def require (p : Prop) [Decidable p] (e : Error) (info : Word) : Except Stop Unit :=
  if p then .ok () else .error (.error e info)

/-- The check for symbols above 63 over `SYM[i..i+len)`, in increasing order, so that the smallest index is the one
reported (rule R144). -/
def checkSymbols (s : State) : (i len : Nat) → Except Stop Unit
  | _, 0 => .ok ()
  | i, len + 1 => do
    let v ← memRead s .sym i
    require (v.toNat ≤ 63) .invalidSymbol (BitVec.ofNat 32 i)
    checkSymbols s (i + 1) len

/-- The error entry (rule R146): STATUS and ERRINFO report the error and nothing else changes. There is no saved
register, no mode and no address to go to, and nothing to return from (rule R154). -/
def raiseError (e : Error) (info : Word) (s : State) : State :=
  { s with done := true, errcode := e.code, errinfo := info }

/-- The frame every command runs in (rules R50, R153): if its checks pass and its writes are made, the success epilogue;
if a check fails, the error entry on the state the command started from, so that nothing else has changed. -/
def runCommand (s : State) (work : Except Stop State) : Host.Outcome State Fault Refusal :=
  match work with
  | .ok t => .next (succeed t)
  | .error (.error e info) => .next (raiseError e info s)
  | .error (.fault f) => .fault f

end Sys2Proof.Machine
end

