-- ==== Sys2Proof/Machine/Operands.lean ====
section
/-! DEFINITION. What a command's operands mean: the lengths it reads, the depth and mode codes, and the constants of
each depth. -/

namespace Sys2Proof.Machine

/-! ## Lengths (rule R8: each read once, as a natural number) -/

/-- `n`, the value of SYMLEN. -/
def State.n (s : State) : Nat := s.symlen.toNat

/-- `c`, the value of CARLEN. -/
def State.c (s : State) : Nat := s.carlen.toNat

/-- `p`, the value of PIXLEN. -/
def State.p (s : State) : Nat := s.pixlen.toNat

/-- A length as a register value or as an ERRINFO value (`zext_32`, rule R146). -/
def word (v : Nat) : Word := BitVec.ofNat 32 v

/-! ## Depths and modes -/

/-- The depth a code stands for (rule R53). -/
def depthOf (code : BitVec 3) : Nat := if code = 0 then 8 else code.toNat

/-- The depths the stego unit supports (rule R80). -/
inductive Depth where
  | two
  | four
  | six
  deriving DecidableEq, Repr

/-- The depth in bits. -/
def Depth.bits : Depth → Nat
  | .two => 2
  | .four => 4
  | .six => 6

/-- The depth code of a supported depth (rules R53, R80). -/
def Depth.code : Depth → BitVec 3
  | .two => 2
  | .four => 4
  | .six => 6

/-- Symbols per pixel triple, `k = d/2` (rule R80). -/
def Depth.perTriple : Depth → Nat
  | .two => 1
  | .four => 2
  | .six => 3

/-- What SYMLEN must be a multiple of (rule R80). -/
def Depth.align : Depth → Nat
  | .two => 1
  | .four => 2
  | .six => 3

/-- `HI(d)`: the carrier bits that are kept (rule R80). -/
def Depth.hi : Depth → Byte
  | .two => 0xFC
  | .four => 0xF0
  | .six => 0xC0

/-- `LO(d)`: the payload bits (rule R80). -/
def Depth.lo : Depth → Byte
  | .two => 0x03
  | .four => 0x0F
  | .six => 0x3F

/-- The payload bytes of `n` symbols, `n*6/d` (rule R84). -/
def Depth.payload (d : Depth) (n : Nat) : Nat :=
  match d with
  | .two => 3 * n
  | .four => 3 * n / 2
  | .six => n

/-- The carrier bytes `n` symbols need, header included (rule R84). -/
def Depth.required (d : Depth) (n : Nat) : Nat := 3 + d.payload n

/-- The supported depth a depth code names, if any (rules R57, R88). -/
def Depth.ofCode (code : BitVec 3) : Option Depth :=
  match code.toNat with
  | 2 => some .two
  | 4 => some .four
  | 6 => some .six
  | _ => none

/-- The mode codes (rule R54). -/
def modeStatic : BitVec 3 := 1

/-- The mode codes (rule R54). -/
def modeHidden : BitVec 3 := 2

/-- What a legal (mode, depth) pair selects (rules R57, R113). -/
inductive Coding where
  | static
  | hidden (d : Depth)
  deriving DecidableEq, Repr

/-- The predicate `legal` of rule R57, answering what the pair selects: (static, 8) or (hidden, 2 / 4 / 6), and nothing
else. -/
def legalPair (mode depth : BitVec 3) : Option Coding :=
  if mode = modeStatic then
    if depth = 0 then some .static else none
  else if mode = modeHidden then
    (Depth.ofCode depth).map .hidden
  else none

/-- The first check of a command with a mode and a depth operand (rules R57, R103, R116), and DECODE's fourth (rule
R113). -/
def requireLegal (mode depth : BitVec 3) : Except Stop Coding :=
  match legalPair mode depth with
  | some x => .ok x
  | none => .error (.error .notSupported (pairWord mode depth))

/-- The first check of MERGE and EXTRACT (rule R88); the mode field of their words is 0. -/
def requireDepth (depth : BitVec 3) : Except Stop Depth :=
  match Depth.ofCode depth with
  | some d => .ok d
  | none => .error (.error .notSupported (pairWord 0 depth))

end Sys2Proof.Machine
end

