-- ==== Sys2Proof/Machine/BitPacker.lean ====
section
/-! DEFINITION. The bit-packer: PACK and UNPACK. -/

namespace Sys2Proof.Machine

/-- Four symbols to three bytes (rule R70). The symbols are at most 63 where it is applied (rule R73, check 4). -/
def pack4 (s0 s1 s2 s3 : Byte) : Byte × Byte × Byte :=
  ((s0 <<< 2) ||| (s1 >>> 4),
   ((s1 &&& 0xF) <<< 4) ||| (s2 >>> 2),
   ((s2 &&& 0x3) <<< 6) ||| s3)

/-- Three bytes to four symbols (rule R71). -/
def unpack3 (b0 b1 b2 : Byte) : Byte × Byte × Byte × Byte :=
  (b0 >>> 2,
   ((b0 &&& 3) <<< 4) ||| (b1 >>> 4),
   ((b1 &&& 0xF) <<< 2) ||| (b2 >>> 6),
   b2 &&& 0x3F)

/-- `pack4` quad by quad over a symbol sequence (the loop of rule R73). -/
def packAll : List Byte → List Byte
  | s0 :: s1 :: s2 :: s3 :: rest =>
    let (b0, b1, b2) := pack4 s0 s1 s2 s3
    b0 :: b1 :: b2 :: packAll rest
  | _ => []

/-- `unpack3` triple by triple over a byte sequence (the loop of rule R74). -/
def unpackAll : List Byte → List Byte
  | b0 :: b1 :: b2 :: rest =>
    let (s0, s1, s2, s3) := unpack3 b0 b1 b2
    s0 :: s1 :: s2 :: s3 :: unpackAll rest
  | _ => []

/-- The four checks of PACK, in order (rule R73); also ENCODE static's (rule R111). -/
def packChecks (s : State) : Except Stop Unit := do
  require (s.n % 4 = 0) .length s.symlen
  require (s.n ≤ s.params.symSize) .bounds s.symlen
  require (3 + 3 * s.n / 4 ≤ s.params.pixSize) .bounds (word (3 + 3 * s.n / 4))
  checkSymbols s 0 s.n

/-- The effect of PACK (rule R73), on a state whose symbols have been checked. -/
def packEffect (s : State) : Except Stop State := do
  let symbols ← readRange s .sym 0 s.n
  let t ← writeRange s .pix 3 (packAll symbols)
  .ok { t with pixlen := word (3 + 3 * s.n / 4) }

/-- The three checks of UNPACK, in order (rule R74). -/
def unpackChecks (s : State) : Except Stop Unit := do
  require (3 ≤ s.p ∧ (s.p - 3) % 3 = 0) .length s.pixlen
  require (s.p ≤ s.params.pixSize) .bounds s.pixlen
  require (4 * (s.p - 3) / 3 ≤ s.params.symSize) .bounds (word (4 * (s.p - 3) / 3))

/-- The effect of UNPACK (rule R74). -/
def unpackEffect (s : State) : Except Stop State := do
  let bytes ← readRange s .pix 3 (s.p - 3)
  let t ← writeRange s .sym 0 (unpackAll bytes)
  .ok { t with symlen := word (4 * (s.p - 3) / 3) }

/-- `PACK` (rule R73). -/
def execPack (s : State) : Host.Outcome State Fault Refusal :=
  runCommand s do
    packChecks s
    packEffect s

/-- `UNPACK` (rule R74). -/
def execUnpack (s : State) : Host.Outcome State Fault Refusal :=
  runCommand s do
    unpackChecks s
    unpackEffect s

end Sys2Proof.Machine
end

