-- ==== Sys2Proof/Machine/MetaHeader.lean ====
section
/-! DEFINITION. The MetaHeader packer and unpacker: HDRPUT and HDRGET. -/

namespace Sys2Proof.Machine

/-- A 3-bit header field as the byte it is stored in. -/
def tagByte (t : BitVec 3) : Byte := t.setWidth 8

/-- The three tag bytes (rule R100). -/
def tag (mode depth : BitVec 3) : List Byte :=
  [tagByte mode, tagByte depth, tagByte Config.formatVersion]

/-- A tag byte blended into a carrier byte (rule R101): clear the low three bits, then or. -/
def blend (c t : Byte) : Byte := (c &&& 0xF8) ||| t

/-- The low three bits of the first three bytes of PIX (rule R102). -/
def headerFields (b0 b1 b2 : Byte) : Hdr :=
  { version := b2.setWidth 3, mode := b0.setWidth 3, depth := b1.setWidth 3 }

/-- The header fields of `PIX[0..3)` (rules R102, R104, R113). -/
def readHeader (s : State) : Except Stop Hdr := do
  let b0 ← memRead s .pix 0
  let b1 ← memRead s .pix 1
  let b2 ← memRead s .pix 2
  .ok (headerFields b0 b1 b2)

/-- Write the tag as a pixel of its own (rule R103, m = 1; rule R111). -/
def putStaticHeader (s : State) : Except Stop State :=
  writeRange s .pix 0 (tag modeStatic 0)

/-- Blend the tag into the carrier's first pixel (rule R103, m = 2; rule R112). -/
def putHiddenHeader (d : Depth) (s : State) : Except Stop State := do
  let carrier ← readRange s .car 0 3
  writeRange s .pix 0 (List.zipWith blend carrier (tag modeHidden d.code))

/-- `HDRPUT m, d` (rule R103). -/
def hdrput (mode depth : BitVec 3) (s : State) : Host.Outcome State Fault Refusal :=
  runCommand s do
    match ← requireLegal mode depth with
    | .static => putStaticHeader s
    | .hidden d =>
      require (s.c ≤ s.params.carSize) .bounds s.carlen
      require (3 ≤ s.c) .capacity (word 3)
      putHiddenHeader d s

/-- `HDRGET` (rule R104). -/
def hdrget (s : State) : Host.Outcome State Fault Refusal :=
  runCommand s do
    require (3 ≤ s.p) .length s.pixlen
    let h ← readHeader s
    .ok { s with hdr := h }

/-- `HDRPUT static, 8` (rule R103). -/
def execHdrputStatic8 (s : State) : Host.Outcome State Fault Refusal := hdrput modeStatic 0 s

/-- `HDRPUT static, 1` (rule R103). -/
def execHdrputStatic1 (s : State) : Host.Outcome State Fault Refusal := hdrput modeStatic 1 s

/-- `HDRPUT static, 2` (rule R103). -/
def execHdrputStatic2 (s : State) : Host.Outcome State Fault Refusal := hdrput modeStatic 2 s

/-- `HDRPUT static, 3` (rule R103). -/
def execHdrputStatic3 (s : State) : Host.Outcome State Fault Refusal := hdrput modeStatic 3 s

/-- `HDRPUT static, 4` (rule R103). -/
def execHdrputStatic4 (s : State) : Host.Outcome State Fault Refusal := hdrput modeStatic 4 s

/-- `HDRPUT static, 5` (rule R103). -/
def execHdrputStatic5 (s : State) : Host.Outcome State Fault Refusal := hdrput modeStatic 5 s

/-- `HDRPUT static, 6` (rule R103). -/
def execHdrputStatic6 (s : State) : Host.Outcome State Fault Refusal := hdrput modeStatic 6 s

/-- `HDRPUT static, 7` (rule R103). -/
def execHdrputStatic7 (s : State) : Host.Outcome State Fault Refusal := hdrput modeStatic 7 s

/-- `HDRPUT hidden, 8` (rule R103). -/
def execHdrputHidden8 (s : State) : Host.Outcome State Fault Refusal := hdrput modeHidden 0 s

/-- `HDRPUT hidden, 1` (rule R103). -/
def execHdrputHidden1 (s : State) : Host.Outcome State Fault Refusal := hdrput modeHidden 1 s

/-- `HDRPUT hidden, 2` (rule R103). -/
def execHdrputHidden2 (s : State) : Host.Outcome State Fault Refusal := hdrput modeHidden 2 s

/-- `HDRPUT hidden, 3` (rule R103). -/
def execHdrputHidden3 (s : State) : Host.Outcome State Fault Refusal := hdrput modeHidden 3 s

/-- `HDRPUT hidden, 4` (rule R103). -/
def execHdrputHidden4 (s : State) : Host.Outcome State Fault Refusal := hdrput modeHidden 4 s

/-- `HDRPUT hidden, 5` (rule R103). -/
def execHdrputHidden5 (s : State) : Host.Outcome State Fault Refusal := hdrput modeHidden 5 s

/-- `HDRPUT hidden, 6` (rule R103). -/
def execHdrputHidden6 (s : State) : Host.Outcome State Fault Refusal := hdrput modeHidden 6 s

/-- `HDRPUT hidden, 7` (rule R103). -/
def execHdrputHidden7 (s : State) : Host.Outcome State Fault Refusal := hdrput modeHidden 7 s

/-- `HDRGET` (rule R104). -/
def execHdrget (s : State) : Host.Outcome State Fault Refusal := hdrget s

end Sys2Proof.Machine
end

