-- ==== Sys2Proof/Machine/Stego.lean ====
section
/-! DEFINITION. The stego merger and extractor: MERGE.d, EXTRACT.d and TAIL. -/

namespace Sys2Proof.Machine

/-! ## Groups of a triple (rules R81, R82, R83, R85: most significant group to channel 0; UNVERIFIED
against the reference program at depths 2 and 4, log entry 7) -/

/-- Depth 6: three symbols to three groups (rule R82). -/
def split6 (s0 s1 s2 : Byte) : Byte × Byte × Byte := (s0, s1, s2)

/-- Depth 6: three groups to three symbols (rule R82). -/
def join6 (g0 g1 g2 : Byte) : Byte × Byte × Byte := (g0, g1, g2)

/-- Depth 4: two symbols to three groups (rule R83). -/
def split4 (s0 s1 : Byte) : Byte × Byte × Byte :=
  (s0 >>> 2, ((s0 &&& 0x3) <<< 2) ||| (s1 >>> 4), s1 &&& 0xF)

/-- Depth 4: three groups to two symbols (rule R83). -/
def join4 (g0 g1 g2 : Byte) : Byte × Byte :=
  ((g0 <<< 2) ||| (g1 >>> 2), ((g1 &&& 0x3) <<< 4) ||| g2)

/-- Depth 2: one symbol to three groups (rule R85). -/
def split2 (s : Byte) : Byte × Byte × Byte :=
  (s >>> 4, (s >>> 2) &&& 0x3, s &&& 0x3)

/-- Depth 2: three groups to one symbol (rule R85). -/
def join2 (g0 g1 g2 : Byte) : Byte := (g0 <<< 4) ||| (g1 <<< 2) ||| g2

/-- The groups of a symbol sequence at depth 2, triple by triple. -/
def splitAll2 : List Byte → List Byte
  | s :: rest =>
    let (g0, g1, g2) := split2 s
    g0 :: g1 :: g2 :: splitAll2 rest
  | [] => []

/-- The groups of a symbol sequence at depth 4, triple by triple. -/
def splitAll4 : List Byte → List Byte
  | s0 :: s1 :: rest =>
    let (g0, g1, g2) := split4 s0 s1
    g0 :: g1 :: g2 :: splitAll4 rest
  | _ => []

/-- The groups of a symbol sequence at depth 6, triple by triple. -/
def splitAll6 : List Byte → List Byte
  | s0 :: s1 :: s2 :: rest =>
    let (g0, g1, g2) := split6 s0 s1 s2
    g0 :: g1 :: g2 :: splitAll6 rest
  | _ => []

/-- The groups of a symbol sequence, in channel order (rule R86). -/
def splitAll : Depth → List Byte → List Byte
  | .two => splitAll2
  | .four => splitAll4
  | .six => splitAll6

/-- The symbols of a group sequence at depth 2, triple by triple. -/
def joinAll2 : List Byte → List Byte
  | g0 :: g1 :: g2 :: rest => join2 g0 g1 g2 :: joinAll2 rest
  | _ => []

/-- The symbols of a group sequence at depth 4, triple by triple. -/
def joinAll4 : List Byte → List Byte
  | g0 :: g1 :: g2 :: rest =>
    let (s0, s1) := join4 g0 g1 g2
    s0 :: s1 :: joinAll4 rest
  | _ => []

/-- The symbols of a group sequence at depth 6, triple by triple. -/
def joinAll6 : List Byte → List Byte
  | g0 :: g1 :: g2 :: rest =>
    let (s0, s1, s2) := join6 g0 g1 g2
    s0 :: s1 :: s2 :: joinAll6 rest
  | _ => []

/-- The symbols of a group sequence (rule R86). -/
def joinAll : Depth → List Byte → List Byte
  | .two => joinAll2
  | .four => joinAll4
  | .six => joinAll6

/-- One channel of a merge (rule R86): the carrier's high bits with a group below them. -/
def mergeLane (d : Depth) (c g : Byte) : Byte := (c &&& d.hi) ||| g

/-- `mergeTriple_d` over a whole payload (rule R86). -/
def mergeAll (d : Depth) (carrier symbols : List Byte) : List Byte :=
  List.zipWith (mergeLane d) carrier (splitAll d symbols)

/-- `extractTriple_d` over a whole payload (rule R86). -/
def extractAll (d : Depth) (bytes : List Byte) : List Byte :=
  joinAll d (bytes.map fun b => b &&& d.lo)

/-- A tail byte (rule R95): the low two bits cleared, at every depth. -/
def tailByte (c : Byte) : Byte := c &&& 0xFC

/-! ## Checks and effects -/

/-- Checks 2 to 8 of MERGE.d, in order (rule R96); also ENCODE hidden's (rule R112). -/
def mergeChecks (d : Depth) (s : State) : Except Stop Unit := do
  require (s.n % d.align = 0) .length s.symlen
  require (s.c % 3 = 0) .length s.carlen
  require (s.n ≤ s.params.symSize) .bounds s.symlen
  require (s.c ≤ s.params.carSize) .bounds s.carlen
  require (s.c ≤ s.params.pixSize) .bounds s.carlen
  require (d.required s.n ≤ s.c) .capacity (word (d.required s.n))
  checkSymbols s 0 s.n

/-- The payload of a merge (rules R89, R90, R91): `PIX[3..required)` from SYM and the carrier. -/
def putPayload (d : Depth) (s : State) : Except Stop State := do
  let symbols ← readRange s .sym 0 s.n
  let carrier ← readRange s .car 3 (d.payload s.n)
  writeRange s .pix 3 (mergeAll d carrier symbols)

/-- The effect of MERGE.d (rules R89, R90, R91). -/
def mergeEffect (d : Depth) (s : State) : Except Stop State := do
  let t ← putPayload d s
  .ok { t with pixlen := word (d.required s.n) }

/-- Checks 2 to 4 of EXTRACT.d, in order (rule R97); also DECODE's for a hidden header (rule R113). -/
def extractChecks (d : Depth) (s : State) : Except Stop Unit := do
  require (3 ≤ s.p ∧ (s.p - 3) % 3 = 0) .length s.pixlen
  require (s.p ≤ s.params.pixSize) .bounds s.pixlen
  require (d.perTriple * (s.p - 3) / 3 ≤ s.params.symSize) .bounds (word (d.perTriple * (s.p - 3) / 3))

/-- The effect of EXTRACT.d (rules R92, R93, R94). -/
def extractEffect (d : Depth) (s : State) : Except Stop State := do
  let bytes ← readRange s .pix 3 (s.p - 3)
  let t ← writeRange s .sym 0 (extractAll d bytes)
  .ok { t with symlen := word (d.perTriple * (s.p - 3) / 3) }

/-- Copy `CAR[a..c)` to PIX with the low two bits cleared (rules R95, R112). -/
def putTail (a : Nat) (s : State) : Except Stop State := do
  let carrier ← readRange s .car a (s.c - a)
  writeRange s .pix a (carrier.map tailByte)

/-- `MERGE` at a depth code (rules R88 to R91, R96). -/
def merge (depth : BitVec 3) (s : State) : Host.Outcome State Fault Refusal :=
  runCommand s do
    let d ← requireDepth depth
    mergeChecks d s
    mergeEffect d s

/-- `EXTRACT` at a depth code (rules R88, R92 to R94, R97). -/
def extract (depth : BitVec 3) (s : State) : Host.Outcome State Fault Refusal :=
  runCommand s do
    let d ← requireDepth depth
    extractChecks d s
    extractEffect d s

/-- `TAIL` (rule R95). -/
def tailCommand (s : State) : Host.Outcome State Fault Refusal :=
  runCommand s do
    require (s.c % 3 = 0) .length s.carlen
    require (3 ≤ s.p ∧ s.p ≤ s.c) .length s.pixlen
    require (s.c ≤ s.params.carSize) .bounds s.carlen
    require (s.c ≤ s.params.pixSize) .bounds s.carlen
    let t ← putTail s.p s
    .ok { t with pixlen := s.carlen }

/-- `MERGE.8` (rule R88). -/
def execMerge8 (s : State) : Host.Outcome State Fault Refusal := merge 0 s

/-- `MERGE.1` (rule R88). -/
def execMerge1 (s : State) : Host.Outcome State Fault Refusal := merge 1 s

/-- `MERGE.2` (rule R89). -/
def execMerge2 (s : State) : Host.Outcome State Fault Refusal := merge 2 s

/-- `MERGE.3` (rule R88). -/
def execMerge3 (s : State) : Host.Outcome State Fault Refusal := merge 3 s

/-- `MERGE.4` (rule R90). -/
def execMerge4 (s : State) : Host.Outcome State Fault Refusal := merge 4 s

/-- `MERGE.5` (rule R88). -/
def execMerge5 (s : State) : Host.Outcome State Fault Refusal := merge 5 s

/-- `MERGE.6` (rule R91). -/
def execMerge6 (s : State) : Host.Outcome State Fault Refusal := merge 6 s

/-- `MERGE.7` (rule R88). -/
def execMerge7 (s : State) : Host.Outcome State Fault Refusal := merge 7 s

/-- `EXTRACT.8` (rule R88). -/
def execExtract8 (s : State) : Host.Outcome State Fault Refusal := extract 0 s

/-- `EXTRACT.1` (rule R88). -/
def execExtract1 (s : State) : Host.Outcome State Fault Refusal := extract 1 s

/-- `EXTRACT.2` (rule R92). -/
def execExtract2 (s : State) : Host.Outcome State Fault Refusal := extract 2 s

/-- `EXTRACT.3` (rule R88). -/
def execExtract3 (s : State) : Host.Outcome State Fault Refusal := extract 3 s

/-- `EXTRACT.4` (rule R93). -/
def execExtract4 (s : State) : Host.Outcome State Fault Refusal := extract 4 s

/-- `EXTRACT.5` (rule R88). -/
def execExtract5 (s : State) : Host.Outcome State Fault Refusal := extract 5 s

/-- `EXTRACT.6` (rule R94). -/
def execExtract6 (s : State) : Host.Outcome State Fault Refusal := extract 6 s

/-- `EXTRACT.7` (rule R88). -/
def execExtract7 (s : State) : Host.Outcome State Fault Refusal := extract 7 s

/-- `TAIL` (rule R95). -/
def execTail (s : State) : Host.Outcome State Fault Refusal := tailCommand s

end Sys2Proof.Machine
end

