-- ==== Sys2Proof/Machine/Compound.lean ====
section
/-! DEFINITION. The compound and system commands: NOP, ENCODE and DECODE. -/

namespace Sys2Proof.Machine

/-- The work of `ENCODE static, 8` after the legal pair is known (rule R111). -/
def encodeStaticWork (s : State) : Except Stop State := do
  packChecks s
  let t ← putStaticHeader s
  packEffect t

/-- The work of `ENCODE hidden, d` after the legal pair is known (rule R112): header blend, merge, tail. -/
def encodeHiddenWork (d : Depth) (s : State) : Except Stop State := do
  mergeChecks d s
  let t ← putHiddenHeader d s
  let u ← putPayload d t
  let v ← putTail (d.required s.n) u
  .ok { v with pixlen := s.carlen }

/-- `ENCODE m, d` (rules R111, R112, R116). -/
def encodeCommand (mode depth : BitVec 3) (s : State) : Host.Outcome State Fault Refusal :=
  runCommand s do
    match ← requireLegal mode depth with
    | .static => encodeStaticWork s
    | .hidden d => encodeHiddenWork d s

/-- `DECODE` (rule R113). -/
def decodeCommand (s : State) : Host.Outcome State Fault Refusal :=
  runCommand s do
    require (3 ≤ s.p) .length s.pixlen
    let h ← readHeader s
    require (h.version = Config.formatVersion) .header h.word
    require (h.mode = modeStatic ∨ h.mode = modeHidden) .header h.word
    match ← requireLegal h.mode h.depth with
    | .static =>
      unpackChecks s
      let t ← unpackEffect s
      .ok { t with hdr := h }
    | .hidden d =>
      extractChecks d s
      let t ← extractEffect d s
      .ok { t with hdr := h }

/-- `NOP` (rule R110). -/
def execNop (s : State) : Host.Outcome State Fault Refusal := runCommand s (.ok s)

/-- `ENCODE static, 8` (rule R111). -/
def execEncodeStatic8 (s : State) : Host.Outcome State Fault Refusal := encodeCommand modeStatic 0 s

/-- `ENCODE static, 1` (rule R116). -/
def execEncodeStatic1 (s : State) : Host.Outcome State Fault Refusal := encodeCommand modeStatic 1 s

/-- `ENCODE static, 2` (rule R116). -/
def execEncodeStatic2 (s : State) : Host.Outcome State Fault Refusal := encodeCommand modeStatic 2 s

/-- `ENCODE static, 3` (rule R116). -/
def execEncodeStatic3 (s : State) : Host.Outcome State Fault Refusal := encodeCommand modeStatic 3 s

/-- `ENCODE static, 4` (rule R116). -/
def execEncodeStatic4 (s : State) : Host.Outcome State Fault Refusal := encodeCommand modeStatic 4 s

/-- `ENCODE static, 5` (rule R116). -/
def execEncodeStatic5 (s : State) : Host.Outcome State Fault Refusal := encodeCommand modeStatic 5 s

/-- `ENCODE static, 6` (rule R116). -/
def execEncodeStatic6 (s : State) : Host.Outcome State Fault Refusal := encodeCommand modeStatic 6 s

/-- `ENCODE static, 7` (rule R116). -/
def execEncodeStatic7 (s : State) : Host.Outcome State Fault Refusal := encodeCommand modeStatic 7 s

/-- `ENCODE hidden, 8` (rule R116). -/
def execEncodeHidden8 (s : State) : Host.Outcome State Fault Refusal := encodeCommand modeHidden 0 s

/-- `ENCODE hidden, 1` (rule R116). -/
def execEncodeHidden1 (s : State) : Host.Outcome State Fault Refusal := encodeCommand modeHidden 1 s

/-- `ENCODE hidden, 2` (rule R112). -/
def execEncodeHidden2 (s : State) : Host.Outcome State Fault Refusal := encodeCommand modeHidden 2 s

/-- `ENCODE hidden, 3` (rule R116). -/
def execEncodeHidden3 (s : State) : Host.Outcome State Fault Refusal := encodeCommand modeHidden 3 s

/-- `ENCODE hidden, 4` (rule R112). -/
def execEncodeHidden4 (s : State) : Host.Outcome State Fault Refusal := encodeCommand modeHidden 4 s

/-- `ENCODE hidden, 5` (rule R116). -/
def execEncodeHidden5 (s : State) : Host.Outcome State Fault Refusal := encodeCommand modeHidden 5 s

/-- `ENCODE hidden, 6` (rule R112). -/
def execEncodeHidden6 (s : State) : Host.Outcome State Fault Refusal := encodeCommand modeHidden 6 s

/-- `ENCODE hidden, 7` (rule R116). -/
def execEncodeHidden7 (s : State) : Host.Outcome State Fault Refusal := encodeCommand modeHidden 7 s

/-- `DECODE` (rule R113). -/
def execDecode (s : State) : Host.Outcome State Fault Refusal := decodeCommand s

end Sys2Proof.Machine
end

