-- ==== Sys2Proof/Machine/Dispatch.lean ====
section
/-! DEFINITION. One arm per command. -/

namespace Sys2Proof.Machine

def exec (i : Instr) (s : State) : Host.Outcome State Fault Refusal :=
  match i with
  | .nop => Sys2Proof.Machine.execNop s
  | .hdrputStatic8 => Sys2Proof.Machine.execHdrputStatic8 s
  | .hdrputStatic1 => Sys2Proof.Machine.execHdrputStatic1 s
  | .hdrputStatic2 => Sys2Proof.Machine.execHdrputStatic2 s
  | .hdrputStatic3 => Sys2Proof.Machine.execHdrputStatic3 s
  | .hdrputStatic4 => Sys2Proof.Machine.execHdrputStatic4 s
  | .hdrputStatic5 => Sys2Proof.Machine.execHdrputStatic5 s
  | .hdrputStatic6 => Sys2Proof.Machine.execHdrputStatic6 s
  | .hdrputStatic7 => Sys2Proof.Machine.execHdrputStatic7 s
  | .hdrputHidden8 => Sys2Proof.Machine.execHdrputHidden8 s
  | .hdrputHidden1 => Sys2Proof.Machine.execHdrputHidden1 s
  | .hdrputHidden2 => Sys2Proof.Machine.execHdrputHidden2 s
  | .hdrputHidden3 => Sys2Proof.Machine.execHdrputHidden3 s
  | .hdrputHidden4 => Sys2Proof.Machine.execHdrputHidden4 s
  | .hdrputHidden5 => Sys2Proof.Machine.execHdrputHidden5 s
  | .hdrputHidden6 => Sys2Proof.Machine.execHdrputHidden6 s
  | .hdrputHidden7 => Sys2Proof.Machine.execHdrputHidden7 s
  | .hdrget => Sys2Proof.Machine.execHdrget s
  | .pack => Sys2Proof.Machine.execPack s
  | .unpack => Sys2Proof.Machine.execUnpack s
  | .merge8 => Sys2Proof.Machine.execMerge8 s
  | .merge1 => Sys2Proof.Machine.execMerge1 s
  | .merge2 => Sys2Proof.Machine.execMerge2 s
  | .merge3 => Sys2Proof.Machine.execMerge3 s
  | .merge4 => Sys2Proof.Machine.execMerge4 s
  | .merge5 => Sys2Proof.Machine.execMerge5 s
  | .merge6 => Sys2Proof.Machine.execMerge6 s
  | .merge7 => Sys2Proof.Machine.execMerge7 s
  | .extract8 => Sys2Proof.Machine.execExtract8 s
  | .extract1 => Sys2Proof.Machine.execExtract1 s
  | .extract2 => Sys2Proof.Machine.execExtract2 s
  | .extract3 => Sys2Proof.Machine.execExtract3 s
  | .extract4 => Sys2Proof.Machine.execExtract4 s
  | .extract5 => Sys2Proof.Machine.execExtract5 s
  | .extract6 => Sys2Proof.Machine.execExtract6 s
  | .extract7 => Sys2Proof.Machine.execExtract7 s
  | .tail => Sys2Proof.Machine.execTail s
  | .encodeStatic8 => Sys2Proof.Machine.execEncodeStatic8 s
  | .encodeStatic1 => Sys2Proof.Machine.execEncodeStatic1 s
  | .encodeStatic2 => Sys2Proof.Machine.execEncodeStatic2 s
  | .encodeStatic3 => Sys2Proof.Machine.execEncodeStatic3 s
  | .encodeStatic4 => Sys2Proof.Machine.execEncodeStatic4 s
  | .encodeStatic5 => Sys2Proof.Machine.execEncodeStatic5 s
  | .encodeStatic6 => Sys2Proof.Machine.execEncodeStatic6 s
  | .encodeStatic7 => Sys2Proof.Machine.execEncodeStatic7 s
  | .encodeHidden8 => Sys2Proof.Machine.execEncodeHidden8 s
  | .encodeHidden1 => Sys2Proof.Machine.execEncodeHidden1 s
  | .encodeHidden2 => Sys2Proof.Machine.execEncodeHidden2 s
  | .encodeHidden3 => Sys2Proof.Machine.execEncodeHidden3 s
  | .encodeHidden4 => Sys2Proof.Machine.execEncodeHidden4 s
  | .encodeHidden5 => Sys2Proof.Machine.execEncodeHidden5 s
  | .encodeHidden6 => Sys2Proof.Machine.execEncodeHidden6 s
  | .encodeHidden7 => Sys2Proof.Machine.execEncodeHidden7 s
  | .decode => Sys2Proof.Machine.execDecode s

end Sys2Proof.Machine
end

