-- ==== Sys2Proof/Machine/HostPort.lean ====
section
/-! DEFINITION. The host's moves: register and buffer accesses, the write of CMD that runs a command, and reset. -/

namespace Sys2Proof.Machine

/-- The register at an offset (rules R12, R13, R15 to R18); every other offset names none. -/
def regAt (offset : Nat) : Option Reg :=
  match offset with
  | 0x00 => some .cmd
  | 0x04 => some .status
  | 0x08 => some .errinfo
  | 0x0C => some .symlen
  | 0x10 => some .carlen
  | 0x14 => some .pixlen
  | 0x18 => some .hdr
  | _ => none

/-- What a host read of a register returns (rule R13); a read of CMD returns the last word written and starts nothing
(rule R17). -/
def regRead (s : State) : Reg → Word
  | .cmd => s.cmd
  | .status => statusWord s.done s.errcode
  | .errinfo => s.errinfo
  | .symlen => s.symlen
  | .carlen => s.carlen
  | .pixlen => s.pixlen
  | .hdr => s.hdr.word

/-- A host write of a word to CMD (rule R17): CMD takes the word, which is decoded and executed, or raises
`IllegalCommand` with the whole word as its information (rule R149), all in one transition. -/
def runWord (w : Word) (s : State) : Host.Outcome State Fault Refusal :=
  let t := { s with cmd := w }
  match decode w with
  | .ok i => exec i t
  | .error _ => .next (raiseError .illegalCommand w t)

/-- A host write of a register (rule R13): the three lengths are replaced, STATUS, ERRINFO and HDR ignore it, and CMD
runs the word. -/
def regWrite (r : Reg) (v : Word) (s : State) : Host.Outcome State Fault Refusal :=
  match r with
  | .cmd => runWord v s
  | .symlen => .next { s with symlen := v }
  | .carlen => .next { s with carlen := v }
  | .pixlen => .next { s with pixlen := v }
  | .status => .next s
  | .errinfo => .next s
  | .hdr => .next s

/-- Reset, asserted and released between commands (rules R23, R170, R171): every register 0 and every cell without a
value. The sizes, and the host's own side of the run, are not state of the block and are kept (DESIGN CHOICE, log entries
1, 3 and 4). -/
def resetBlock (s : State) : State :=
  { State.resetWith s.params with pending := s.pending, readData := s.readData }

/-- Serve one move of the host (rules R13, R41, R46). What the spec says a model refuses is refused by name (log entry
8). -/
def serve (a : HostAction) (s : State) : Host.Outcome State Fault Refusal :=
  match a with
  | .readReg offset =>
    match regAt offset with
    | some r => .next { s with readData := some (regRead s r) }
    | none => .refused (.registerOffset offset)
  | .writeReg offset v =>
    match regAt offset with
    | some r => regWrite r v s
    | none => .refused (.registerOffset offset)
  | .readByte b i =>
    if i < s.size b then
      match s.byte b i with
      | some v => .next { s with readData := some (v.setWidth 32) }
      | none => .fault (.unwrittenCell b i)
    else .refused (.bufferIndex b i)
  | .writeByte b i v =>
    if i < s.size b then .next (s.setMem b (Memory.write (s.mem b) i v))
    else .refused (.bufferIndex b i)
  | .reset => .next (resetBlock s)

/-- Take the host's next move and serve it. With none pending the block waits for the next one, and nothing changes
(rules R170, R182). -/
def serveNext (s : State) : Host.Outcome State Fault Refusal :=
  match s.pending with
  | [] => .next s
  | a :: rest => serve a { s with pending := rest }

end Sys2Proof.Machine
end

