-- ==== Sys2Proof/Machine/Step.lean ====
section
/-! DEFINITION. One step: the host's next move, served as one atomic transition (rules R36, R41). -/

namespace Sys2Proof.Machine

/-- One step of the machine. -/
def step (s : State) : Host.Outcome State Fault Refusal := serveNext s

/-- The state in which the host's next move is a write of the low `nbits` bits of `w` to CMD, which is where the block
takes a command from (rules R14, R17, R44; log entry 3). -/
def State.withFetchWord (s : State) (nbits w : Nat) : State :=
  { s with pending := .writeReg 0x00 (BitVec.ofNat 32 (w % 2 ^ nbits)) :: s.pending }

end Sys2Proof.Machine
end

