-- ==== Sys2Proof/Safety.lean ====
section
/-! DEFINITION. The terms the statements use: the invariant of the machine, what a command reports, the host's duties,
and the rules of the command families written over plain arithmetic. -/

namespace Sys2Proof.Machine

/-! ## Illegal words -/

/-- A command word is illegal: the six conditions of rule R56 on the word as a number. -/
abbrev IllegalWord (w : Word) : Prop :=
  w.toNat / 4096 ≠ 0 ∨ w.toNat / 64 % 4 ≠ 0 ∨ 0xA ≤ w.toNat / 256 % 16 ∨
    (w.toNat / 256 % 16 ∈ [0x0, 0x2, 0x3, 0x4, 0x7, 0x9] ∧ (w.toNat / 8 % 8 ≠ 0 ∨ w.toNat % 8 ≠ 0)) ∨
    (w.toNat / 256 % 16 ∈ [0x5, 0x6] ∧ w.toNat / 8 % 8 ≠ 0) ∨
    (w.toNat / 256 % 16 ∈ [0x1, 0x8] ∧ w.toNat / 8 % 8 ≠ 1 ∧ w.toNat / 8 % 8 ≠ 2)

/-! ## The invariant -/

/-- Each buffer is in canonical form and lists no index at or beyond its size (rules R30, R39; log entry 2). -/
abbrev State.BuffersOk (s : State) : Prop :=
  (Memory.wf s.sym = true ∧ Memory.below s.params.symSize s.sym = true) ∧
    (Memory.wf s.car = true ∧ Memory.below s.params.carSize s.car = true) ∧
    (Memory.wf s.pix = true ∧ Memory.below s.params.pixSize s.pix = true)

/-- `ERRCODE` is 0 to 7 ("8 to 15 never occur", rule R15), and ERRINFO is 0 where it is 0 (rule R16). -/
abbrev State.ReportOk (s : State) : Prop :=
  s.errcode.toNat ≤ 7 ∧ (s.errcode = 0 → s.errinfo = 0)

/-- Before the first command since reset, the registers only commands write hold their reset values (rules R15, R23). -/
abbrev State.FreshOk (s : State) : Prop :=
  s.done = false → s.cmd = 0 ∧ s.errcode = 0 ∧ s.errinfo = 0 ∧ s.hdr = { version := 0, mode := 0, depth := 0 }

/-- The invariant every step keeps. -/
abbrev State.Inv (s : State) : Prop :=
  s.params.Legal ∧ s.BuffersOk ∧ s.ReportOk ∧ s.FreshOk

/-- The state after reset (rule R23): every register 0, every cell without a value. -/
def State.Fresh (s : State) : Prop :=
  (s.cmd = 0 ∧ s.done = false ∧ s.errcode = 0 ∧ s.errinfo = 0 ∧ s.symlen = 0 ∧ s.carlen = 0 ∧ s.pixlen = 0 ∧
    s.hdr = { version := 0, mode := 0, depth := 0 }) ∧ ∀ b a, s.byte b a = none

/-! ## What a command leaves behind -/

/-- The state a command leaves when it reports an error: the code, the information, and nothing else (rule R146). -/
def State.reported (s : State) (code info : Nat) : State :=
  { s with done := true, errcode := BitVec.ofNat 4 code, errinfo := BitVec.ofNat 32 info }

/-- The state a command leaves when it succeeds with no effect but its report (rule R50, step 4). -/
def State.completed (s : State) : State := { s with done := true, errcode := 0, errinfo := 0 }

/-- The last command succeeded: the good end of a command whose output a later action uses (rule R182). -/
abbrev State.Succeeded (s : State) : Prop := s.done = true ∧ s.errcode = 0

/-- A step or a command that goes on. -/
def Continues (o : Host.Outcome State Fault Refusal) : Prop := ∃ t, o = .next t

/-! ## What the cells hold -/

/-- The value of a cell that holds one. It stands only under a premise that the cell does. -/
def State.val (s : State) (b : Buf) (a : Nat) : Byte := (s.byte b a).getD 0

/-- Every cell of `B[lo..hi)` holds a value. -/
abbrev State.Written (s : State) (b : Buf) (lo hi : Nat) : Prop :=
  ∀ a, a < hi → lo ≤ a → s.byte b a ≠ none

/-- Every cell of `SYM[0..k)` holds a symbol: a value of at most 63. -/
abbrev State.Symbols (s : State) (k : Nat) : Prop :=
  ∀ a, a < k → s.byte .sym a ≠ none ∧ (s.val .sym a).toNat ≤ 63

/-- `SYM[a]`, below SYMLEN, is the first cell above 63, and the cells before it hold symbols (rule R144). -/
abbrev State.FirstBadSymbol (s : State) (a : Nat) : Prop :=
  a < s.n ∧ s.Symbols a ∧ s.byte .sym a ≠ none ∧ 63 < (s.val .sym a).toNat

/-- Cells of a buffer outside `B[lo..hi)` are as before. -/
abbrev SameOutside (s t : State) (b : Buf) (lo hi : Nat) : Prop :=
  ∀ a, ¬(lo ≤ a ∧ a < hi) → t.byte b a = s.byte b a

/-! ## The host's duties (rule R133) -/

/-- Commands that read SYM (rule R133). -/
def readsSym : List Instr :=
  [.pack, .merge2, .merge4, .merge6, .encodeStatic8, .encodeHidden2, .encodeHidden4, .encodeHidden6]

/-- Commands that read CAR (rule R133). -/
def readsCar : List Instr :=
  [.hdrputHidden2, .hdrputHidden4, .hdrputHidden6, .merge2, .merge4, .merge6, .tail, .encodeHidden2, .encodeHidden4,
    .encodeHidden6]

/-- Commands that read PIX (rule R133). -/
def readsPix : List Instr := [.hdrget, .unpack, .extract2, .extract4, .extract6, .decode]

/-- What the host must have written before a command: every cell, below the length register, of each buffer the command
reads (rule R133). Only cells the buffer has can be written. -/
abbrev HostDuties (i : Instr) (s : State) : Prop :=
  (i ∈ readsSym → s.Written .sym 0 (min s.n s.params.symSize)) ∧
    (i ∈ readsCar → s.Written .car 0 (min s.c s.params.carSize)) ∧
    (i ∈ readsPix → s.Written .pix 0 (min s.p s.params.pixSize))

/-! ## The check lists of the command rules, over plain numbers -/

/-- The lengths PACK and ENCODE static accept (rule R73, checks 1 to 3). -/
abbrev State.PackLengths (s : State) : Prop :=
  s.n % 4 = 0 ∧ s.n ≤ s.params.symSize ∧ 3 + 3 * s.n / 4 ≤ s.params.pixSize

/-- A command reports the checks of rule R73 in their order. -/
def ReportsPackChecks (i : Instr) : Prop :=
  (∀ s : State, s.n % 4 ≠ 0 → exec i s = .next (s.reported 4 s.n)) ∧
    (∀ s : State, s.n % 4 = 0 → s.params.symSize < s.n → exec i s = .next (s.reported 5 s.n)) ∧
    (∀ s : State, s.n % 4 = 0 → s.n ≤ s.params.symSize → s.params.pixSize < 3 + 3 * s.n / 4 →
      exec i s = .next (s.reported 5 (3 + 3 * s.n / 4))) ∧
    (∀ (s : State) (a : Nat), s.PackLengths → s.FirstBadSymbol a → exec i s = .next (s.reported 3 a))

/-- The payload region of PIX holds the packed quads of SYM (rule R70). -/
def PayloadPacked (s t : State) : Prop :=
  ∀ g, g < s.n / 4 →
    t.byte .pix (3 + 3 * g) = some ((s.val .sym (4 * g) <<< 2) ||| (s.val .sym (4 * g + 1) >>> 4)) ∧
    t.byte .pix (3 + 3 * g + 1) =
      some (((s.val .sym (4 * g + 1) &&& 0xF) <<< 4) ||| (s.val .sym (4 * g + 2) >>> 2)) ∧
    t.byte .pix (3 + 3 * g + 2) =
      some (((s.val .sym (4 * g + 2) &&& 0x3) <<< 6) ||| s.val .sym (4 * g + 3))

/-- The lengths UNPACK accepts (rule R74, checks 1 to 3), and EXTRACT.d with `k` symbols a triple (rule R97). -/
abbrev State.PixLengths (s : State) (k : Nat) : Prop :=
  (3 ≤ s.p ∧ (s.p - 3) % 3 = 0) ∧ s.p ≤ s.params.pixSize ∧ k * (s.p - 3) / 3 ≤ s.params.symSize

/-- A command reports the checks of rule R74 (`k = 4`) or of rule R97 (`k` symbols a triple) in their order. -/
def ReportsPixChecks (i : Instr) (k : Nat) : Prop :=
  (∀ s : State, ¬(3 ≤ s.p ∧ (s.p - 3) % 3 = 0) → exec i s = .next (s.reported 4 s.p)) ∧
    (∀ s : State, 3 ≤ s.p ∧ (s.p - 3) % 3 = 0 → s.params.pixSize < s.p → exec i s = .next (s.reported 5 s.p)) ∧
    (∀ s : State, 3 ≤ s.p ∧ (s.p - 3) % 3 = 0 → s.p ≤ s.params.pixSize → s.params.symSize < k * (s.p - 3) / 3 →
      exec i s = .next (s.reported 5 (k * (s.p - 3) / 3)))

/-- The lengths MERGE.d and ENCODE hidden accept (rule R96, checks 2 to 7), for the alignment and the required number
of carrier bytes of a depth. -/
abbrev State.MergeLengths (s : State) (align need : Nat) : Prop :=
  s.n % align = 0 ∧ s.c % 3 = 0 ∧ s.n ≤ s.params.symSize ∧ s.c ≤ s.params.carSize ∧ s.c ≤ s.params.pixSize ∧ need ≤ s.c

/-- A command reports checks 2 to 8 of rule R96 in their order, for the alignment and the required number of carrier
bytes of a depth. (At depth 2, whose alignment is 1, check 2 cannot fail.) -/
def ReportsMergeChecks (i : Instr) (align : Nat) (need : State → Nat) : Prop :=
  (∀ s : State, s.n % align ≠ 0 → exec i s = .next (s.reported 4 s.n)) ∧
    (∀ s : State, s.n % align = 0 → s.c % 3 ≠ 0 → exec i s = .next (s.reported 4 s.c)) ∧
    (∀ s : State, s.n % align = 0 → s.c % 3 = 0 → s.params.symSize < s.n → exec i s = .next (s.reported 5 s.n)) ∧
    (∀ s : State, s.n % align = 0 → s.c % 3 = 0 → s.n ≤ s.params.symSize →
      (s.params.carSize < s.c ∨ s.params.pixSize < s.c) → exec i s = .next (s.reported 5 s.c)) ∧
    (∀ s : State, s.n % align = 0 → s.c % 3 = 0 → s.n ≤ s.params.symSize → s.c ≤ s.params.carSize →
      s.c ≤ s.params.pixSize → s.c < need s → exec i s = .next (s.reported 1 (need s))) ∧
    (∀ (s : State) (a : Nat), s.MergeLengths align (need s) → s.FirstBadSymbol a →
      exec i s = .next (s.reported 3 a))

/-! ## The groups of a triple, as rules R82, R83 and R85 give them: symbol values of the triple, then channel -/

/-- Depth 2 (rule R85). -/
def groupTwo (sym : Nat → Byte) (channel : Nat) : Byte :=
  if channel = 0 then sym 0 >>> 4 else if channel = 1 then (sym 0 >>> 2) &&& 0x3 else sym 0 &&& 0x3

/-- Depth 4 (rule R83). -/
def groupFour (sym : Nat → Byte) (channel : Nat) : Byte :=
  if channel = 0 then sym 0 >>> 2
  else if channel = 1 then ((sym 0 &&& 0x3) <<< 2) ||| (sym 1 >>> 4)
  else sym 1 &&& 0xF

/-- Depth 6 (rule R82). -/
def groupSix (sym : Nat → Byte) (channel : Nat) : Byte := sym channel

/-- The payload region of PIX holds the merge of SYM into the carrier, `k` symbols a triple (rule R86). -/
def PayloadMerged (s t : State) (k : Nat) (hi : Byte) (group : (Nat → Byte) → Nat → Byte) : Prop :=
  ∀ q j, q < s.n / k → j < 3 → t.byte .pix (3 + 3 * q + j) =
    some ((s.val .car (3 + 3 * q + j) &&& hi) ||| group (fun x => s.val .sym (k * q + x)) j)

/-- A command is MERGE at a depth (rules R89, R90, R91): its word, its checks, and, where they pass and the cells it
reads hold values, its success, its payload, and nothing else changed. -/
def MergesAtDepth (i : Instr) (w : Word) (k : Nat) (hi : Byte) (need : State → Nat)
    (group : (Nat → Byte) → Nat → Byte) : Prop :=
  encode i = w ∧ ReportsMergeChecks i k need ∧
    ∀ s : State, s.MergeLengths k (need s) → s.Symbols s.n → s.Written .car 3 (need s) →
      ∃ t, exec i s = .next t ∧
        t = { s.completed with pix := t.pix, pixlen := BitVec.ofNat 32 (need s) } ∧
        PayloadMerged s t k hi group ∧ SameOutside s t .pix 3 (need s)

/-- A command is ENCODE hidden at a depth (rule R112): its word, its checks, and, where they pass and the cells it reads
hold values, its success, the blended header, the payload, the tail, and nothing else changed. -/
def EncodesAtDepth (i : Instr) (w : Word) (code : Byte) (k : Nat) (hi : Byte) (need : State → Nat)
    (group : (Nat → Byte) → Nat → Byte) : Prop :=
  encode i = w ∧ ReportsMergeChecks i k need ∧
    ∀ s : State, s.MergeLengths k (need s) → s.Symbols s.n → s.Written .car 0 s.c →
      ∃ t, exec i s = .next t ∧
        t = { s.completed with pix := t.pix, pixlen := s.carlen } ∧
        t.byte .pix 0 = some ((s.val .car 0 &&& 0xF8) ||| 2) ∧
        t.byte .pix 1 = some ((s.val .car 1 &&& 0xF8) ||| code) ∧
        t.byte .pix 2 = some ((s.val .car 2 &&& 0xF8) ||| 1) ∧
        PayloadMerged s t k hi group ∧
        (∀ a, need s ≤ a → a < s.c → t.byte .pix a = some (s.val .car a &&& 0xFC)) ∧
        SameOutside s t .pix 0 s.c

/-! ## What the extractor gives back (rules R74, R92, R93, R94), by the bytes of a triple and the symbol's place -/

/-- Static unpacking of a triple (rule R71). -/
def symbolStatic (b : Nat → Byte) (x : Nat) : Byte :=
  if x = 0 then b 0 >>> 2
  else if x = 1 then ((b 0 &&& 3) <<< 4) ||| (b 1 >>> 4)
  else if x = 2 then ((b 1 &&& 0xF) <<< 2) ||| (b 2 >>> 6)
  else b 2 &&& 0x3F

/-- Depth 2 (rule R92). -/
def symbolTwo (b : Nat → Byte) (_x : Nat) : Byte := ((b 0 &&& 0x3) <<< 4) ||| ((b 1 &&& 0x3) <<< 2) ||| (b 2 &&& 0x3)

/-- Depth 4 (rule R93). -/
def symbolFour (b : Nat → Byte) (x : Nat) : Byte :=
  if x = 0 then ((b 0 &&& 0xF) <<< 2) ||| ((b 1 &&& 0xF) >>> 2)
  else (((b 1 &&& 0xF) &&& 0x3) <<< 4) ||| (b 2 &&& 0xF)

/-- Depth 6 (rule R94). -/
def symbolSix (b : Nat → Byte) (x : Nat) : Byte := b x &&& 0x3F

/-- SYM holds what the triples of `PIX[3..p)` give, `k` symbols a triple. -/
def SymbolsExtracted (s t : State) (k : Nat) (symbol : (Nat → Byte) → Nat → Byte) : Prop :=
  ∀ q x, q < (s.p - 3) / 3 → x < k →
    t.byte .sym (k * q + x) = some (symbol (fun j => s.val .pix (3 + 3 * q + j)) x)

/-- A command is UNPACK or EXTRACT at a depth (rules R74, R92, R93, R94): its word, its checks, and, where they pass and
the cells it reads hold values, its success, its symbols, and nothing else changed. -/
def ExtractsAtDepth (i : Instr) (w : Word) (k : Nat) (symbol : (Nat → Byte) → Nat → Byte) : Prop :=
  encode i = w ∧ ReportsPixChecks i k ∧
    ∀ s : State, s.PixLengths k → s.Written .pix 3 s.p →
      ∃ t, exec i s = .next t ∧
        t = { s.completed with sym := t.sym, symlen := BitVec.ofNat 32 (k * (s.p - 3) / 3) } ∧
        SymbolsExtracted s t k symbol ∧ SameOutside s t .sym 0 (k * (s.p - 3) / 3)

/-! ## The header a PIX buffer holds (rule R102) -/

/-- The low three bits of a cell, as a number. -/
def State.low3 (s : State) (a : Nat) : Nat := (s.val .pix a).toNat % 8

/-- The nine header bits `{version, mode, depth code}` of `PIX[0..3)` (rules R102, R113). -/
def State.headerBits (s : State) : Nat := s.low3 2 * 64 + s.low3 0 * 8 + s.low3 1

/-- The header of `PIX[0..3)` in HDR's layout (rule R18). -/
def State.headerOf (s : State) : Hdr :=
  { version := BitVec.ofNat 3 (s.low3 2), mode := BitVec.ofNat 3 (s.low3 0), depth := BitVec.ofNat 3 (s.low3 1) }

/-- DECODE's first checks pass, for a header of a mode and a depth code (rule R113, checks 1 to 3). -/
abbrev State.HeaderIs (s : State) (mode depth : Nat) : Prop :=
  s.params.Legal ∧ 3 ≤ s.p ∧ s.Written .pix 0 3 ∧ s.low3 2 = 1 ∧ s.low3 0 = mode ∧ s.low3 1 = depth

/-- DECODE at a legal header works as UNPACK or EXTRACT.d does, and stores the header (rule R113, check 5 and effect). -/
def DecodesAtDepth (mode depth k : Nat) (symbol : (Nat → Byte) → Nat → Byte) : Prop :=
  (∀ s : State, s.HeaderIs mode depth → (s.p - 3) % 3 ≠ 0 → exec .decode s = .next (s.reported 4 s.p)) ∧
    (∀ s : State, s.HeaderIs mode depth → (s.p - 3) % 3 = 0 → s.params.pixSize < s.p →
      exec .decode s = .next (s.reported 5 s.p)) ∧
    (∀ s : State, s.HeaderIs mode depth → (s.p - 3) % 3 = 0 → s.p ≤ s.params.pixSize →
      s.params.symSize < k * (s.p - 3) / 3 → exec .decode s = .next (s.reported 5 (k * (s.p - 3) / 3))) ∧
    (∀ s : State, s.HeaderIs mode depth → s.PixLengths k → s.Written .pix 3 s.p →
      ∃ t, exec .decode s = .next t ∧
        t = { s.completed with sym := t.sym, symlen := BitVec.ofNat 32 (k * (s.p - 3) / 3), hdr := s.headerOf } ∧
        SymbolsExtracted s t k symbol ∧ SameOutside s t .sym 0 (k * (s.p - 3) / 3))

end Sys2Proof.Machine
end

