-- ==== Sys2Proof/Certificates/Slice0/Obligations.lean ====
section
/-! DEFINITION. The statements for the provers, from the numbered rules of the spec. -/

open Sys2Proof Sys2Proof.Machine

/-! ## Words and steps -/

/-- Rules R55, R63: on all 2^32 words, the decoder answers a command exactly for the command's own word, so no bit is
dropped and no second word means the same. -/
def Obligations.DecodeIsInverseOfEncode : Prop :=
  ∀ (w : Word) (i : Instr), decode w = .ok i ↔ w = encode i

/-- Rules R17, R56, R146 and R149: a word that meets any of the six conditions, written to CMD, stays there and raises
`IllegalCommand` with itself as the information, and has no other effect. That the write is a move taken off the list
`pending` is the model's choice (log entry 3). -/
def Obligations.IllegalWordsRaiseIllegalCommand : Prop :=
  ∀ (s : State) (w : Word) (rest : List HostAction), IllegalWord w → s.pending = .writeReg 0x00 w :: rest →
    step s = .next { s with pending := rest, cmd := w, done := true, errcode := 7, errinfo := w }

/-- Rules R56, R58: the words that are not illegal are exactly the words of the opcode table. -/
def Obligations.EveryOtherWordIsATableWord : Prop :=
  ∀ w : Word, ¬IllegalWord w ↔ ∃ i, w = encode i

/-- Rule R17: where the host's next move writes to CMD a word that decodes to a command, the step is that command's
meaning, run with CMD holding the word and the move taken off the list. -/
def Obligations.StepRunsTheDecodedCommand : Prop :=
  ∀ (s : State) (w : Word) (i : Instr) (rest : List HostAction), s.pending = .writeReg 0x00 w :: rest →
    decode w = .ok i → step s = exec i { s with pending := rest, cmd := w }

/-- Rule R182: with no host move pending the block waits, and a step changes nothing. That a wait is a step of its own
is the model's choice (log entry 3). -/
def Obligations.StepWaitsWithNothingPending : Prop :=
  ∀ s : State, s.pending = [] → step s = .next s

/-- Rule R55: some words, written out from their fields, decode to the commands they stand for. -/
def Obligations.SampleWordsDecode : Prop :=
  decode 0x00000000#32 = .ok .nop ∧ decode 0x00000112#32 = .ok .hdrputHidden2 ∧ decode 0x00000200#32 = .ok .hdrget ∧
    decode 0x00000300#32 = .ok .pack ∧ decode 0x00000400#32 = .ok .unpack ∧ decode 0x00000504#32 = .ok .merge4 ∧
    decode 0x00000606#32 = .ok .extract6 ∧ decode 0x00000700#32 = .ok .tail ∧
    decode 0x00000808#32 = .ok .encodeStatic8 ∧ decode 0x00000813#32 = .ok .encodeHidden3 ∧
    decode 0x00000900#32 = .ok .decode

/-! ## The host's moves -/

/-- Rule R13 with the layouts of rules R15 and R18: what a read of each of the seven registers answers; what a write of
each does; and that every other offset is refused. That each access is a move taken off the list `pending`, and that
the answer to a read stands in `readData`, are the model's choices (log entries 3 and 4). -/
def Obligations.HostRegisterAccess : Prop :=
  (∀ (s : State) (rest : List HostAction) (x : Nat × Word),
    x ∈ [(0x00, s.cmd), (0x04, BitVec.ofNat 32 (s.done.toNat * 128 + s.errcode.toNat)), (0x08, s.errinfo),
        (0x0C, s.symlen), (0x10, s.carlen), (0x14, s.pixlen),
        (0x18, BitVec.ofNat 32 (s.hdr.version.toNat * 64 + s.hdr.mode.toNat * 8 + s.hdr.depth.toNat))] →
      s.pending = .readReg x.1 :: rest → step s = .next { s with pending := rest, readData := some x.2 }) ∧
    (∀ (s : State) (rest : List HostAction) (v : Word),
      (s.pending = .writeReg 0x0C v :: rest → step s = .next { s with pending := rest, symlen := v }) ∧
      (s.pending = .writeReg 0x10 v :: rest → step s = .next { s with pending := rest, carlen := v }) ∧
      (s.pending = .writeReg 0x14 v :: rest → step s = .next { s with pending := rest, pixlen := v }) ∧
      (∀ x ∈ [0x04, 0x08, 0x18], s.pending = .writeReg x v :: rest → step s = .next { s with pending := rest }) ∧
      (∀ i, s.pending = .writeReg 0x00 (encode i) :: rest →
        step s = exec i { s with pending := rest, cmd := encode i })) ∧
    (∀ (s : State) (rest : List HostAction) (v : Word) (x : Nat),
      x ∉ [0x00, 0x04, 0x08, 0x0C, 0x10, 0x14, 0x18] →
      (s.pending = .readReg x :: rest → step s = .refused (.registerOffset x)) ∧
      (s.pending = .writeReg x v :: rest → step s = .refused (.registerOffset x)))

/-- Rules R30, R41, R46 and U9: a byte written by the host is in its cell and nowhere else, and is what a read answers;
an index at or beyond the buffer's size is refused. That a read of a cell without a value stops, that each
access is a move taken off the list `pending`, and that the answer to a read stands in `readData`, are the model's
choices (log entries 2, 3 and 4). -/
def Obligations.HostByteAccess : Prop :=
  ∀ (s : State) (rest : List HostAction) (b : Buf) (a : Nat) (v : Byte),
    (a < s.size b → s.pending = .writeByte b a v :: rest →
      ∃ t, step s = .next t ∧ t.byte b a = some v ∧ (∀ b' x, (b', x) ≠ (b, a) → t.byte b' x = s.byte b' x) ∧
        t = { s with pending := rest, sym := t.sym, car := t.car, pix := t.pix }) ∧
    (a < s.size b → s.byte b a = some v → s.pending = .readByte b a :: rest →
      step s = .next { s with pending := rest, readData := some (v.setWidth 32) }) ∧
    (a < s.size b → s.byte b a = none → s.pending = .readByte b a :: rest →
      step s = .fault (.unwrittenCell b a)) ∧
    (s.size b ≤ a → s.pending = .writeByte b a v :: rest → step s = .refused (.bufferIndex b a)) ∧
    (s.size b ≤ a → s.pending = .readByte b a :: rest → step s = .refused (.bufferIndex b a))

/-- Rule R23, at the model's reset state and after the host's reset (rule R170): every register is 0 and every cell
holds no value. -/
def Obligations.ResetClearsRegistersAndCells : Prop :=
  State.reset.Fresh ∧ ∀ (s : State) (rest : List HostAction), s.pending = .reset :: rest →
    ∃ t, step s = .next t ∧ t.Fresh

/-- The host's reset keeps the sizes and the host's own side of the run: the model's choice (log entries 1, 3 and 4). -/
def Obligations.ResetKeepsTheHostsSide : Prop :=
  ∀ (s : State) (rest : List HostAction), s.pending = .reset :: rest →
    ∃ t, step s = .next t ∧ t.params = s.params ∧ t.pending = rest ∧ t.readData = s.readData

/-! ## The commands -/

/-- Rule R110. -/
def Obligations.NopOnlyReportsSuccess : Prop :=
  encode .nop = 0x00000000#32 ∧ ∀ s : State, exec .nop s = .next s.completed

/-- Rule R88: MERGE and EXTRACT at depth codes 0, 1, 3, 5 and 7 raise `NotSupportedError` with the low six bits of the
word, and nothing else changes. -/
def Obligations.MergeAndExtractRefuseOtherDepths : Prop :=
  ∀ i ∈ [Instr.merge8, .merge1, .merge3, .merge5, .merge7, .extract8, .extract1, .extract3, .extract5, .extract7],
    ∀ s : State, exec i s = .next (s.reported 2 ((encode i).toNat % 64))

/-- Rule R116: ENCODE at a pair that is not legal raises `NotSupportedError` with the low six bits of the word, whatever
the lengths, and nothing else changes. -/
def Obligations.EncodeRefusesOtherPairs : Prop :=
  ∀ i ∈ [Instr.encodeStatic1, .encodeStatic2, .encodeStatic3, .encodeStatic4, .encodeStatic5, .encodeStatic6,
      .encodeStatic7, .encodeHidden8, .encodeHidden1, .encodeHidden3, .encodeHidden5, .encodeHidden7],
    ∀ s : State, exec i s = .next (s.reported 2 ((encode i).toNat % 64))

/-- Rule R103: HDRPUT's refused pairs, its two errors in hidden mode, the three header bytes it writes in each mode, and
nothing else changed. -/
def Obligations.HdrputFollowsItsRule : Prop :=
  (∀ i ∈ [Instr.hdrputStatic1, .hdrputStatic2, .hdrputStatic3, .hdrputStatic4, .hdrputStatic5, .hdrputStatic6,
      .hdrputStatic7, .hdrputHidden8, .hdrputHidden1, .hdrputHidden3, .hdrputHidden5, .hdrputHidden7],
    ∀ s : State, exec i s = .next (s.reported 2 ((encode i).toNat % 64))) ∧
  (encode .hdrputStatic8 = 0x00000108#32 ∧ ∀ s : State, s.params.Legal →
    ∃ t, exec .hdrputStatic8 s = .next t ∧ t = { s.completed with pix := t.pix } ∧ t.byte .pix 0 = some 1 ∧
      t.byte .pix 1 = some 0 ∧ t.byte .pix 2 = some 1 ∧ SameOutside s t .pix 0 3) ∧
  ∀ x ∈ [(Instr.hdrputHidden2, 0x00000112#32, 2#8), (.hdrputHidden4, 0x00000114#32, 4#8),
      (.hdrputHidden6, 0x00000116#32, 6#8)],
    encode x.1 = x.2.1 ∧
      (∀ s : State, s.params.carSize < s.c → exec x.1 s = .next (s.reported 5 s.c)) ∧
      (∀ s : State, s.c ≤ s.params.carSize → s.c < 3 → exec x.1 s = .next (s.reported 1 3)) ∧
      (∀ s : State, s.params.Legal → s.c ≤ s.params.carSize → 3 ≤ s.c → s.Written .car 0 3 →
        ∃ t, exec x.1 s = .next t ∧ t = { s.completed with pix := t.pix } ∧
          t.byte .pix 0 = some ((s.val .car 0 &&& 0xF8) ||| 2) ∧
          t.byte .pix 1 = some ((s.val .car 1 &&& 0xF8) ||| x.2.2) ∧
          t.byte .pix 2 = some ((s.val .car 2 &&& 0xF8) ||| 1) ∧ SameOutside s t .pix 0 3)

/-- Rule R104: HDRGET's one error, and the fields it stores as read, whatever they are. -/
def Obligations.HdrgetFollowsItsRule : Prop :=
  encode .hdrget = 0x00000200#32 ∧
    (∀ s : State, s.p < 3 → exec .hdrget s = .next (s.reported 4 s.p)) ∧
    ∀ s : State, s.params.Legal → 3 ≤ s.p → s.Written .pix 0 3 →
      exec .hdrget s = .next { s.completed with hdr := s.headerOf }

/-- Rule R73: PACK's word, its four checks in their order, and, where they pass, the packed bytes at index 3 on, PIXLEN,
and nothing else changed. -/
def Obligations.PackFollowsItsRule : Prop :=
  encode .pack = 0x00000300#32 ∧ ReportsPackChecks .pack ∧
    ∀ s : State, s.PackLengths → s.Symbols s.n →
      ∃ t, exec .pack s = .next t ∧
        t = { s.completed with pix := t.pix, pixlen := BitVec.ofNat 32 (3 + 3 * s.n / 4) } ∧
        PayloadPacked s t ∧ SameOutside s t .pix 3 (3 + 3 * s.n / 4)

/-- Rule R74: UNPACK's word, its three checks in their order, and, where they pass, the symbols at index 0 on, SYMLEN,
and nothing else changed. -/
def Obligations.UnpackFollowsItsRule : Prop :=
  ExtractsAtDepth .unpack 0x00000400#32 4 symbolStatic

/-- Rule R89 with the checks of rule R96 at depth 2. -/
def Obligations.MergeTwoFollowsItsRule : Prop :=
  MergesAtDepth .merge2 0x00000502#32 1 0xFC (fun s => 3 + 3 * s.n) groupTwo

/-- Rule R90 with the checks of rule R96 at depth 4. -/
def Obligations.MergeFourFollowsItsRule : Prop :=
  MergesAtDepth .merge4 0x00000504#32 2 0xF0 (fun s => 3 + 3 * s.n / 2) groupFour

/-- Rule R91 with the checks of rule R96 at depth 6. -/
def Obligations.MergeSixFollowsItsRule : Prop :=
  MergesAtDepth .merge6 0x00000506#32 3 0xC0 (fun s => 3 + s.n) groupSix

/-- Rule R92 with the checks of rule R97 at depth 2. -/
def Obligations.ExtractTwoFollowsItsRule : Prop :=
  ExtractsAtDepth .extract2 0x00000602#32 1 symbolTwo

/-- Rule R93 with the checks of rule R97 at depth 4. -/
def Obligations.ExtractFourFollowsItsRule : Prop :=
  ExtractsAtDepth .extract4 0x00000604#32 2 symbolFour

/-- Rule R94 with the checks of rule R97 at depth 6. -/
def Obligations.ExtractSixFollowsItsRule : Prop :=
  ExtractsAtDepth .extract6 0x00000606#32 3 symbolSix

/-- Rule R95: TAIL's word, its four checks in their order, the carrier bytes from PIXLEN on with the low two bits
cleared, PIXLEN, and nothing else changed. -/
def Obligations.TailFollowsItsRule : Prop :=
  encode .tail = 0x00000700#32 ∧
    (∀ s : State, s.c % 3 ≠ 0 → exec .tail s = .next (s.reported 4 s.c)) ∧
    (∀ s : State, s.c % 3 = 0 → (s.p < 3 ∨ s.c < s.p) → exec .tail s = .next (s.reported 4 s.p)) ∧
    (∀ s : State, s.c % 3 = 0 → 3 ≤ s.p → s.p ≤ s.c → (s.params.carSize < s.c ∨ s.params.pixSize < s.c) →
      exec .tail s = .next (s.reported 5 s.c)) ∧
    ∀ s : State, s.c % 3 = 0 → 3 ≤ s.p → s.p ≤ s.c → s.c ≤ s.params.carSize → s.c ≤ s.params.pixSize →
      s.Written .car s.p s.c →
      ∃ t, exec .tail s = .next t ∧ t = { s.completed with pix := t.pix, pixlen := s.carlen } ∧
        (∀ a, s.p ≤ a → a < s.c → t.byte .pix a = some (s.val .car a &&& 0xFC)) ∧
        SameOutside s t .pix s.p s.c

/-- Rule R111: ENCODE static's word, the checks of PACK, the tag as a pixel of its own, the packed bytes, PIXLEN, and
nothing else changed. -/
def Obligations.EncodeStaticFollowsItsRule : Prop :=
  encode .encodeStatic8 = 0x00000808#32 ∧ ReportsPackChecks .encodeStatic8 ∧
    ∀ s : State, s.PackLengths → s.Symbols s.n →
      ∃ t, exec .encodeStatic8 s = .next t ∧
        t = { s.completed with pix := t.pix, pixlen := BitVec.ofNat 32 (3 + 3 * s.n / 4) } ∧
        t.byte .pix 0 = some 1 ∧ t.byte .pix 1 = some 0 ∧ t.byte .pix 2 = some 1 ∧
        PayloadPacked s t ∧ SameOutside s t .pix 0 (3 + 3 * s.n / 4)

/-- Rule R112, at each of its three depths: ENCODE hidden's word, the checks of MERGE.d, the blended header, the merged
payload, the tail, PIXLEN, and nothing else changed. -/
def Obligations.EncodeHiddenFollowsItsRule : Prop :=
  EncodesAtDepth .encodeHidden2 0x00000812#32 2 1 0xFC (fun s => 3 + 3 * s.n) groupTwo ∧
    EncodesAtDepth .encodeHidden4 0x00000814#32 4 2 0xF0 (fun s => 3 + 3 * s.n / 2) groupFour ∧
    EncodesAtDepth .encodeHidden6 0x00000816#32 6 3 0xC0 (fun s => 3 + s.n) groupSix

/-- Rule R113: DECODE's word, its header checks in their order, and, for each legal header, the checks and the effect of
UNPACK or EXTRACT.d with the header stored in HDR. -/
def Obligations.DecodeFollowsItsRule : Prop :=
  encode .decode = 0x00000900#32 ∧
    (∀ s : State, s.p < 3 → exec .decode s = .next (s.reported 4 s.p)) ∧
    (∀ s : State, s.params.Legal → 3 ≤ s.p → s.Written .pix 0 3 →
      (s.low3 2 ≠ 1 ∨ (s.low3 0 ≠ 1 ∧ s.low3 0 ≠ 2)) → exec .decode s = .next (s.reported 6 s.headerBits)) ∧
    (∀ s : State, s.params.Legal → 3 ≤ s.p → s.Written .pix 0 3 → s.low3 2 = 1 →
      ((s.low3 0 = 1 ∧ s.low3 1 ≠ 0) ∨ (s.low3 0 = 2 ∧ s.low3 1 ≠ 2 ∧ s.low3 1 ≠ 4 ∧ s.low3 1 ≠ 6)) →
      exec .decode s = .next (s.reported 2 (s.headerBits % 64))) ∧
    DecodesAtDepth 1 0 4 symbolStatic ∧ DecodesAtDepth 2 2 1 symbolTwo ∧ DecodesAtDepth 2 4 2 symbolFour ∧
    DecodesAtDepth 2 6 3 symbolSix

/-! ## The datapath -/

/-- Rule R72: `pack4` and `unpack3` are inverse to each other, so `pack4` is a bijection from quads of symbols onto
triples of bytes. -/
def Obligations.QuadsAndTriplesAreInBijection : Prop :=
  (∀ s0 s1 s2 s3 : Byte, s0.toNat ≤ 63 → s1.toNat ≤ 63 → s2.toNat ≤ 63 → s3.toNat ≤ 63 →
    unpack3 (pack4 s0 s1 s2 s3).1 (pack4 s0 s1 s2 s3).2.1 (pack4 s0 s1 s2 s3).2.2 = (s0, s1, s2, s3)) ∧
  (∀ b0 b1 b2 : Byte,
    pack4 (unpack3 b0 b1 b2).1 (unpack3 b0 b1 b2).2.1 (unpack3 b0 b1 b2).2.2.1 (unpack3 b0 b1 b2).2.2.2 =
      (b0, b1, b2)) ∧
  ∀ b : Byte × Byte × Byte, ∃! q : Byte × Byte × Byte × Byte,
    (q.1.toNat ≤ 63 ∧ q.2.1.toNat ≤ 63 ∧ q.2.2.1.toNat ≤ 63 ∧ q.2.2.2.toNat ≤ 63) ∧
      pack4 q.1 q.2.1 q.2.2.1 q.2.2.2 = b

/-- Rule R87, over payloads of any number of triples: (a) extraction inverts merging, (b) the carrier's high bits are
untouched, (c) splitting and joining are inverse, (d) every extracted symbol is at most 63. -/
def Obligations.MergeAndExtractLaws : Prop :=
  ∀ d : Depth,
    (∀ carrier symbols : List Byte, (∀ v ∈ symbols, v.toNat ≤ 63) → symbols.length % d.align = 0 →
      carrier.length = d.payload symbols.length →
        extractAll d (mergeAll d carrier symbols) = symbols ∧
        (mergeAll d carrier symbols).map (fun b => b &&& d.hi) = carrier.map (fun b => b &&& d.hi)) ∧
    (∀ symbols : List Byte, (∀ v ∈ symbols, v.toNat ≤ 63) → symbols.length % d.align = 0 →
      joinAll d (splitAll d symbols) = symbols) ∧
    (∀ groups : List Byte, (∀ g ∈ groups, g.toNat < 2 ^ d.bits) → groups.length % 3 = 0 →
      splitAll d (joinAll d groups) = groups) ∧
    ∀ bytes : List Byte, ∀ v ∈ extractAll d bytes, v.toNat ≤ 63

/-- Rule R105: the unpacker inverts the packer in both modes, the blend keeps the carrier's top five bits, and the
static header's bits 7:3 are zero. -/
def Obligations.HeaderLaws : Prop :=
  (∀ (c : Byte) (t : BitVec 3), blend c (tagByte t) &&& 7 = tagByte t ∧ blend c (tagByte t) &&& 0xF8 = c &&& 0xF8) ∧
  (∀ (c0 c1 c2 : Byte) (m d : BitVec 3),
    headerFields (blend c0 (tagByte m)) (blend c1 (tagByte d)) (blend c2 (tagByte Config.formatVersion)) =
      { version := 1, mode := m, depth := d } ∧
    headerFields (tagByte m) (tagByte d) (tagByte Config.formatVersion) =
      { version := 1, mode := m, depth := d }) ∧
  ∀ m d : BitVec 3, ∀ t ∈ tag m d, t &&& 0xF8 = 0

/-- Rule R84: the carrier bytes required at each depth; the payload part is a multiple of 3 and is `n*6/d` exactly. -/
def Obligations.RequiredCarrierBytes : Prop :=
  ∀ n : Nat, Depth.two.required n = 3 + 3 * n ∧ Depth.four.required n = 3 + 3 * n / 2 ∧ Depth.six.required n = 3 + n ∧
    ∀ d : Depth, n % d.align = 0 → d.required n % 3 = 0 ∧ (d.required n - 3) * d.bits = n * 6

/-! ## The whole machine -/

/-- Every step keeps the invariant: sizes within rule R5, buffers in canonical form and within their sizes, `ERRCODE` at
most 7, ERRINFO 0 after a success, and reset values before the first command. That the sizes are in the state and the
form of the buffers are the model's choices (log entries 1 and 2). -/
def Obligations.EveryStepKeepsTheInvariant : Prop :=
  ∀ s t : State, s.Inv → step s = .next t → t.Inv

/-- The invariant holds at reset, for every choice of sizes; those of `State.reset` are the model's choice (log
entry 1). -/
def Obligations.ResetMeetsTheInvariant : Prop :=
  State.reset.Inv ∧ ∀ p : Params, p.Legal → (State.resetWith p).Inv

/-- Rule R39: no command accesses a cell at or beyond its buffer's size. With sizes within rule R5, the one way a
command can stop is at a cell within its buffer that holds no value, and no command is refused. That such a cell stops
the command is the model's choice (log entry 2). -/
def Obligations.OnlyUnwrittenCellsStopACommand : Prop :=
  ∀ (i : Instr) (s : State), s.params.Legal →
    (∀ f, exec i s = .fault f → ∃ b a, f = .unwrittenCell b a ∧ a < s.size b ∧ s.byte b a = none) ∧
    ∀ r, exec i s ≠ .refused r

/-- Rule R133: with the host's duties met, every command goes on. (That a command could stop at all, at a cell without a
value, is the model's choice, log entry 2.) -/
def Obligations.HostDutiesPreventStops : Prop :=
  ∀ (i : Instr) (s : State), s.params.Legal → HostDuties i s → Continues (exec i s)

/-- Rules R146, R153: after an error, nothing but STATUS and ERRINFO has changed. -/
def Obligations.ErrorsChangeNothingButTheReport : Prop :=
  ∀ (i : Instr) (s t : State), exec i s = .next t → t.errcode ≠ 0 →
    t = { s with done := true, errcode := t.errcode, errinfo := t.errinfo }

/-- Rules R15, R16, R140: every command sets DONE, and reports either success, with ERRINFO 0, or one error of codes 1
to 6. -/
def Obligations.EveryCommandReportsItsOutcome : Prop :=
  ∀ (i : Instr) (s t : State), exec i s = .next t →
    t.done = true ∧ ((t.errcode = 0 ∧ t.errinfo = 0) ∨ (1 ≤ t.errcode.toNat ∧ t.errcode.toNat ≤ 6))

/-- Rule R32: the engine never writes CAR (no command does, and a step that changes it serves the host's own write or
its reset), and the host may write it. -/
def Obligations.CarrierIsWrittenOnlyByTheHost : Prop :=
  (∀ (i : Instr) (s t : State), exec i s = .next t → t.car = s.car) ∧
    (∀ s t : State, step s = .next t → t.car ≠ s.car →
      ∃ a rest, s.pending = a :: rest ∧ (a = .reset ∨ ∃ x v, a = .writeByte .car x v)) ∧
    ∀ (s : State) (a : Nat) (v : Byte) (rest : List HostAction), s.pending = .writeByte .car a v :: rest →
      a < s.params.carSize → ∃ t, step s = .next t ∧ t.byte .car a = some v

/-- Rule R31: the engine never writes a SYM cell with bits 7:6 set. -/
def Obligations.EngineWritesOnlySymbols : Prop :=
  ∀ (i : Instr) (s t : State), exec i s = .next t →
    ∀ a v, t.byte .sym a = some v → s.byte .sym a = some v ∨ v.toNat ≤ 63

/-- The "written by" columns of rules R12, R18 and R30, over all commands: which of them can change SYM and SYMLEN, PIX,
PIXLEN and HDR; and what no command changes. -/
def Obligations.CommandsWriteOnlyTheirOutputs : Prop :=
  ∀ (i : Instr) (s t : State), exec i s = .next t →
    (i ∉ [.unpack, .extract2, .extract4, .extract6, .decode] → t.sym = s.sym ∧ t.symlen = s.symlen) ∧
    (i ∉ [.hdrputStatic8, .hdrputHidden2, .hdrputHidden4, .hdrputHidden6, .pack, .merge2, .merge4, .merge6, .tail,
        .encodeStatic8, .encodeHidden2, .encodeHidden4, .encodeHidden6] → t.pix = s.pix) ∧
    (i ∉ [.pack, .merge2, .merge4, .merge6, .tail, .encodeStatic8, .encodeHidden2, .encodeHidden4,
        .encodeHidden6] → t.pixlen = s.pixlen) ∧
    (i ∉ [.hdrget, .decode] → t.hdr = s.hdr) ∧
    t.params = s.params ∧ t.cmd = s.cmd ∧ t.car = s.car ∧ t.carlen = s.carlen ∧ t.pending = s.pending ∧
      t.readData = s.readData

/-- Rule R170: reset is the only event that clears DONE. -/
def Obligations.DoneIsClearedOnlyByReset : Prop :=
  ∀ s t : State, step s = .next t → s.done = true → t.done = false → ∃ rest, s.pending = .reset :: rest

/-- No step changes the sizes of the buffers. That they stand in the state is the model's choice (log entry 1). -/
def Obligations.NoStepChangesTheSizes : Prop :=
  ∀ s t : State, step s = .next t → t.params = s.params

/-- Rules R15 and R154: no command reads STATUS or ERRINFO, so a command does the same after any earlier report. -/
def Obligations.CommandsIgnoreAnEarlierReport : Prop :=
  ∀ (i : Instr) (s : State) (d : Bool) (e : BitVec 4) (x : Word),
    exec i { s with done := d, errcode := e, errinfo := x } = exec i s

/-- The "read" columns of rules R12 and R30 for CAR: a command that does not read the carrier does the same whatever CAR
and CARLEN hold. -/
def Obligations.CarrierIsReadOnlyWhereTheRulesSay : Prop :=
  ∀ (i : Instr) (s t : State) (m : Memory) (c : Word), i ∉ readsCar → exec i s = .next t →
    exec i { s with car := m, carlen := c } = .next { t with car := m, carlen := c }

/-! ## Sequences of commands -/

/-- Rule R114: where a compound command succeeds, the state it reaches is the one its parts reach. -/
def Obligations.CompoundCommandsEqualTheirParts : Prop :=
  (∀ s t : State, exec .encodeStatic8 s = .next t → t.errcode = 0 →
    ∃ u, exec .hdrputStatic8 s = .next u ∧ u.errcode = 0 ∧ exec .pack u = .next t) ∧
  (∀ x ∈ [(Instr.encodeHidden2, Instr.hdrputHidden2, Instr.merge2), (.encodeHidden4, .hdrputHidden4, .merge4),
      (.encodeHidden6, .hdrputHidden6, .merge6)],
    ∀ s t : State, exec x.1 s = .next t → t.errcode = 0 →
      ∃ u v, exec x.2.1 s = .next u ∧ u.errcode = 0 ∧ exec x.2.2 u = .next v ∧ v.errcode = 0 ∧
        exec .tail v = .next t) ∧
  ∀ x ∈ [(1, 0, Instr.unpack), (2, 2, .extract2), (2, 4, .extract4), (2, 6, .extract6)],
    ∀ s t : State, exec .decode s = .next t → t.errcode = 0 → s.low3 0 = x.1 → s.low3 1 = x.2.1 →
      ∃ u, exec .hdrget s = .next u ∧ u.errcode = 0 ∧ exec x.2.2 u = .next t

/-- Rule R76: UNPACK after PACK restores the symbols and SYMLEN, and PACK after UNPACK restores the payload and PIXLEN. -/
def Obligations.PackAndUnpackRoundTrip : Prop :=
  (∀ s t : State, exec .pack s = .next t → t.errcode = 0 →
    ∃ u, exec .unpack t = .next u ∧ u.errcode = 0 ∧ u.symlen = s.symlen ∧
      ∀ a, a < s.n → u.byte .sym a = s.byte .sym a) ∧
  ∀ s t : State, s.params.Legal → exec .unpack s = .next t → t.errcode = 0 →
    ∃ u, exec .pack t = .next u ∧ u.errcode = 0 ∧ u.pixlen = s.pixlen ∧
      ∀ a, 3 ≤ a → a < s.p → u.byte .pix a = s.byte .pix a

/-- Rule R87 (a) for the commands: EXTRACT.d after MERGE.d restores the symbols and SYMLEN. -/
def Obligations.MergeAndExtractRoundTrip : Prop :=
  ∀ x ∈ [(Instr.merge2, Instr.extract2), (.merge4, .extract4), (.merge6, .extract6)],
    ∀ s t : State, exec x.1 s = .next t → t.errcode = 0 →
      ∃ u, exec x.2 t = .next u ∧ u.errcode = 0 ∧ u.symlen = s.symlen ∧ ∀ a, a < s.n → u.byte .sym a = s.byte .sym a

/-- Rule R117, static: DECODE after ENCODE static restores the symbols and SYMLEN. -/
def Obligations.StaticEncodeDecodeRoundTrip : Prop :=
  ∀ s t : State, exec .encodeStatic8 s = .next t → t.errcode = 0 →
    ∃ u, exec .decode t = .next u ∧ u.errcode = 0 ∧ u.symlen = s.symlen ∧
      u.hdr = { version := 1, mode := 1, depth := 0 } ∧ ∀ a, a < s.n → u.byte .sym a = s.byte .sym a

/-- Rule R117, hidden: DECODE after ENCODE hidden, with PIXLEN set to the required bytes, restores the symbols and
SYMLEN. -/
def Obligations.HiddenEncodeDecodeRoundTrip : Prop :=
  ∀ x ∈ [(Instr.encodeHidden2, Depth.two), (.encodeHidden4, Depth.four), (.encodeHidden6, Depth.six)],
    ∀ s t : State, exec x.1 s = .next t → t.errcode = 0 →
      ∃ u, exec .decode { t with pixlen := BitVec.ofNat 32 (x.2.required s.n) } = .next u ∧ u.errcode = 0 ∧
        u.symlen = s.symlen ∧ u.hdr = { version := 1, mode := 2, depth := x.2.code } ∧
        ∀ a, a < s.n → u.byte .sym a = s.byte .sym a

/-- Rules R117 and R176: DECODE of the whole image, if SYM holds it, gives the symbols as encoded, followed by the
symbols of the tail, which are all 0 at depth 2. -/
def Obligations.WholeImageDecodesWithItsTail : Prop :=
  ∀ x ∈ [(Instr.encodeHidden2, Depth.two, symbolTwo), (.encodeHidden4, .four, symbolFour),
      (.encodeHidden6, .six, symbolSix)],
    ∀ s t : State, exec x.1 s = .next t → t.errcode = 0 → x.2.1.perTriple * (s.c - 3) / 3 ≤ s.params.symSize →
      ∃ u, exec .decode t = .next u ∧ u.errcode = 0 ∧ u.n = x.2.1.perTriple * (s.c - 3) / 3 ∧
        (∀ a, a < s.n → u.byte .sym a = s.byte .sym a) ∧
        (∀ q y, s.n / x.2.1.perTriple ≤ q → q < (s.c - 3) / 3 → y < x.2.1.perTriple →
          u.byte .sym (x.2.1.perTriple * q + y) =
            some (x.2.2 (fun j => s.val .car (3 + 3 * q + j) &&& 0xFC) y)) ∧
        (x.2.1 = .two → ∀ a, s.n ≤ a → a < u.n → u.byte .sym a = some 0)

/-- Rules R87 (b), R105 (b) and R177: an encoded image keeps the carrier's bits above the depth from index 3 on, and its
top five bits in the header pixel. -/
def Obligations.HiddenEncodeKeepsCarrierHighBits : Prop :=
  ∀ x ∈ [(Instr.encodeHidden2, 0xFC#8), (.encodeHidden4, 0xF0#8), (.encodeHidden6, 0xC0#8)],
    ∀ s t : State, exec x.1 s = .next t → t.errcode = 0 →
      (∀ a, a < 3 → t.val .pix a &&& 0xF8 = s.val .car a &&& 0xF8) ∧
      ∀ a, 3 ≤ a → a < s.c → t.val .pix a &&& x.2 = s.val .car a &&& x.2

/-- Rule R172's examples, for every size within rule R5: the first command after reset, placed as the host's next
move (log entry 3). -/
def Obligations.FirstCommandsAfterReset : Prop :=
  ∀ p : Params, p.Legal →
    step ((State.resetWith p).withFetchWord 32 0x300) =
      .next { State.resetWith p with cmd := 0x300, done := true, pixlen := 3 } ∧
    step ((State.resetWith p).withFetchWord 32 0x900) =
      .next { State.resetWith p with cmd := 0x900, done := true, errcode := 4, errinfo := 0 } ∧
    step ((State.resetWith p).withFetchWord 32 0x812) =
      .next { State.resetWith p with cmd := 0x812, done := true, errcode := 1, errinfo := 3 }
end

