-- ==== Sys2Proof/Laws/Memory.lean ====
section
/-! SUPPORT. What the operations on one buffer do, and that they keep its canonical form. -/

namespace Sys2Proof.Machine

/-! ## Reading after writing -/

@[simp] theorem read_nil (a : Nat) : Memory.read [] a = none := rfl

/-- A write of one byte gives that byte back at its index and leaves every other index alone. -/
theorem read_write (m : Memory) (a : Nat) (v : Byte) (x : Nat) :
    Memory.read (Memory.write m a v) x = if x = a then some v else Memory.read m x := by
  induction m with
  | nil => by_cases h : x = a <;> simp [Memory.write, Memory.read, h, eq_comm (a := a)]
  | cons c m ih =>
    obtain ⟨k, w⟩ := c
    simp only [Memory.write]
    split
    · by_cases h : x = a
      · simp [Memory.read, h]
      · simp [Memory.read, h, Ne.symm h]
    · split
      · subst k
        by_cases h : x = a
        · simp [Memory.read, h]
        · simp [Memory.read, h, Ne.symm h]
      · rename_i h1 h2
        simp only [Memory.read, ih]
        by_cases h : x = a
        · subst h; simp [Ne.symm h2]
        · simp [h]

/-- Writing bytes one after another gives each of them back at its index and leaves every other index alone. -/
theorem read_writeList (vs : List Byte) (m : Memory) (a x : Nat) :
    Memory.read (Memory.writeList m a vs) x =
      if a ≤ x ∧ x < a + vs.length then vs[x - a]? else Memory.read m x := by
  induction vs generalizing m a with
  | nil => simp [Memory.writeList]
  | cons v vs ih =>
    simp only [Memory.writeList, ih, read_write, List.length_cons]
    by_cases h : a + 1 ≤ x ∧ x < a + 1 + vs.length
    · rw [if_pos h, if_pos (by omega), show x - a = (x - (a + 1)) + 1 by omega, List.getElem?_cons_succ]
    · rw [if_neg h]
      by_cases hx : x = a
      · subst hx; simp
      · rw [if_neg hx, if_neg (by omega)]

/-! ## The canonical form -/

theorem wf_cons (a : Nat) (v : Byte) (m : Memory) :
    Memory.wf ((a, v) :: m) = true ↔ (∀ c ∈ m, a < c.1) ∧ Memory.wf m = true := by
  induction m generalizing a v with
  | nil => simp [Memory.wf]
  | cons c m ih =>
    obtain ⟨b, w⟩ := c
    simp only [Memory.wf, Bool.and_eq_true, decide_eq_true_eq, List.mem_cons, forall_eq_or_imp]
    constructor
    · rintro ⟨h1, h2⟩
      exact ⟨⟨h1, fun c hc => lt_trans h1 (((ih b w).1 h2).1 c hc)⟩, h2⟩
    · rintro ⟨⟨h1, -⟩, h2⟩
      exact ⟨h1, h2⟩

/-- Every index a write leaves listed was listed before or is the one written. -/
theorem mem_write {m : Memory} {a : Nat} {v : Byte} {c : Host.Cell} (h : c ∈ Memory.write m a v) :
    c.1 = a ∨ c ∈ m := by
  induction m with
  | nil => simp_all [Memory.write]
  | cons d m ih =>
    obtain ⟨k, w⟩ := d
    simp only [Memory.write] at h
    split at h
    · rcases List.mem_cons.1 h with rfl | h
      · exact .inl rfl
      · exact .inr h
    · split at h
      · rcases List.mem_cons.1 h with rfl | h
        · exact .inl rfl
        · exact .inr (List.mem_cons_of_mem _ h)
      · rcases List.mem_cons.1 h with rfl | h
        · exact .inr (List.mem_cons_self ..)
        · exact (ih h).imp id (List.mem_cons_of_mem _)

/-- A write keeps the canonical form. -/
theorem wf_write {m : Memory} (a : Nat) (v : Byte) (h : Memory.wf m = true) : Memory.wf (Memory.write m a v) = true := by
  induction m with
  | nil => rfl
  | cons d m ih =>
    obtain ⟨k, w⟩ := d
    obtain ⟨h1, h2⟩ := (wf_cons k w m).1 h
    simp only [Memory.write]
    split
    · rename_i hk
      refine (wf_cons a v _).2 ⟨fun c hc => ?_, h⟩
      rcases List.mem_cons.1 hc with rfl | hc
      · exact hk
      · exact lt_trans hk (h1 c hc)
    · split
      · rename_i hk; subst hk; exact (wf_cons ..).2 ⟨h1, h2⟩
      · refine (wf_cons ..).2 ⟨fun c hc => ?_, ih h2⟩
        rcases mem_write hc with hc | hc
        · omega
        · exact h1 c hc

/-- A write below the size keeps every listed index below it. -/
theorem below_write {m : Memory} {size a : Nat} (v : Byte) (h : Memory.below size m = true) (ha : a < size) :
    Memory.below size (Memory.write m a v) = true := by
  simp only [Memory.below, List.all_eq_true, decide_eq_true_eq] at h ⊢
  intro c hc
  rcases mem_write hc with hc | hc
  · omega
  · exact h c hc

theorem wf_writeList {m : Memory} (a : Nat) (vs : List Byte) (h : Memory.wf m = true) :
    Memory.wf (Memory.writeList m a vs) = true := by
  induction vs generalizing m a with
  | nil => exact h
  | cons v vs ih => exact ih (a + 1) (wf_write a v h)

theorem below_writeList {m : Memory} {size : Nat} (a : Nat) (vs : List Byte) (h : Memory.below size m = true)
    (ha : a + vs.length ≤ size) : Memory.below size (Memory.writeList m a vs) = true := by
  induction vs generalizing m a with
  | nil => exact h
  | cons v vs ih =>
    simp only [List.length_cons] at ha
    exact ih (a + 1) (below_write v h (by omega)) (by omega)

/-! ## Equal memories are equal data -/

theorem read_eq_none_of_lt {m : Memory} {a : Nat} (h : ∀ c ∈ m, a < c.1) : Memory.read m a = none := by
  induction m with
  | nil => rfl
  | cons d m ih =>
    have := h d (List.mem_cons_self ..)
    simp only [Memory.read]
    rw [if_neg (by omega), ih fun c hc => h c (List.mem_cons_of_mem _ hc)]

/-- Two buffers in canonical form that read alike are the same list. -/
theorem memory_ext {m m' : Memory} (h : Memory.wf m = true) (h' : Memory.wf m' = true)
    (heq : ∀ a, Memory.read m a = Memory.read m' a) : m = m' := by
  induction m generalizing m' with
  | nil =>
    cases m' with
    | nil => rfl
    | cons d m' => simpa [Memory.read] using heq d.1
  | cons c m ih =>
    obtain ⟨k, v⟩ := c
    obtain ⟨h1, h2⟩ := (wf_cons ..).1 h
    cases m' with
    | nil => simpa [Memory.read] using heq k
    | cons d m' =>
      obtain ⟨k', v'⟩ := d
      obtain ⟨h1', h2'⟩ := (wf_cons ..).1 h'
      have hk : k = k' := by
        rcases Nat.lt_trichotomy k k' with hlt | rfl | hlt
        · have := heq k
          rw [Memory.read, if_pos rfl, Memory.read, if_neg (by omega),
            read_eq_none_of_lt fun c hc => lt_trans hlt (h1' c hc)] at this
          cases this
        · rfl
        · have := heq k'
          rw [Memory.read, if_neg (by omega), read_eq_none_of_lt fun c hc => lt_trans hlt (h1 c hc),
            Memory.read, if_pos rfl] at this
          cases this
      subst hk
      have hv : v = v' := by simpa [Memory.read] using heq k
      subst hv
      rw [ih h2 h2' fun a => ?_]
      by_cases ha : k = a
      · subst ha; rw [read_eq_none_of_lt h1, read_eq_none_of_lt h1']
      · simpa [Memory.read, ha] using heq a

end Sys2Proof.Machine
end

