-- ==== Sys2Proof/Laws/State.lean ====
section
/-! SUPPORT. One lemma per field per update of the state. -/

namespace Sys2Proof.Machine

variable (s : State) (e : Error) (x : Word) (b : Buf) (m : Memory) (code info : Nat)

/-! ## The success epilogue -/

@[simp] theorem succeed_params : (succeed s).params = s.params := rfl
@[simp] theorem succeed_cmd : (succeed s).cmd = s.cmd := rfl
@[simp] theorem succeed_done : (succeed s).done = true := rfl
@[simp] theorem succeed_errcode : (succeed s).errcode = 0 := rfl
@[simp] theorem succeed_errinfo : (succeed s).errinfo = 0 := rfl
@[simp] theorem succeed_symlen : (succeed s).symlen = s.symlen := rfl
@[simp] theorem succeed_carlen : (succeed s).carlen = s.carlen := rfl
@[simp] theorem succeed_pixlen : (succeed s).pixlen = s.pixlen := rfl
@[simp] theorem succeed_hdr : (succeed s).hdr = s.hdr := rfl
@[simp] theorem succeed_sym : (succeed s).sym = s.sym := rfl
@[simp] theorem succeed_car : (succeed s).car = s.car := rfl
@[simp] theorem succeed_pix : (succeed s).pix = s.pix := rfl
@[simp] theorem succeed_pending : (succeed s).pending = s.pending := rfl
@[simp] theorem succeed_readData : (succeed s).readData = s.readData := rfl

/-! ## The error entry -/

@[simp] theorem raiseError_params : (raiseError e x s).params = s.params := rfl
@[simp] theorem raiseError_cmd : (raiseError e x s).cmd = s.cmd := rfl
@[simp] theorem raiseError_done : (raiseError e x s).done = true := rfl
@[simp] theorem raiseError_errcode : (raiseError e x s).errcode = e.code := rfl
@[simp] theorem raiseError_errinfo : (raiseError e x s).errinfo = x := rfl
@[simp] theorem raiseError_symlen : (raiseError e x s).symlen = s.symlen := rfl
@[simp] theorem raiseError_carlen : (raiseError e x s).carlen = s.carlen := rfl
@[simp] theorem raiseError_pixlen : (raiseError e x s).pixlen = s.pixlen := rfl
@[simp] theorem raiseError_hdr : (raiseError e x s).hdr = s.hdr := rfl
@[simp] theorem raiseError_sym : (raiseError e x s).sym = s.sym := rfl
@[simp] theorem raiseError_car : (raiseError e x s).car = s.car := rfl
@[simp] theorem raiseError_pix : (raiseError e x s).pix = s.pix := rfl
@[simp] theorem raiseError_pending : (raiseError e x s).pending = s.pending := rfl
@[simp] theorem raiseError_readData : (raiseError e x s).readData = s.readData := rfl

/-! ## A report, as the statements write it -/

@[simp] theorem completed_params : (s.completed).params = s.params := rfl
@[simp] theorem completed_cmd : (s.completed).cmd = s.cmd := rfl
@[simp] theorem completed_done : (s.completed).done = true := rfl
@[simp] theorem completed_errcode : (s.completed).errcode = 0 := rfl
@[simp] theorem completed_errinfo : (s.completed).errinfo = 0 := rfl
@[simp] theorem completed_symlen : (s.completed).symlen = s.symlen := rfl
@[simp] theorem completed_carlen : (s.completed).carlen = s.carlen := rfl
@[simp] theorem completed_pixlen : (s.completed).pixlen = s.pixlen := rfl
@[simp] theorem completed_hdr : (s.completed).hdr = s.hdr := rfl
@[simp] theorem completed_sym : (s.completed).sym = s.sym := rfl
@[simp] theorem completed_car : (s.completed).car = s.car := rfl
@[simp] theorem completed_pix : (s.completed).pix = s.pix := rfl
@[simp] theorem completed_pending : (s.completed).pending = s.pending := rfl
@[simp] theorem completed_readData : (s.completed).readData = s.readData := rfl

@[simp] theorem reported_params : (s.reported code info).params = s.params := rfl
@[simp] theorem reported_cmd : (s.reported code info).cmd = s.cmd := rfl
@[simp] theorem reported_done : (s.reported code info).done = true := rfl
@[simp] theorem reported_errcode : (s.reported code info).errcode = BitVec.ofNat 4 code := rfl
@[simp] theorem reported_errinfo : (s.reported code info).errinfo = BitVec.ofNat 32 info := rfl
@[simp] theorem reported_symlen : (s.reported code info).symlen = s.symlen := rfl
@[simp] theorem reported_carlen : (s.reported code info).carlen = s.carlen := rfl
@[simp] theorem reported_pixlen : (s.reported code info).pixlen = s.pixlen := rfl
@[simp] theorem reported_hdr : (s.reported code info).hdr = s.hdr := rfl
@[simp] theorem reported_sym : (s.reported code info).sym = s.sym := rfl
@[simp] theorem reported_car : (s.reported code info).car = s.car := rfl
@[simp] theorem reported_pix : (s.reported code info).pix = s.pix := rfl
@[simp] theorem reported_pending : (s.reported code info).pending = s.pending := rfl
@[simp] theorem reported_readData : (s.reported code info).readData = s.readData := rfl

/-! ## Reset -/

@[simp] theorem resetBlock_params : (resetBlock s).params = s.params := rfl
@[simp] theorem resetBlock_cmd : (resetBlock s).cmd = 0 := rfl
@[simp] theorem resetBlock_done : (resetBlock s).done = false := rfl
@[simp] theorem resetBlock_errcode : (resetBlock s).errcode = 0 := rfl
@[simp] theorem resetBlock_errinfo : (resetBlock s).errinfo = 0 := rfl
@[simp] theorem resetBlock_symlen : (resetBlock s).symlen = 0 := rfl
@[simp] theorem resetBlock_carlen : (resetBlock s).carlen = 0 := rfl
@[simp] theorem resetBlock_pixlen : (resetBlock s).pixlen = 0 := rfl
@[simp] theorem resetBlock_hdr : (resetBlock s).hdr = { version := 0, mode := 0, depth := 0 } := rfl
@[simp] theorem resetBlock_sym : (resetBlock s).sym = [] := rfl
@[simp] theorem resetBlock_car : (resetBlock s).car = [] := rfl
@[simp] theorem resetBlock_pix : (resetBlock s).pix = [] := rfl
@[simp] theorem resetBlock_pending : (resetBlock s).pending = s.pending := rfl
@[simp] theorem resetBlock_readData : (resetBlock s).readData = s.readData := rfl

/-! ## Replacing a buffer -/

@[simp] theorem setMem_params : (s.setMem b m).params = s.params := by cases b <;> rfl
@[simp] theorem setMem_cmd : (s.setMem b m).cmd = s.cmd := by cases b <;> rfl
@[simp] theorem setMem_done : (s.setMem b m).done = s.done := by cases b <;> rfl
@[simp] theorem setMem_errcode : (s.setMem b m).errcode = s.errcode := by cases b <;> rfl
@[simp] theorem setMem_errinfo : (s.setMem b m).errinfo = s.errinfo := by cases b <;> rfl
@[simp] theorem setMem_symlen : (s.setMem b m).symlen = s.symlen := by cases b <;> rfl
@[simp] theorem setMem_carlen : (s.setMem b m).carlen = s.carlen := by cases b <;> rfl
@[simp] theorem setMem_pixlen : (s.setMem b m).pixlen = s.pixlen := by cases b <;> rfl
@[simp] theorem setMem_hdr : (s.setMem b m).hdr = s.hdr := by cases b <;> rfl
@[simp] theorem setMem_sym_sym : (s.setMem .sym m).sym = m := rfl
@[simp] theorem setMem_car_sym : (s.setMem .car m).sym = s.sym := rfl
@[simp] theorem setMem_pix_sym : (s.setMem .pix m).sym = s.sym := rfl
@[simp] theorem setMem_sym_car : (s.setMem .sym m).car = s.car := rfl
@[simp] theorem setMem_car_car : (s.setMem .car m).car = m := rfl
@[simp] theorem setMem_pix_car : (s.setMem .pix m).car = s.car := rfl
@[simp] theorem setMem_sym_pix : (s.setMem .sym m).pix = s.pix := rfl
@[simp] theorem setMem_car_pix : (s.setMem .car m).pix = s.pix := rfl
@[simp] theorem setMem_pix_pix : (s.setMem .pix m).pix = m := rfl
@[simp] theorem setMem_pending : (s.setMem b m).pending = s.pending := by cases b <;> rfl
@[simp] theorem setMem_readData : (s.setMem b m).readData = s.readData := by cases b <;> rfl

@[simp] theorem mem_sym : s.mem .sym = s.sym := rfl
@[simp] theorem mem_car : s.mem .car = s.car := rfl
@[simp] theorem mem_pix : s.mem .pix = s.pix := rfl
@[simp] theorem size_sym : s.size .sym = s.params.symSize := rfl
@[simp] theorem size_car : s.size .car = s.params.carSize := rfl
@[simp] theorem size_pix : s.size .pix = s.params.pixSize := rfl

@[simp] theorem mem_setMem : (s.setMem b m).mem b = m := by cases b <;> rfl

theorem mem_setMem_ne {b b' : Buf} (h : b' ≠ b) : (s.setMem b m).mem b' = s.mem b' := by
  cases b <;> cases b' <;> first | rfl | exact absurd rfl h

@[simp] theorem size_setMem (b' : Buf) : (s.setMem b m).size b' = s.size b' := by
  cases b <;> cases b' <;> rfl

@[simp] theorem setMem_setMem (m' : Memory) : (s.setMem b m).setMem b m' = s.setMem b m' := by
  cases b <;> rfl

@[simp] theorem setMem_mem : s.setMem b (s.mem b) = s := by cases b <;> rfl

/-- The size of a buffer is a function of the parameters alone. -/
theorem size_congr {t : State} (h : t.params = s.params) : t.size b = s.size b := by
  cases b <;> simp [State.size, h]

end Sys2Proof.Machine
end

