-- ==== Sys2Proof/Laws/Ops.lean ====
section
/-! SUPPORT. For each shared operation, once, everything it can do. -/

namespace Sys2Proof.Machine

/-! ## Sequencing -/

@[simp] theorem bind_ok {α β : Type} (a : α) (f : α → Except Stop β) : ((.ok a : Except Stop α) >>= f) = f a := rfl

@[simp] theorem bind_error {α β : Type} (e : Stop) (f : α → Except Stop β) :
    ((.error e : Except Stop α) >>= f) = .error e := rfl

/-- Two steps of work in a row come out right exactly when both do. -/
theorem bind_eq_ok {α β : Type} {x : Except Stop α} {f : α → Except Stop β} {b : β} :
    (x >>= f) = .ok b ↔ ∃ a, x = .ok a ∧ f a = .ok b := by
  cases x <;> simp

/-- Two steps of work in a row stop when the first does, or when the second does after the first. -/
theorem bind_eq_error {α β : Type} {x : Except Stop α} {f : α → Except Stop β} {e : Stop} :
    (x >>= f) = .error e ↔ x = .error e ∨ ∃ a, x = .ok a ∧ f a = .error e := by
  cases x <;> simp

/-! ## Checks -/

section
variable {p : Prop} [Decidable p] {e : Error} {info : Word}

theorem require_pos (h : p) : require p e info = .ok () := by simp [require, h]

theorem require_neg (h : ¬p) : require p e info = .error (.error e info) := by simp [require, h]

theorem require_eq_ok {u : Unit} : require p e info = .ok u ↔ p := by
  by_cases h : p <;> simp [require, h]

theorem require_eq_error {x : Stop} : require p e info = .error x ↔ ¬p ∧ x = .error e info := by
  by_cases h : p <;> simp [require, h, eq_comm]

end

/-! ## One cell -/

section
variable {s t : State} {b : Buf} {a : Nat} {v : Byte}

theorem memRead_eq_ok : memRead s b a = .ok v ↔ a < s.size b ∧ s.byte b a = some v := by
  unfold memRead
  split
  · rename_i h
    cases hb : s.byte b a <;> simp [h]
  · rename_i h; simp [h]

/-- A read of a cell stops only at a cell without a value, or at an index the buffer does not have. -/
theorem memRead_eq_error {x : Stop} (h : memRead s b a = .error x) :
    (s.size b ≤ a ∧ x = .fault (.noSuchCell b a)) ∨
      (a < s.size b ∧ s.byte b a = none ∧ x = .fault (.unwrittenCell b a)) := by
  unfold memRead at h
  split at h
  · rename_i hlt
    cases hb : s.byte b a <;> simp [hb] at h
    exact .inr ⟨hlt, rfl, h.symm⟩
  · rename_i hlt
    simp at h
    exact .inl ⟨by omega, h.symm⟩

theorem memWrite_of_lt (h : a < s.size b) : memWrite s b a v = .ok (s.setMem b (Memory.write (s.mem b) a v)) := by
  simp [memWrite, h]

end

/-! ## Ranges of cells -/

/-- A range is read exactly when each of its cells exists and holds a value, and gives those values in order. -/
theorem readRange_eq_ok {s : State} {b : Buf} {a len : Nat} {vs : List Byte} :
    readRange s b a len = .ok vs ↔
      vs.length = len ∧ ∀ j, j < len → a + j < s.size b ∧ s.byte b (a + j) = vs[j]? := by
  induction len generalizing a vs with
  | zero => cases vs <;> simp [readRange]
  | succ len ih =>
    simp only [readRange, bind_eq_ok, memRead_eq_ok, ih, Except.ok.injEq]
    constructor
    · rintro ⟨v, ⟨hv, hb⟩, ws, ⟨hl, hw⟩, rfl⟩
      refine ⟨by simp [hl], fun j hj => ?_⟩
      cases j with
      | zero => simp [hv, hb]
      | succ j =>
        have := hw j (by omega)
        rw [show a + 1 + j = a + (j + 1) by omega] at this
        simpa using this
    · rintro ⟨hl, hw⟩
      obtain ⟨v, ws, rfl⟩ := List.exists_cons_of_length_eq_add_one hl
      have h0 := hw 0 (by omega)
      refine ⟨v, by simpa using h0, ws, ⟨by simpa using hl, fun j hj => ?_⟩, rfl⟩
      have := hw (j + 1) (by omega)
      rw [show a + (j + 1) = a + 1 + j by omega] at this
      simpa using this

/-- A range whose cells exist and hold values is read. -/
theorem readRange_written {s : State} {b : Buf} {a hi : Nat} (hs : hi ≤ s.size b) (hw : s.Written b a hi) :
    ∃ vs, readRange s b a (hi - a) = .ok vs := by
  obtain ⟨len, hlen⟩ : ∃ len, len = hi - a := ⟨_, rfl⟩
  rw [← hlen]
  induction len generalizing a with
  | zero => exact ⟨[], rfl⟩
  | succ len ih =>
    obtain ⟨v, hv⟩ := Option.ne_none_iff_exists'.1 (hw a (by omega) le_rfl)
    obtain ⟨vs, hvs⟩ := ih (a := a + 1) (fun x h1 h2 => hw x h1 (by omega)) (by omega)
    exact ⟨v :: vs, by simp [readRange, memRead_eq_ok.2 ⟨by omega, hv⟩, hvs]⟩

/-- A read of a range stops only at a cell without a value, or at an index the buffer does not have. -/
theorem readRange_eq_error {s : State} {b : Buf} {a len : Nat} {x : Stop} (h : readRange s b a len = .error x) :
    ∃ j, a ≤ j ∧ j < a + len ∧ ((s.size b ≤ j ∧ x = .fault (.noSuchCell b j)) ∨
      (j < s.size b ∧ s.byte b j = none ∧ x = .fault (.unwrittenCell b j))) := by
  induction len generalizing a with
  | zero => simp [readRange] at h
  | succ len ih =>
    rw [readRange, bind_eq_error] at h
    rcases h with h | ⟨v, -, h⟩
    · exact ⟨a, le_rfl, by omega, memRead_eq_error h⟩
    · rw [bind_eq_error] at h
      rcases h with h | ⟨_, -, h⟩
      · obtain ⟨j, h1, h2, h3⟩ := ih h
        exact ⟨j, by omega, by omega, h3⟩
      · cases h

/-- Bytes that fit are written, and the buffer takes them; nothing else changes. -/
theorem writeRange_of_le {s : State} {b : Buf} {a : Nat} {vs : List Byte} (h : a + vs.length ≤ s.size b) :
    writeRange s b a vs = .ok (s.setMem b (Memory.writeList (s.mem b) a vs)) := by
  induction vs generalizing s a with
  | nil => simp [writeRange, Memory.writeList]
  | cons v vs ih =>
    simp only [List.length_cons] at h
    rw [writeRange, memWrite_of_lt (by omega), bind_ok, ih (by simp; omega)]
    simp [Memory.writeList]

/-- A write of bytes stops only where it does not fit. -/
theorem writeRange_eq_ok {s t : State} {b : Buf} {a : Nat} {vs : List Byte} (h : writeRange s b a vs = .ok t) :
    t = s.setMem b (Memory.writeList (s.mem b) a vs) ∧ (vs = [] ∨ a + vs.length ≤ s.size b) := by
  induction vs generalizing s a with
  | nil => simp_all [writeRange, Memory.writeList]
  | cons v vs ih =>
    rw [writeRange, bind_eq_ok] at h
    obtain ⟨u, hu, h⟩ := h
    unfold memWrite at hu
    split at hu
    · simp only [Except.ok.injEq] at hu
      subst hu
      obtain ⟨h1, h2⟩ := ih h
      refine ⟨by simpa [Memory.writeList] using h1, .inr ?_⟩
      rcases h2 with rfl | h2
      · simpa using by omega
      · simp at h2 ⊢; omega
    · cases hu

/-- The byte a cell holds after a write of a range. -/
theorem byte_setMem_writeList (s : State) (b : Buf) (a : Nat) (vs : List Byte) (x : Nat) :
    (s.setMem b (Memory.writeList (s.mem b) a vs)).byte b x =
      if a ≤ x ∧ x < a + vs.length then vs[x - a]? else s.byte b x := by
  simp [State.byte, read_writeList]

/-- A write to one buffer leaves the bytes of the others. -/
theorem byte_setMem_ne (s : State) {b b' : Buf} (h : b' ≠ b) (m : Memory) (x : Nat) :
    (s.setMem b m).byte b' x = s.byte b' x := by
  simp [State.byte, mem_setMem_ne s m h]

/-! ## The check for symbols -/

/-- The check passes exactly when every cell exists and holds a symbol. -/
theorem checkSymbols_eq_ok {s : State} {i len : Nat} {u : Unit} :
    checkSymbols s i len = .ok u ↔
      ∀ j, j < len → i + j < s.params.symSize ∧ ∃ v, s.byte .sym (i + j) = some v ∧ v.toNat ≤ 63 := by
  induction len generalizing i with
  | zero => simp [checkSymbols]
  | succ len ih =>
    simp only [checkSymbols, bind_eq_ok, memRead_eq_ok, require_eq_ok, ih, size_sym]
    constructor
    · rintro ⟨v, ⟨h1, h2⟩, -, h3, h⟩ j hj
      cases j with
      | zero => exact ⟨h1, v, h2, h3⟩
      | succ j => rw [show i + (j + 1) = i + 1 + j by omega]; exact h j (by omega)
    · intro h
      obtain ⟨h1, v, h2, h3⟩ := h 0 (by omega)
      refine ⟨v, ⟨h1, h2⟩, (), h3, fun j hj => ?_⟩
      rw [show i + 1 + j = i + (j + 1) by omega]
      exact h (j + 1) (by omega)

/-- The check passes over cells that hold symbols. -/
theorem checkSymbols_symbols {s : State} {k : Nat} (hk : k ≤ s.params.symSize) (h : s.Symbols k) :
    checkSymbols s 0 k = .ok () := by
  refine checkSymbols_eq_ok.2 fun j hj => ⟨by omega, ?_⟩
  obtain ⟨h1, h2⟩ := h j hj
  obtain ⟨v, hv⟩ := Option.ne_none_iff_exists'.1 h1
  exact ⟨v, by simpa using hv, by simpa [State.val, hv] using h2⟩

/-- The check stops with `InvalidSymbol` at a cell above 63, after cells that hold symbols; or at a cell without a
value; or at an index SYM does not have. -/
theorem checkSymbols_eq_error {s : State} {i len : Nat} {x : Stop} (h : checkSymbols s i len = .error x) :
    ∃ j, i ≤ j ∧ j < i + len ∧
      ((s.params.symSize ≤ j ∧ x = .fault (.noSuchCell .sym j)) ∨
        (j < s.params.symSize ∧ s.byte .sym j = none ∧ x = .fault (.unwrittenCell .sym j)) ∨
        (∃ v, s.byte .sym j = some v ∧ 63 < v.toNat ∧ x = .error .invalidSymbol (BitVec.ofNat 32 j))) := by
  induction len generalizing i with
  | zero => simp [checkSymbols] at h
  | succ len ih =>
    rw [checkSymbols, bind_eq_error] at h
    rcases h with h | ⟨v, hv, h⟩
    · exact ⟨i, le_rfl, by omega, (memRead_eq_error h).imp id .inl⟩
    · rw [bind_eq_error] at h
      rcases h with h | ⟨_, -, h⟩
      · obtain ⟨h1, h2⟩ := require_eq_error.1 h
        exact ⟨i, le_rfl, by omega, .inr (.inr ⟨v, (memRead_eq_ok.1 hv).2, by omega, h2⟩)⟩
      · obtain ⟨j, h1, h2, h3⟩ := ih h
        exact ⟨j, by omega, by omega, h3⟩

/-- The first cell above 63 is the one reported (rule R144). -/
theorem checkSymbols_firstBad {s : State} {a len : Nat} (hs : a < s.params.symSize) (ha : a < len)
    (hsym : s.Symbols a) (hb : s.byte .sym a ≠ none) (hv : 63 < (s.val .sym a).toNat) :
    checkSymbols s 0 len = .error (.error .invalidSymbol (BitVec.ofNat 32 a)) := by
  suffices h : ∀ i len, i ≤ a → a < i + len → checkSymbols s i len =
      .error (.error .invalidSymbol (BitVec.ofNat 32 a)) from h 0 len (by omega) (by omega)
  intro i len
  induction len generalizing i with
  | zero => omega
  | succ len ih =>
    intro hi hl
    rw [checkSymbols]
    by_cases hia : i = a
    · subst hia
      obtain ⟨v, hbv⟩ := Option.ne_none_iff_exists'.1 hb
      simp only [State.val, hbv, Option.getD_some] at hv
      rw [memRead_eq_ok.2 ⟨hs, hbv⟩, bind_ok, require_neg (by omega), bind_error]
    · obtain ⟨h1, h2⟩ := hsym i (by omega)
      obtain ⟨v, hbv⟩ := Option.ne_none_iff_exists'.1 h1
      simp only [State.val, hbv, Option.getD_some] at h2
      rw [memRead_eq_ok.2 ⟨by simp; omega, hbv⟩, bind_ok, require_pos h2, bind_ok]
      exact ih (i + 1) (by omega) (by omega)

/-! ## The frame of a command -/

section
variable {s t : State} {w : Except Stop State}

/-- What a command can do: succeed with its work's state and the success epilogue, report an error with nothing else
changed, or stop at a fault; it never refuses. -/
theorem runCommand_cases (s : State) (w : Except Stop State) :
    (∃ u, w = .ok u ∧ runCommand s w = .next (succeed u)) ∨
      (∃ e info, w = .error (.error e info) ∧ runCommand s w = .next (raiseError e info s)) ∨
      (∃ f, w = .error (.fault f) ∧ runCommand s w = .fault f) := by
  match w with
  | .ok u => exact .inl ⟨u, rfl, rfl⟩
  | .error (.error e info) => exact .inr (.inl ⟨e, info, rfl, rfl⟩)
  | .error (.fault f) => exact .inr (.inr ⟨f, rfl, rfl⟩)

/-- A command's next state: the success epilogue over its work's state, or an error report over the state it started
from. -/
theorem runCommand_eq_next (h : runCommand s w = .next t) :
    (∃ u, w = .ok u ∧ t = succeed u) ∨ (∃ e info, w = .error (.error e info) ∧ t = raiseError e info s) := by
  rcases runCommand_cases s w with ⟨u, hw, hr⟩ | ⟨e, i, hw, hr⟩ | ⟨f, hw, hr⟩ <;> rw [hr] at h <;> cases h
  · exact .inl ⟨u, hw, rfl⟩
  · exact .inr ⟨e, i, hw, rfl⟩

@[simp] theorem runCommand_ok (u : State) : runCommand s (.ok u) = .next (succeed u) := rfl

@[simp] theorem runCommand_error (e : Error) (info : Word) :
    runCommand s (.error (.error e info)) = .next (raiseError e info s) := rfl

@[simp] theorem runCommand_fault (f : Fault) : runCommand s (.error (.fault f)) = .fault f := rfl

/-- A command faults only where its work does. -/
theorem runCommand_eq_fault {f : Fault} (h : runCommand s w = .fault f) : w = .error (.fault f) := by
  rcases runCommand_cases s w with ⟨u, hw, hr⟩ | ⟨e, i, hw, hr⟩ | ⟨g, hw, hr⟩ <;> rw [hr] at h <;> cases h
  exact hw

/-- No command is refused. -/
theorem runCommand_ne_refused (r : Refusal) : runCommand s w ≠ .refused r := by
  rcases runCommand_cases s w with ⟨u, -, hr⟩ | ⟨e, i, -, hr⟩ | ⟨f, -, hr⟩ <;> rw [hr] <;> intro h <;> cases h

end

/-! ## Registers as numbers -/

@[simp] theorem word_n (s : State) : BitVec.ofNat 32 s.n = s.symlen := by simp [State.n]
@[simp] theorem word_c (s : State) : BitVec.ofNat 32 s.c = s.carlen := by simp [State.c]
@[simp] theorem word_p (s : State) : BitVec.ofNat 32 s.p = s.pixlen := by simp [State.p]

/-- A length below 2^32 is kept by a register. -/
theorem word_toNat {v : Nat} (h : v < 2 ^ 32) : (word v).toNat = v := by
  simp [word]; omega

end Sys2Proof.Machine
end

