-- ==== Sys2Proof/Laws/Codec.lean ====
section
/-! SUPPORT. What the datapath functions do over a whole payload: how many bytes they give, and which. -/

namespace Sys2Proof.Machine

/-! ## Lengths -/

theorem packAll_length (vs : List Byte) : (packAll vs).length = 3 * (vs.length / 4) := by
  fun_induction packAll vs with
  | case1 s0 s1 s2 s3 rest b0 b1 b2 hb ih => simp only [List.length_cons, ih]; omega
  | case2 vs hvs =>
    match vs with
    | [] | [_] | [_, _] | [_, _, _] => simp
    | a :: b :: c :: d :: l => exact absurd rfl (hvs a b c d l)

theorem unpackAll_length (vs : List Byte) : (unpackAll vs).length = 4 * (vs.length / 3) := by
  fun_induction unpackAll vs with
  | case1 b0 b1 b2 rest s0 s1 s2 s3 hs ih => simp only [List.length_cons, ih]; omega
  | case2 vs hvs =>
    match vs with
    | [] | [_] | [_, _] => simp
    | a :: b :: c :: l => exact absurd rfl (hvs a b c l)

theorem splitAll2_length (vs : List Byte) : (splitAll2 vs).length = 3 * vs.length := by
  fun_induction splitAll2 vs with
  | case1 s rest g0 g1 g2 hs ih => simp only [List.length_cons, ih]; omega
  | case2 => simp

theorem splitAll4_length (vs : List Byte) : (splitAll4 vs).length = 3 * (vs.length / 2) := by
  fun_induction splitAll4 vs with
  | case1 s0 s1 rest g0 g1 g2 hs ih => simp only [List.length_cons, ih]; omega
  | case2 vs hvs =>
    match vs with
    | [] | [_] => simp
    | a :: b :: l => exact absurd rfl (hvs a b l)

theorem splitAll6_length (vs : List Byte) : (splitAll6 vs).length = 3 * (vs.length / 3) := by
  fun_induction splitAll6 vs with
  | case1 s0 s1 s2 rest g0 g1 g2 hs ih => simp only [List.length_cons, ih]; omega
  | case2 vs hvs =>
    match vs with
    | [] | [_] | [_, _] => simp
    | a :: b :: c :: l => exact absurd rfl (hvs a b c l)

theorem splitAll_length (d : Depth) (vs : List Byte) : (splitAll d vs).length = 3 * (vs.length / d.perTriple) := by
  cases d
  · simp [splitAll, splitAll2_length, Depth.perTriple]
  · exact splitAll4_length vs
  · exact splitAll6_length vs

theorem joinAll2_length (vs : List Byte) : (joinAll2 vs).length = vs.length / 3 := by
  fun_induction joinAll2 vs with
  | case1 g0 g1 g2 rest ih => simp only [List.length_cons, ih]; omega
  | case2 vs hvs =>
    match vs with
    | [] | [_] | [_, _] => simp
    | a :: b :: c :: l => exact absurd rfl (hvs a b c l)

theorem joinAll4_length (vs : List Byte) : (joinAll4 vs).length = 2 * (vs.length / 3) := by
  fun_induction joinAll4 vs with
  | case1 g0 g1 g2 rest s0 s1 hs ih => simp only [List.length_cons, ih]; omega
  | case2 vs hvs =>
    match vs with
    | [] | [_] | [_, _] => simp
    | a :: b :: c :: l => exact absurd rfl (hvs a b c l)

theorem joinAll6_length (vs : List Byte) : (joinAll6 vs).length = 3 * (vs.length / 3) := by
  fun_induction joinAll6 vs with
  | case1 g0 g1 g2 rest s0 s1 s2 hs ih => simp only [List.length_cons, ih]; omega
  | case2 vs hvs =>
    match vs with
    | [] | [_] | [_, _] => simp
    | a :: b :: c :: l => exact absurd rfl (hvs a b c l)

theorem joinAll_length (d : Depth) (vs : List Byte) : (joinAll d vs).length = d.perTriple * (vs.length / 3) := by
  cases d
  · simp [joinAll, joinAll2_length, Depth.perTriple]
  · exact joinAll4_length vs
  · exact joinAll6_length vs

theorem extractAll_length (d : Depth) (vs : List Byte) :
    (extractAll d vs).length = d.perTriple * (vs.length / 3) := by
  simp [extractAll, joinAll_length]

/-- The payload of whole triples, as rule R84 counts it. -/
theorem payload_eq (d : Depth) {n : Nat} (h : n % d.align = 0) : d.payload n = 3 * (n / d.perTriple) := by
  cases d <;> simp only [Depth.payload, Depth.perTriple, Depth.align] at * <;> omega

theorem align_eq (d : Depth) : d.align = d.perTriple := by cases d <;> rfl

/-- The symbols of whole triples, as rules R92 to R94 count them. -/
theorem symbols_eq (k : Nat) {m : Nat} (h : m % 3 = 0) : k * m / 3 = k * (m / 3) := by
  rw [Nat.mul_div_assoc _ (Nat.dvd_of_mod_eq_zero h)]

/-! ## Bytes -/

/-- The bytes of each packed quad (rule R70). -/
theorem packAll_get (vs : List Byte) {g : Nat} (hg : g < vs.length / 4) :
    (packAll vs)[3 * g]? = some ((vs.getD (4 * g) 0 <<< 2) ||| (vs.getD (4 * g + 1) 0 >>> 4)) ∧
      (packAll vs)[3 * g + 1]? =
        some (((vs.getD (4 * g + 1) 0 &&& 0xF) <<< 4) ||| (vs.getD (4 * g + 2) 0 >>> 2)) ∧
      (packAll vs)[3 * g + 2]? = some (((vs.getD (4 * g + 2) 0 &&& 0x3) <<< 6) ||| vs.getD (4 * g + 3) 0) := by
  fun_induction packAll vs generalizing g with
  | case1 s0 s1 s2 s3 rest b0 b1 b2 hb ih =>
    simp only [pack4, Prod.mk.injEq] at hb
    obtain ⟨rfl, rfl, rfl⟩ := hb
    cases g with
    | zero => simp
    | succ g =>
      have := ih (g := g) (by simp at hg; omega)
      simpa [show 3 * (g + 1) = 3 * g + 3 by omega, show 4 * (g + 1) = 4 * g + 4 by omega] using this
  | case2 vs hvs =>
    exfalso
    match vs with
    | [] | [_] | [_, _] | [_, _, _] => simp at hg
    | a :: b :: c :: d :: l => exact hvs a b c d l rfl

/-- The symbols of each unpacked triple (rule R71). -/
theorem unpackAll_get (vs : List Byte) {q x : Nat} (hq : q < vs.length / 3) (hx : x < 4) :
    (unpackAll vs)[4 * q + x]? = some (symbolStatic (fun j => vs.getD (3 * q + j) 0) x) := by
  fun_induction unpackAll vs generalizing q with
  | case1 b0 b1 b2 rest s0 s1 s2 s3 hs ih =>
    simp only [unpack3, Prod.mk.injEq] at hs
    obtain ⟨rfl, rfl, rfl, rfl⟩ := hs
    cases q with
    | zero => interval_cases x <;> simp [symbolStatic]
    | succ q =>
      have := ih (q := q) (by simp at hq; omega)
      rw [show 4 * (q + 1) + x = 4 * q + x + 4 by omega]
      simpa [show ∀ j, 3 * (q + 1) + j = 3 * q + j + 3 by omega] using this
  | case2 vs hvs =>
    exfalso
    match vs with
    | [] | [_] | [_, _] => simp at hq
    | a :: b :: c :: l => exact hvs a b c l rfl

/-- The groups of each triple, by depth (rules R82, R83, R85). -/
def groupOf : Depth → (Nat → Byte) → Nat → Byte
  | .two => groupTwo
  | .four => groupFour
  | .six => groupSix

theorem splitAll2_get (vs : List Byte) {q j : Nat} (hq : q < vs.length) (hj : j < 3) :
    (splitAll2 vs)[3 * q + j]? = some (groupTwo (fun x => vs.getD (1 * q + x) 0) j) := by
  fun_induction splitAll2 vs generalizing q with
  | case1 s rest g0 g1 g2 hs ih =>
    simp only [split2, Prod.mk.injEq] at hs
    obtain ⟨rfl, rfl, rfl⟩ := hs
    cases q with
    | zero => interval_cases j <;> simp [groupTwo]
    | succ q =>
      have := ih (q := q) (by simpa using hq)
      rw [show 3 * (q + 1) + j = 3 * q + j + 3 by omega]
      simpa [show ∀ x, q + 1 + x = q + x + 1 by omega] using this
  | case2 => simp at hq

theorem splitAll4_get (vs : List Byte) {q j : Nat} (hq : q < vs.length / 2) (hj : j < 3) :
    (splitAll4 vs)[3 * q + j]? = some (groupFour (fun x => vs.getD (2 * q + x) 0) j) := by
  fun_induction splitAll4 vs generalizing q with
  | case1 s0 s1 rest g0 g1 g2 hs ih =>
    simp only [split4, Prod.mk.injEq] at hs
    obtain ⟨rfl, rfl, rfl⟩ := hs
    cases q with
    | zero => interval_cases j <;> simp [groupFour]
    | succ q =>
      have := ih (q := q) (by simp at hq; omega)
      rw [show 3 * (q + 1) + j = 3 * q + j + 3 by omega]
      simpa [show ∀ x, 2 * (q + 1) + x = 2 * q + x + 2 by omega] using this
  | case2 vs hvs =>
    exfalso
    match vs with
    | [] | [_] => simp at hq
    | a :: b :: l => exact hvs a b l rfl

theorem splitAll6_get (vs : List Byte) {q j : Nat} (hq : q < vs.length / 3) (hj : j < 3) :
    (splitAll6 vs)[3 * q + j]? = some (groupSix (fun x => vs.getD (3 * q + x) 0) j) := by
  fun_induction splitAll6 vs generalizing q with
  | case1 s0 s1 s2 rest g0 g1 g2 hs ih =>
    simp only [split6, Prod.mk.injEq] at hs
    obtain ⟨rfl, rfl, rfl⟩ := hs
    cases q with
    | zero => interval_cases j <;> simp [groupSix]
    | succ q =>
      have := ih (q := q) (by simp at hq; omega)
      rw [show 3 * (q + 1) + j = 3 * q + j + 3 by omega]
      simpa [groupSix, show ∀ x, 3 * (q + 1) + x = 3 * q + x + 3 by omega] using this
  | case2 vs hvs =>
    exfalso
    match vs with
    | [] | [_] | [_, _] => simp at hq
    | a :: b :: c :: l => exact hvs a b c l rfl

/-- The groups of a symbol sequence, whatever the depth. -/
theorem splitAll_get (d : Depth) (vs : List Byte) {q j : Nat} (hq : q < vs.length / d.perTriple) (hj : j < 3) :
    (splitAll d vs)[3 * q + j]? = some (groupOf d (fun x => vs.getD (d.perTriple * q + x) 0) j) := by
  cases d
  · exact splitAll2_get vs (by simpa [Depth.perTriple] using hq) hj
  · exact splitAll4_get vs hq hj
  · exact splitAll6_get vs hq hj

/-- The bytes of a merged payload (rule R86). -/
theorem mergeAll_get (d : Depth) (cs vs : List Byte) {q j : Nat} (hq : q < vs.length / d.perTriple) (hj : j < 3)
    (hc : 3 * q + j < cs.length) :
    (mergeAll d cs vs)[3 * q + j]? =
      some ((cs.getD (3 * q + j) 0 &&& d.hi) ||| groupOf d (fun x => vs.getD (d.perTriple * q + x) 0) j) := by
  simp [mergeAll, List.getElem?_zipWith, splitAll_get d vs hq hj, List.getElem?_eq_getElem hc, mergeLane,
    List.getD_eq_getElem?_getD]

theorem mergeAll_length (d : Depth) (cs vs : List Byte) (h : cs.length = 3 * (vs.length / d.perTriple)) :
    (mergeAll d cs vs).length = cs.length := by
  simp [mergeAll, splitAll_length, h]

/-- The symbol at a place of a triple, by depth (rules R92, R93, R94). -/
def symbolOf : Depth → (Nat → Byte) → Nat → Byte
  | .two => symbolTwo
  | .four => symbolFour
  | .six => symbolSix

theorem joinAll2_get (vs : List Byte) {q x : Nat} (hq : q < vs.length / 3) (hx : x < 1) :
    (joinAll2 (vs.map fun b => b &&& 0x03))[1 * q + x]? =
      some (symbolTwo (fun j => vs.getD (3 * q + j) 0) x) := by
  obtain rfl : x = 0 := by omega
  fun_induction joinAll2 vs generalizing q with
  | case1 b0 b1 b2 rest ih =>
    cases q with
    | zero => simp [joinAll2, join2, symbolTwo]
    | succ q =>
      have := ih (q := q) (by simp at hq; omega)
      simpa [joinAll2, symbolTwo, show ∀ j, 3 * (q + 1) + j = 3 * q + j + 3 by omega,
        show 3 * (q + 1) = 3 * q + 3 by omega] using this
  | case2 vs hvs =>
    exfalso
    match vs with
    | [] | [_] | [_, _] => simp at hq
    | a :: b :: c :: l => exact hvs a b c l rfl

theorem joinAll4_get (vs : List Byte) {q x : Nat} (hq : q < vs.length / 3) (hx : x < 2) :
    (joinAll4 (vs.map fun b => b &&& 0x0F))[2 * q + x]? =
      some (symbolFour (fun j => vs.getD (3 * q + j) 0) x) := by
  fun_induction joinAll4 vs generalizing q with
  | case1 b0 b1 b2 rest s0 s1 hs ih =>
    cases q with
    | zero => interval_cases x <;> simp [joinAll4, join4, symbolFour]
    | succ q =>
      have := ih (q := q) (by simp at hq; omega)
      rw [show 2 * (q + 1) + x = 2 * q + x + 2 by omega]
      simpa [joinAll4, join4, symbolFour, show ∀ j, 3 * (q + 1) + j = 3 * q + j + 3 by omega,
        show 3 * (q + 1) = 3 * q + 3 by omega] using this
  | case2 vs hvs =>
    exfalso
    match vs with
    | [] | [_] | [_, _] => simp at hq
    | a :: b :: c :: l => exact hvs a b c l rfl

theorem joinAll6_get (vs : List Byte) {q x : Nat} (hq : q < vs.length / 3) (hx : x < 3) :
    (joinAll6 (vs.map fun b => b &&& 0x3F))[3 * q + x]? =
      some (symbolSix (fun j => vs.getD (3 * q + j) 0) x) := by
  fun_induction joinAll6 vs generalizing q with
  | case1 b0 b1 b2 rest s0 s1 s2 hs ih =>
    cases q with
    | zero => interval_cases x <;> simp [joinAll6, join6, symbolSix]
    | succ q =>
      have := ih (q := q) (by simp at hq; omega)
      rw [show 3 * (q + 1) + x = 3 * q + x + 3 by omega]
      simpa [joinAll6, join6, symbolSix, show ∀ j, 3 * (q + 1) + j = 3 * q + j + 3 by omega] using this
  | case2 vs hvs =>
    exfalso
    match vs with
    | [] | [_] | [_, _] => simp at hq
    | a :: b :: c :: l => exact hvs a b c l rfl

/-- The symbols of an extracted payload (rules R92, R93, R94). -/
theorem extractAll_get (d : Depth) (vs : List Byte) {q x : Nat} (hq : q < vs.length / 3) (hx : x < d.perTriple) :
    (extractAll d vs)[d.perTriple * q + x]? = some (symbolOf d (fun j => vs.getD (3 * q + j) 0) x) := by
  cases d
  · exact joinAll2_get vs hq hx
  · exact joinAll4_get vs hq hx
  · exact joinAll6_get vs hq hx

/-! ## What a range read gives, as the statements name it -/

/-- The values a range read gives are those of the cells. -/
theorem readRange_val {s : State} {b : Buf} {a len : Nat} {vs : List Byte} (h : readRange s b a len = .ok vs)
    {j : Nat} (hj : j < len) : vs.getD j 0 = s.val b (a + j) := by
  rw [List.getD_eq_getElem?_getD, ← ((readRange_eq_ok.1 h).2 j hj).2, State.val]

theorem readRange_length {s : State} {b : Buf} {a len : Nat} {vs : List Byte} (h : readRange s b a len = .ok vs) :
    vs.length = len := (readRange_eq_ok.1 h).1

end Sys2Proof.Machine
end

