-- ==== Sys2Proof/Laws/Effects.lean ====
section
/-! SUPPORT. What the effect of each command family does: once for what it can leave, whatever the state, and once for
what it gives where its checks pass and the cells it reads hold values. -/

namespace Sys2Proof.Machine

/-! ## What an effect can leave -/

/-- One buffer was reached from another by writes below a size. -/
inductive WritesTo (size : Nat) (m : Memory) : Memory → Prop where
  | refl : WritesTo size m m
  | write {m' : Memory} {a : Nat} (v : Byte) (h : WritesTo size m m') (ha : a < size) :
      WritesTo size m (Memory.write m' a v)

namespace WritesTo

variable {size : Nat} {m m' m'' : Memory}

theorem trans (h : WritesTo size m m') (h' : WritesTo size m' m'') : WritesTo size m m'' := by
  induction h' with
  | refl => exact h
  | write v _ ha ih => exact .write v ih ha

theorem keeps_wf (h : WritesTo size m m') (hm : Memory.wf m = true) : Memory.wf m' = true := by
  induction h with
  | refl => exact hm
  | write v _ _ ih => exact wf_write _ v ih

theorem keeps_below (h : WritesTo size m m') (hm : Memory.below size m = true) : Memory.below size m' = true := by
  induction h with
  | refl => exact hm
  | write v _ ha ih => exact below_write v ih ha

end WritesTo

theorem writeRange_wrote {s t : State} {b : Buf} {a : Nat} {vs : List Byte} (h : writeRange s b a vs = .ok t) :
    ∃ m, WritesTo (s.size b) (s.mem b) m ∧ t = s.setMem b m := by
  induction vs generalizing s a with
  | nil => simp only [writeRange, Except.ok.injEq] at h; subst h; exact ⟨_, .refl, by simp⟩
  | cons v vs ih =>
    rw [writeRange, bind_eq_ok] at h
    obtain ⟨u, hu, h⟩ := h
    unfold memWrite at hu
    split at hu
    · simp only [Except.ok.injEq] at hu
      subst hu
      rename_i ha
      obtain ⟨m, hm, rfl⟩ := ih h
      simp only [mem_setMem, size_setMem] at hm
      exact ⟨m, (WritesTo.refl.write v ha).trans hm, by simp⟩
    · cases hu

/-- PACK's effect writes PIX and sets PIXLEN. -/
theorem packEffect_wrote {s t : State} (h : packEffect s = .ok t) :
    ∃ m, WritesTo s.params.pixSize s.pix m ∧ t = { s with pix := m, pixlen := word (3 + 3 * s.n / 4) } := by
  simp only [packEffect, bind_eq_ok, Except.ok.injEq] at h
  obtain ⟨vs, -, u, hu, rfl⟩ := h
  obtain ⟨m, hm, rfl⟩ := writeRange_wrote hu
  exact ⟨m, hm, rfl⟩

/-- UNPACK's effect writes SYM and sets SYMLEN. -/
theorem unpackEffect_wrote {s t : State} (h : unpackEffect s = .ok t) :
    ∃ m, WritesTo s.params.symSize s.sym m ∧ t = { s with sym := m, symlen := word (4 * (s.p - 3) / 3) } := by
  simp only [unpackEffect, bind_eq_ok, Except.ok.injEq] at h
  obtain ⟨vs, -, u, hu, rfl⟩ := h
  obtain ⟨m, hm, rfl⟩ := writeRange_wrote hu
  exact ⟨m, hm, rfl⟩

/-- EXTRACT's effect writes SYM and sets SYMLEN. -/
theorem extractEffect_wrote {d : Depth} {s t : State} (h : extractEffect d s = .ok t) :
    ∃ m, WritesTo s.params.symSize s.sym m ∧
      t = { s with sym := m, symlen := word (d.perTriple * (s.p - 3) / 3) } := by
  simp only [extractEffect, bind_eq_ok, Except.ok.injEq] at h
  obtain ⟨vs, -, u, hu, rfl⟩ := h
  obtain ⟨m, hm, rfl⟩ := writeRange_wrote hu
  exact ⟨m, hm, rfl⟩

/-- The static header writes PIX. -/
theorem putStaticHeader_wrote {s t : State} (h : putStaticHeader s = .ok t) :
    ∃ m, WritesTo s.params.pixSize s.pix m ∧ t = { s with pix := m } :=
  writeRange_wrote h

/-- The blended header writes PIX. -/
theorem putHiddenHeader_wrote {d : Depth} {s t : State} (h : putHiddenHeader d s = .ok t) :
    ∃ m, WritesTo s.params.pixSize s.pix m ∧ t = { s with pix := m } := by
  simp only [putHiddenHeader, bind_eq_ok] at h
  obtain ⟨vs, -, hu⟩ := h
  exact writeRange_wrote hu

/-- A merged payload writes PIX. -/
theorem putPayload_wrote {d : Depth} {s t : State} (h : putPayload d s = .ok t) :
    ∃ m, WritesTo s.params.pixSize s.pix m ∧ t = { s with pix := m } := by
  simp only [putPayload, bind_eq_ok] at h
  obtain ⟨vs, -, cs, -, hu⟩ := h
  exact writeRange_wrote hu

/-- A tail writes PIX. -/
theorem putTail_wrote {a : Nat} {s t : State} (h : putTail a s = .ok t) :
    ∃ m, WritesTo s.params.pixSize s.pix m ∧ t = { s with pix := m } := by
  simp only [putTail, bind_eq_ok] at h
  obtain ⟨vs, -, hu⟩ := h
  exact writeRange_wrote hu

/-- MERGE's effect writes PIX and sets PIXLEN. -/
theorem mergeEffect_wrote {d : Depth} {s t : State} (h : mergeEffect d s = .ok t) :
    ∃ m, WritesTo s.params.pixSize s.pix m ∧ t = { s with pix := m, pixlen := word (d.required s.n) } := by
  simp only [mergeEffect, bind_eq_ok, Except.ok.injEq] at h
  obtain ⟨u, hu, rfl⟩ := h
  obtain ⟨m, hm, rfl⟩ := putPayload_wrote hu
  exact ⟨m, hm, rfl⟩

/-- ENCODE static writes PIX and sets PIXLEN. -/
theorem encodeStaticWork_wrote {s t : State} (h : encodeStaticWork s = .ok t) :
    ∃ m, WritesTo s.params.pixSize s.pix m ∧ t = { s with pix := m, pixlen := word (3 + 3 * s.n / 4) } := by
  simp only [encodeStaticWork, bind_eq_ok] at h
  obtain ⟨_, -, u, hu, ht⟩ := h
  obtain ⟨m, hm, rfl⟩ := putStaticHeader_wrote hu
  obtain ⟨m', hm', rfl⟩ := packEffect_wrote ht
  exact ⟨m', hm.trans hm', rfl⟩

/-- ENCODE hidden writes PIX and sets PIXLEN. -/
theorem encodeHiddenWork_wrote {d : Depth} {s t : State} (h : encodeHiddenWork d s = .ok t) :
    ∃ m, WritesTo s.params.pixSize s.pix m ∧ t = { s with pix := m, pixlen := s.carlen } := by
  simp only [encodeHiddenWork, bind_eq_ok, Except.ok.injEq] at h
  obtain ⟨_, -, u, hu, v, hv, x, hx, rfl⟩ := h
  obtain ⟨m, hm, rfl⟩ := putHiddenHeader_wrote hu
  obtain ⟨m', hm', rfl⟩ := putPayload_wrote hv
  obtain ⟨m'', hm'', rfl⟩ := putTail_wrote hx
  exact ⟨m'', (hm.trans hm').trans hm'', rfl⟩

/-! ## What an effect gives -/

/-- A written range, named by the state it leaves. -/
theorem writeRange_spec {s : State} {b : Buf} {a : Nat} {vs : List Byte} (h : a + vs.length ≤ s.size b) :
    ∃ m, writeRange s b a vs = .ok (s.setMem b m) ∧
      ∀ x, Memory.read m x = if a ≤ x ∧ x < a + vs.length then vs[x - a]? else s.byte b x :=
  ⟨_, writeRange_of_le h, fun x => read_writeList vs (s.mem b) a x⟩

/-- The checks of PACK pass (rule R73). -/
theorem packChecks_ok {s : State} (h : s.PackLengths) (hs : s.Symbols s.n) : packChecks s = .ok () := by
  obtain ⟨h1, h2, h3⟩ := h
  simp [packChecks, require_pos h1, require_pos h2, require_pos h3, checkSymbols_symbols h2 hs]

theorem symbols_written {s : State} {k : Nat} (h : s.Symbols k) : s.Written .sym 0 k := fun a ha _ => (h a ha).1

/-- PACK's effect (rule R73). -/
theorem packEffect_spec {s : State} (h : s.PackLengths) (hs : s.Symbols s.n) :
    ∃ m, packEffect s = .ok { s with pix := m, pixlen := word (3 + 3 * s.n / 4) } ∧
      (∀ g, g < s.n / 4 →
        Memory.read m (3 + 3 * g) = some ((s.val .sym (4 * g) <<< 2) ||| (s.val .sym (4 * g + 1) >>> 4)) ∧
        Memory.read m (3 + 3 * g + 1) =
          some (((s.val .sym (4 * g + 1) &&& 0xF) <<< 4) ||| (s.val .sym (4 * g + 2) >>> 2)) ∧
        Memory.read m (3 + 3 * g + 2) =
          some (((s.val .sym (4 * g + 2) &&& 0x3) <<< 6) ||| s.val .sym (4 * g + 3))) ∧
      ∀ a, ¬(3 ≤ a ∧ a < 3 + 3 * s.n / 4) → Memory.read m a = s.byte .pix a := by
  obtain ⟨h1, h2, h3⟩ := h
  obtain ⟨vs, hvs⟩ := readRange_written (s := s) (b := .sym) (a := 0) (hi := s.n) h2 (symbols_written hs)
  have hlen := readRange_length hvs
  rw [Nat.sub_zero] at hvs hlen
  have hp : (packAll vs).length = 3 * s.n / 4 := by rw [packAll_length, hlen]; omega
  obtain ⟨m, hm, hr⟩ := writeRange_spec (s := s) (b := .pix) (a := 3) (vs := packAll vs) (by simp [hp]; omega)
  rw [hp] at hr
  refine ⟨m, by simp [packEffect, hvs, hm, State.setMem], fun g hg => ?_, fun a ha => by rw [hr, if_neg ha]⟩
  obtain ⟨e0, e1, e2⟩ := packAll_get vs (g := g) (by omega)
  have hv : ∀ j, j < s.n → vs.getD j 0 = s.val .sym j := fun j hj => by simpa using readRange_val hvs hj
  rw [hv _ (by omega), hv _ (by omega)] at e0
  rw [hv _ (by omega), hv _ (by omega)] at e1
  rw [hv _ (by omega), hv _ (by omega)] at e2
  refine ⟨?_, ?_, ?_⟩
  · rw [hr, if_pos (by omega), show 3 + 3 * g - 3 = 3 * g by omega, e0]
  · rw [hr, if_pos (by omega), show 3 + 3 * g + 1 - 3 = 3 * g + 1 by omega, e1]
  · rw [hr, if_pos (by omega), show 3 + 3 * g + 2 - 3 = 3 * g + 2 by omega, e2]

/-- The checks of UNPACK pass (rule R74). -/
theorem unpackChecks_ok {s : State} (h : s.PixLengths 4) : unpackChecks s = .ok () := by
  obtain ⟨h1, h2, h3⟩ := h
  simp [unpackChecks, require_pos h1, require_pos h2, require_pos h3]

/-- A symbol stream written to SYM from triples of PIX, for UNPACK and EXTRACT. -/
theorem symbols_spec {s : State} {k : Nat} {symbol : (Nat → Byte) → Nat → Byte} {f : List Byte → List Byte}
    (h : s.PixLengths k) (hw : s.Written .pix 3 s.p) (hf : ∀ vs, (f vs).length = k * (vs.length / 3))
    (hg : ∀ vs q x, q < vs.length / 3 → x < k →
      (f vs)[k * q + x]? = some (symbol (fun j => vs.getD (3 * q + j) 0) x))
    (hsym : ∀ b b' x, x < k → (∀ j, j < 3 → b j = b' j) → symbol b x = symbol b' x) :
    ∃ vs m, readRange s .pix 3 (s.p - 3) = .ok vs ∧ writeRange s .sym 0 (f vs) = .ok (s.setMem .sym m) ∧
      (∀ q x, q < (s.p - 3) / 3 → x < k →
        Memory.read m (k * q + x) = some (symbol (fun j => s.val .pix (3 + 3 * q + j)) x)) ∧
      ∀ a, ¬(0 ≤ a ∧ a < k * (s.p - 3) / 3) → Memory.read m a = s.byte .sym a := by
  obtain ⟨⟨h0, h1⟩, h2, h3⟩ := h
  obtain ⟨vs, hvs⟩ := readRange_written (s := s) (b := .pix) h2 hw
  have hlen := readRange_length hvs
  have hl : (f vs).length = k * (s.p - 3) / 3 := by rw [hf, hlen, symbols_eq k h1]
  obtain ⟨m, hm, hr⟩ := writeRange_spec (s := s) (b := .sym) (a := 0) (vs := f vs) (by simp [hl]; omega)
  rw [hl] at hr
  refine ⟨vs, m, hvs, hm, fun q x hq hx => ?_, fun a ha => by rw [hr, if_neg (by simpa using ha)]⟩
  have hb : k * q + x < k * (s.p - 3) / 3 := by
    rw [symbols_eq k h1]
    calc k * q + x < k * q + k := by omega
      _ = k * (q + 1) := by ring
      _ ≤ k * ((s.p - 3) / 3) := Nat.mul_le_mul_left _ hq
  rw [hr, if_pos ⟨Nat.zero_le _, by simpa using hb⟩, Nat.sub_zero, hg vs q x (by omega) hx]
  refine congrArg some (hsym _ _ x hx fun j hj => ?_)
  rw [readRange_val hvs (by omega)]
  congr 1; omega

theorem symbolStatic_congr (b b' : Nat → Byte) (x : Nat) (_ : x < 4) (h : ∀ j, j < 3 → b j = b' j) :
    symbolStatic b x = symbolStatic b' x := by
  simp [symbolStatic, h 0 (by omega), h 1 (by omega), h 2 (by omega)]

theorem symbolOf_congr (d : Depth) (b b' : Nat → Byte) (x : Nat) (hx : x < d.perTriple)
    (h : ∀ j, j < 3 → b j = b' j) : symbolOf d b x = symbolOf d b' x := by
  cases d
  · simp [symbolOf, symbolTwo, h 0 (by omega), h 1 (by omega), h 2 (by omega)]
  · simp [symbolOf, symbolFour, h 0 (by omega), h 1 (by omega), h 2 (by omega)]
  · simp only [Depth.perTriple] at hx
    simp [symbolOf, symbolSix, h x hx]

/-- UNPACK's effect (rule R74). -/
theorem unpackEffect_spec {s : State} (h : s.PixLengths 4) (hw : s.Written .pix 3 s.p) :
    ∃ m, unpackEffect s = .ok { s with sym := m, symlen := word (4 * (s.p - 3) / 3) } ∧
      (∀ q x, q < (s.p - 3) / 3 → x < 4 →
        Memory.read m (4 * q + x) = some (symbolStatic (fun j => s.val .pix (3 + 3 * q + j)) x)) ∧
      ∀ a, ¬(0 ≤ a ∧ a < 4 * (s.p - 3) / 3) → Memory.read m a = s.byte .sym a := by
  obtain ⟨vs, m, hvs, hm, hr⟩ := symbols_spec h hw unpackAll_length (fun vs _ _ => unpackAll_get vs) symbolStatic_congr
  exact ⟨m, by simp [unpackEffect, hvs, hm, State.setMem], hr⟩

/-- The checks of EXTRACT.d pass (rule R97). -/
theorem extractChecks_ok {d : Depth} {s : State} (h : s.PixLengths d.perTriple) : extractChecks d s = .ok () := by
  obtain ⟨h1, h2, h3⟩ := h
  simp [extractChecks, require_pos h1, require_pos h2, require_pos h3]

/-- EXTRACT's effect (rules R92, R93, R94). -/
theorem extractEffect_spec {d : Depth} {s : State} (h : s.PixLengths d.perTriple) (hw : s.Written .pix 3 s.p) :
    ∃ m, extractEffect d s = .ok { s with sym := m, symlen := word (d.perTriple * (s.p - 3) / 3) } ∧
      (∀ q x, q < (s.p - 3) / 3 → x < d.perTriple →
        Memory.read m (d.perTriple * q + x) = some (symbolOf d (fun j => s.val .pix (3 + 3 * q + j)) x)) ∧
      ∀ a, ¬(0 ≤ a ∧ a < d.perTriple * (s.p - 3) / 3) → Memory.read m a = s.byte .sym a := by
  obtain ⟨vs, m, hvs, hm, hr⟩ :=
    symbols_spec h hw (extractAll_length d) (fun vs _ _ => extractAll_get d vs) (symbolOf_congr d)
  exact ⟨m, by simp [extractEffect, hvs, hm, State.setMem], hr⟩

/-- The checks of MERGE.d pass (rule R96). -/
theorem mergeChecks_ok {d : Depth} {s : State} (h : s.MergeLengths d.align (d.required s.n)) (hs : s.Symbols s.n) :
    mergeChecks d s = .ok () := by
  obtain ⟨h1, h2, h3, h4, h5, h6⟩ := h
  simp [mergeChecks, require_pos h1, require_pos h2, require_pos h3, require_pos h4, require_pos h5, require_pos h6,
    checkSymbols_symbols h3 hs]

theorem groupOf_congr (d : Depth) (f f' : Nat → Byte) (j : Nat) (hj : j < 3)
    (h : ∀ x, x < d.perTriple → f x = f' x) : groupOf d f j = groupOf d f' j := by
  cases d
  · simp [groupOf, groupTwo, h 0 (by decide)]
  · simp [groupOf, groupFour, h 0 (by decide), h 1 (by decide)]
  · simp only [Depth.perTriple] at h
    simp [groupOf, groupSix, h j hj]

/-- The payload of a merge (rules R86, R89, R90, R91). -/
theorem putPayload_spec {d : Depth} {s : State} (h : s.MergeLengths d.align (d.required s.n)) (hs : s.Symbols s.n)
    (hw : s.Written .car 3 (d.required s.n)) :
    ∃ m, putPayload d s = .ok { s with pix := m } ∧
      (∀ q j, q < s.n / d.perTriple → j < 3 → Memory.read m (3 + 3 * q + j) =
        some ((s.val .car (3 + 3 * q + j) &&& d.hi) |||
          groupOf d (fun x => s.val .sym (d.perTriple * q + x)) j)) ∧
      ∀ a, ¬(3 ≤ a ∧ a < d.required s.n) → Memory.read m a = s.byte .pix a := by
  obtain ⟨h1, h2, h3, h4, h5, h6⟩ := h
  have hpay := payload_eq d h1
  have hreq : d.required s.n = 3 + d.payload s.n := rfl
  obtain ⟨vs, hvs⟩ := readRange_written (s := s) (b := .sym) (a := 0) (hi := s.n) h3 (symbols_written hs)
  have hlen := readRange_length hvs
  rw [Nat.sub_zero] at hvs hlen
  obtain ⟨cs, hcs⟩ := readRange_written (s := s) (b := .car) (a := 3) (hi := d.required s.n)
    (by simp only [size_car]; omega) hw
  rw [hreq, Nat.add_sub_cancel_left] at hcs
  have hclen := readRange_length hcs
  have hml : (mergeAll d cs vs).length = d.payload s.n := by
    rw [mergeAll_length d cs vs (by rw [hclen, hlen, hpay]), hclen]
  obtain ⟨m, hm, hr⟩ := writeRange_spec (s := s) (b := .pix) (a := 3) (vs := mergeAll d cs vs)
    (by simp only [hml, size_pix]; omega)
  rw [hml] at hr
  refine ⟨m, by simp [putPayload, hvs, hcs, hm, State.setMem], fun q j hq hj => ?_,
    fun a ha => by rw [hr, if_neg (by omega)]⟩
  have hb : 3 * q + j < d.payload s.n := by omega
  rw [hr, if_pos (by omega), show 3 + 3 * q + j - 3 = 3 * q + j by omega,
    mergeAll_get d cs vs (by rw [hlen]; exact hq) hj (by omega), readRange_val hcs hb]
  have hk : 0 < d.perTriple := by cases d <;> decide
  refine congrArg some (congrArg₂ _ (by rw [show 3 + (3 * q + j) = 3 + 3 * q + j by omega])
    (groupOf_congr d _ _ j hj fun x hx => ?_))
  have hqx : d.perTriple * q + x < s.n := by
    calc d.perTriple * q + x < d.perTriple * (q + 1) := by rw [Nat.mul_succ]; omega
      _ ≤ d.perTriple * (s.n / d.perTriple) := Nat.mul_le_mul_left _ hq
      _ ≤ s.n := Nat.mul_div_le _ _
  rw [readRange_val hvs hqx, Nat.zero_add]

/-- The tail (rule R95). -/
theorem putTail_spec {a : Nat} {s : State} (h1 : s.c ≤ s.params.carSize) (h2 : s.c ≤ s.params.pixSize)
    (ha : a ≤ s.c) (hw : s.Written .car a s.c) :
    ∃ m, putTail a s = .ok { s with pix := m } ∧
      (∀ x, a ≤ x → x < s.c → Memory.read m x = some (s.val .car x &&& 0xFC)) ∧
      ∀ x, ¬(a ≤ x ∧ x < s.c) → Memory.read m x = s.byte .pix x := by
  obtain ⟨cs, hcs⟩ := readRange_written (s := s) (b := .car) h1 hw
  have hlen := readRange_length hcs
  obtain ⟨m, hm, hr⟩ := writeRange_spec (s := s) (b := .pix) (a := a) (vs := cs.map tailByte)
    (by simp only [List.length_map, size_pix]; omega)
  simp only [List.length_map, hlen] at hr
  refine ⟨m, by simp [putTail, hcs, hm, State.setMem], fun x hx hxc => ?_, fun x hx => by rw [hr, if_neg (by omega)]⟩
  have hv := readRange_val hcs (j := x - a) (by omega)
  rw [show a + (x - a) = x by omega, List.getD_eq_getElem?_getD,
    List.getElem?_eq_getElem (by omega : x - a < cs.length), Option.getD_some] at hv
  rw [hr, if_pos (by omega), List.getElem?_map, List.getElem?_eq_getElem (by omega : x - a < cs.length),
    Option.map_some, hv]
  rfl

/-- The static header (rules R100, R103). -/
theorem putStaticHeader_spec {s : State} (h : 3 ≤ s.params.pixSize) :
    ∃ m, putStaticHeader s = .ok { s with pix := m } ∧ Memory.read m 0 = some 1 ∧ Memory.read m 1 = some 0 ∧
      Memory.read m 2 = some 1 ∧ ∀ x, ¬(0 ≤ x ∧ x < 3) → Memory.read m x = s.byte .pix x := by
  obtain ⟨m, hm, hr⟩ := writeRange_spec (s := s) (b := .pix) (a := 0) (vs := tag modeStatic 0)
    (by simpa [tag] using h)
  simp only [tag, List.length_cons, List.length_nil, Nat.zero_add, Nat.zero_le, true_and] at hr
  refine ⟨m, hm, by rw [hr]; rfl, by rw [hr]; rfl, by rw [hr]; rfl, fun x hx => by rw [hr, if_neg (by omega)]⟩

/-- The blended header (rules R101, R103). -/
theorem putHiddenHeader_spec {d : Depth} {s : State} (hp : 3 ≤ s.params.pixSize) (hc : 3 ≤ s.params.carSize)
    (hw : s.Written .car 0 3) :
    ∃ m, putHiddenHeader d s = .ok { s with pix := m } ∧
      Memory.read m 0 = some ((s.val .car 0 &&& 0xF8) ||| 2) ∧
      Memory.read m 1 = some ((s.val .car 1 &&& 0xF8) ||| d.code.setWidth 8) ∧
      Memory.read m 2 = some ((s.val .car 2 &&& 0xF8) ||| 1) ∧
      ∀ x, ¬(0 ≤ x ∧ x < 3) → Memory.read m x = s.byte .pix x := by
  obtain ⟨cs, hcs⟩ := readRange_written (s := s) (b := .car) (a := 0) (hi := 3) hc hw
  have hlen := readRange_length hcs
  have hv : ∀ j, j < 3 → cs.getD j 0 = s.val .car j := fun j hj => by simpa using readRange_val hcs hj
  obtain ⟨c0, c1, c2, rfl⟩ := List.length_eq_three.1 hlen
  have h0 : c0 = s.val .car 0 := by simpa using hv 0 (by omega)
  have h1 : c1 = s.val .car 1 := by simpa using hv 1 (by omega)
  have h2 : c2 = s.val .car 2 := by simpa using hv 2 (by omega)
  obtain ⟨m, hm, hr⟩ := writeRange_spec (s := s) (b := .pix) (a := 0)
    (vs := List.zipWith blend [c0, c1, c2] (tag modeHidden d.code)) (by simpa [tag] using hp)
  simp only [tag, List.zipWith, List.length_cons, List.length_nil, Nat.zero_add, Nat.zero_le, true_and] at hr
  refine ⟨m, ?_, by rw [hr, ← h0]; rfl, by rw [hr, ← h1]; rfl, by rw [hr, ← h2]; rfl,
    fun x hx => by rw [hr, if_neg (by omega)]⟩
  rw [putHiddenHeader, hcs, bind_ok, hm]
  rfl

/-- The header read back (rule R102). -/
theorem readHeader_spec {s : State} (hp : 3 ≤ s.params.pixSize) (hw : s.Written .pix 0 3) :
    readHeader s = .ok (headerFields (s.val .pix 0) (s.val .pix 1) (s.val .pix 2)) := by
  have hv : ∀ a, a < 3 → memRead s .pix a = .ok (s.val .pix a) := fun a ha => by
    obtain ⟨v, hv⟩ := Option.ne_none_iff_exists'.1 (hw a ha (Nat.zero_le _))
    exact memRead_eq_ok.2 ⟨by simp only [size_pix]; omega, by simp [State.val, hv]⟩
  simp [readHeader, hv 0 (by omega), hv 1 (by omega), hv 2 (by omega)]

/-- The header fields as the statements name them. -/
theorem headerFields_val (s : State) :
    headerFields (s.val .pix 0) (s.val .pix 1) (s.val .pix 2) = s.headerOf := by
  have h : ∀ v : Byte, v.setWidth 3 = BitVec.ofNat 3 (v.toNat % 8) := fun v => by
    apply BitVec.eq_of_toNat_eq
    simp
  simp only [headerFields, State.headerOf, State.low3, h]

end Sys2Proof.Machine
end

