-- ==== Sys2Proof/Laws/Commands.lean ====
section
/-! SUPPORT. What any command can do: the one inversion of `exec`, and of a step. -/

namespace Sys2Proof.Machine

/-- What the work of a command, come out right, can have changed in the state: nothing; PIX and PIXLEN; SYM, SYMLEN and
HDR; or HDR alone. -/
inductive Worked (s : State) : State → Prop where
  | nothing : Worked s s
  | pix {m : Memory} (p : Word) (h : WritesTo s.params.pixSize s.pix m) : Worked s { s with pix := m, pixlen := p }
  | sym {m : Memory} (n : Word) (hdr : Hdr) (h : WritesTo s.params.symSize s.sym m) :
      Worked s { s with sym := m, symlen := n, hdr := hdr }
  | hdr (hdr : Hdr) : Worked s { s with hdr := hdr }

theorem hdrput_worked {m d : BitVec 3} {s t : State} (h : hdrput m d s = .next t) :
    (∃ e x, t = raiseError e x s) ∨ ∃ u, Worked s u ∧ t = succeed u := by
  rcases runCommand_eq_next h with ⟨u, hu, rfl⟩ | ⟨e, x, -, rfl⟩
  · refine .inr ⟨u, ?_, rfl⟩
    obtain ⟨c, -, hu⟩ := bind_eq_ok.1 hu
    cases c with
    | static =>
      obtain ⟨m, hm, rfl⟩ := putStaticHeader_wrote hu
      exact .pix s.pixlen hm
    | hidden d =>
      simp only [bind_eq_ok] at hu
      obtain ⟨-, -, -, -, hu⟩ := hu
      obtain ⟨m, hm, rfl⟩ := putHiddenHeader_wrote hu
      exact .pix s.pixlen hm
  · exact .inl ⟨e, x, rfl⟩

theorem hdrget_worked {s t : State} (h : hdrget s = .next t) :
    (∃ e x, t = raiseError e x s) ∨ ∃ u, Worked s u ∧ t = succeed u := by
  rcases runCommand_eq_next h with ⟨u, hu, rfl⟩ | ⟨e, x, -, rfl⟩
  · simp only [bind_eq_ok, Except.ok.injEq] at hu
    obtain ⟨-, -, v, -, rfl⟩ := hu
    exact .inr ⟨_, .hdr v, rfl⟩
  · exact .inl ⟨e, x, rfl⟩

theorem pack_worked {s t : State} (h : execPack s = .next t) :
    (∃ e x, t = raiseError e x s) ∨ ∃ u, Worked s u ∧ t = succeed u := by
  rcases runCommand_eq_next h with ⟨u, hu, rfl⟩ | ⟨e, x, -, rfl⟩
  · obtain ⟨-, -, hu⟩ := bind_eq_ok.1 hu
    obtain ⟨m, hm, rfl⟩ := packEffect_wrote hu
    exact .inr ⟨_, .pix _ hm, rfl⟩
  · exact .inl ⟨e, x, rfl⟩

theorem unpack_worked {s t : State} (h : execUnpack s = .next t) :
    (∃ e x, t = raiseError e x s) ∨ ∃ u, Worked s u ∧ t = succeed u := by
  rcases runCommand_eq_next h with ⟨u, hu, rfl⟩ | ⟨e, x, -, rfl⟩
  · obtain ⟨-, -, hu⟩ := bind_eq_ok.1 hu
    obtain ⟨m, hm, rfl⟩ := unpackEffect_wrote hu
    exact .inr ⟨_, .sym _ s.hdr hm, rfl⟩
  · exact .inl ⟨e, x, rfl⟩

theorem merge_worked {d : BitVec 3} {s t : State} (h : merge d s = .next t) :
    (∃ e x, t = raiseError e x s) ∨ ∃ u, Worked s u ∧ t = succeed u := by
  rcases runCommand_eq_next h with ⟨u, hu, rfl⟩ | ⟨e, x, -, rfl⟩
  · simp only [bind_eq_ok] at hu
    obtain ⟨_, -, -, -, hu⟩ := hu
    obtain ⟨m, hm, rfl⟩ := mergeEffect_wrote hu
    exact .inr ⟨_, .pix _ hm, rfl⟩
  · exact .inl ⟨e, x, rfl⟩

theorem extract_worked {d : BitVec 3} {s t : State} (h : extract d s = .next t) :
    (∃ e x, t = raiseError e x s) ∨ ∃ u, Worked s u ∧ t = succeed u := by
  rcases runCommand_eq_next h with ⟨u, hu, rfl⟩ | ⟨e, x, -, rfl⟩
  · simp only [bind_eq_ok] at hu
    obtain ⟨_, -, -, -, hu⟩ := hu
    obtain ⟨m, hm, rfl⟩ := extractEffect_wrote hu
    exact .inr ⟨_, .sym _ s.hdr hm, rfl⟩
  · exact .inl ⟨e, x, rfl⟩

theorem tail_worked {s t : State} (h : tailCommand s = .next t) :
    (∃ e x, t = raiseError e x s) ∨ ∃ u, Worked s u ∧ t = succeed u := by
  rcases runCommand_eq_next h with ⟨u, hu, rfl⟩ | ⟨e, x, -, rfl⟩
  · simp only [bind_eq_ok, Except.ok.injEq] at hu
    obtain ⟨-, -, -, -, -, -, -, -, v, hv, rfl⟩ := hu
    obtain ⟨m, hm, rfl⟩ := putTail_wrote hv
    exact .inr ⟨_, .pix _ hm, rfl⟩
  · exact .inl ⟨e, x, rfl⟩

theorem encode_worked {m d : BitVec 3} {s t : State} (h : encodeCommand m d s = .next t) :
    (∃ e x, t = raiseError e x s) ∨ ∃ u, Worked s u ∧ t = succeed u := by
  rcases runCommand_eq_next h with ⟨u, hu, rfl⟩ | ⟨e, x, -, rfl⟩
  · refine .inr ⟨u, ?_, rfl⟩
    obtain ⟨c, -, hu⟩ := bind_eq_ok.1 hu
    cases c with
    | static =>
      obtain ⟨m, hm, rfl⟩ := encodeStaticWork_wrote hu
      exact .pix _ hm
    | hidden d =>
      obtain ⟨m, hm, rfl⟩ := encodeHiddenWork_wrote hu
      exact .pix _ hm
  · exact .inl ⟨e, x, rfl⟩

theorem decode_worked {s t : State} (h : decodeCommand s = .next t) :
    (∃ e x, t = raiseError e x s) ∨ ∃ u, Worked s u ∧ t = succeed u := by
  rcases runCommand_eq_next h with ⟨u, hu, rfl⟩ | ⟨e, x, -, rfl⟩
  · refine .inr ⟨u, ?_, rfl⟩
    simp only [bind_eq_ok] at hu
    obtain ⟨-, -, v, -, -, -, -, -, c, -, hu⟩ := hu
    cases c with
    | static =>
      simp only [bind_eq_ok, Except.ok.injEq] at hu
      obtain ⟨-, -, w, hw, rfl⟩ := hu
      obtain ⟨m, hm, rfl⟩ := unpackEffect_wrote hw
      exact .sym _ v hm
    | hidden d =>
      simp only [bind_eq_ok, Except.ok.injEq] at hu
      obtain ⟨-, -, w, hw, rfl⟩ := hu
      obtain ⟨m, hm, rfl⟩ := extractEffect_wrote hw
      exact .sym _ v hm
  · exact .inl ⟨e, x, rfl⟩

/-! ## The shared command behind each arm -/

theorem exec_nop (s : State) : exec .nop s = runCommand s (.ok s) := rfl
theorem exec_hdrputStatic8 (s : State) : exec .hdrputStatic8 s = hdrput modeStatic 0 s := rfl
theorem exec_hdrputStatic1 (s : State) : exec .hdrputStatic1 s = hdrput modeStatic 1 s := rfl
theorem exec_hdrputStatic2 (s : State) : exec .hdrputStatic2 s = hdrput modeStatic 2 s := rfl
theorem exec_hdrputStatic3 (s : State) : exec .hdrputStatic3 s = hdrput modeStatic 3 s := rfl
theorem exec_hdrputStatic4 (s : State) : exec .hdrputStatic4 s = hdrput modeStatic 4 s := rfl
theorem exec_hdrputStatic5 (s : State) : exec .hdrputStatic5 s = hdrput modeStatic 5 s := rfl
theorem exec_hdrputStatic6 (s : State) : exec .hdrputStatic6 s = hdrput modeStatic 6 s := rfl
theorem exec_hdrputStatic7 (s : State) : exec .hdrputStatic7 s = hdrput modeStatic 7 s := rfl
theorem exec_hdrputHidden8 (s : State) : exec .hdrputHidden8 s = hdrput modeHidden 0 s := rfl
theorem exec_hdrputHidden1 (s : State) : exec .hdrputHidden1 s = hdrput modeHidden 1 s := rfl
theorem exec_hdrputHidden2 (s : State) : exec .hdrputHidden2 s = hdrput modeHidden 2 s := rfl
theorem exec_hdrputHidden3 (s : State) : exec .hdrputHidden3 s = hdrput modeHidden 3 s := rfl
theorem exec_hdrputHidden4 (s : State) : exec .hdrputHidden4 s = hdrput modeHidden 4 s := rfl
theorem exec_hdrputHidden5 (s : State) : exec .hdrputHidden5 s = hdrput modeHidden 5 s := rfl
theorem exec_hdrputHidden6 (s : State) : exec .hdrputHidden6 s = hdrput modeHidden 6 s := rfl
theorem exec_hdrputHidden7 (s : State) : exec .hdrputHidden7 s = hdrput modeHidden 7 s := rfl
theorem exec_hdrget (s : State) : exec .hdrget s = hdrget s := rfl
theorem exec_pack (s : State) : exec .pack s = execPack s := rfl
theorem exec_unpack (s : State) : exec .unpack s = execUnpack s := rfl
theorem exec_merge8 (s : State) : exec .merge8 s = merge 0 s := rfl
theorem exec_merge1 (s : State) : exec .merge1 s = merge 1 s := rfl
theorem exec_merge2 (s : State) : exec .merge2 s = merge 2 s := rfl
theorem exec_merge3 (s : State) : exec .merge3 s = merge 3 s := rfl
theorem exec_merge4 (s : State) : exec .merge4 s = merge 4 s := rfl
theorem exec_merge5 (s : State) : exec .merge5 s = merge 5 s := rfl
theorem exec_merge6 (s : State) : exec .merge6 s = merge 6 s := rfl
theorem exec_merge7 (s : State) : exec .merge7 s = merge 7 s := rfl
theorem exec_extract8 (s : State) : exec .extract8 s = extract 0 s := rfl
theorem exec_extract1 (s : State) : exec .extract1 s = extract 1 s := rfl
theorem exec_extract2 (s : State) : exec .extract2 s = extract 2 s := rfl
theorem exec_extract3 (s : State) : exec .extract3 s = extract 3 s := rfl
theorem exec_extract4 (s : State) : exec .extract4 s = extract 4 s := rfl
theorem exec_extract5 (s : State) : exec .extract5 s = extract 5 s := rfl
theorem exec_extract6 (s : State) : exec .extract6 s = extract 6 s := rfl
theorem exec_extract7 (s : State) : exec .extract7 s = extract 7 s := rfl
theorem exec_tail (s : State) : exec .tail s = tailCommand s := rfl
theorem exec_encodeStatic8 (s : State) : exec .encodeStatic8 s = encodeCommand modeStatic 0 s := rfl
theorem exec_encodeStatic1 (s : State) : exec .encodeStatic1 s = encodeCommand modeStatic 1 s := rfl
theorem exec_encodeStatic2 (s : State) : exec .encodeStatic2 s = encodeCommand modeStatic 2 s := rfl
theorem exec_encodeStatic3 (s : State) : exec .encodeStatic3 s = encodeCommand modeStatic 3 s := rfl
theorem exec_encodeStatic4 (s : State) : exec .encodeStatic4 s = encodeCommand modeStatic 4 s := rfl
theorem exec_encodeStatic5 (s : State) : exec .encodeStatic5 s = encodeCommand modeStatic 5 s := rfl
theorem exec_encodeStatic6 (s : State) : exec .encodeStatic6 s = encodeCommand modeStatic 6 s := rfl
theorem exec_encodeStatic7 (s : State) : exec .encodeStatic7 s = encodeCommand modeStatic 7 s := rfl
theorem exec_encodeHidden8 (s : State) : exec .encodeHidden8 s = encodeCommand modeHidden 0 s := rfl
theorem exec_encodeHidden1 (s : State) : exec .encodeHidden1 s = encodeCommand modeHidden 1 s := rfl
theorem exec_encodeHidden2 (s : State) : exec .encodeHidden2 s = encodeCommand modeHidden 2 s := rfl
theorem exec_encodeHidden3 (s : State) : exec .encodeHidden3 s = encodeCommand modeHidden 3 s := rfl
theorem exec_encodeHidden4 (s : State) : exec .encodeHidden4 s = encodeCommand modeHidden 4 s := rfl
theorem exec_encodeHidden5 (s : State) : exec .encodeHidden5 s = encodeCommand modeHidden 5 s := rfl
theorem exec_encodeHidden6 (s : State) : exec .encodeHidden6 s = encodeCommand modeHidden 6 s := rfl
theorem exec_encodeHidden7 (s : State) : exec .encodeHidden7 s = encodeCommand modeHidden 7 s := rfl
theorem exec_decode (s : State) : exec .decode s = decodeCommand s := rfl

/-- What any command's next state can be: an error report over the state it started from, or the success epilogue over
a state in which its work changed no more than `Worked` says. -/
theorem exec_next_cases {i : Instr} {s t : State} (h : exec i s = .next t) :
    (∃ e x, t = raiseError e x s) ∨ ∃ u, Worked s u ∧ t = succeed u := by
  cases i
  case nop => exact .inr ⟨s, .nothing, by cases h; rfl⟩
  case hdrget => exact hdrget_worked h
  case pack => exact pack_worked h
  case unpack => exact unpack_worked h
  case tail => exact tail_worked h
  case decode => exact decode_worked h
  case hdrputStatic8 => exact hdrput_worked (exec_hdrputStatic8 s ▸ h)
  case hdrputStatic1 => exact hdrput_worked (exec_hdrputStatic1 s ▸ h)
  case hdrputStatic2 => exact hdrput_worked (exec_hdrputStatic2 s ▸ h)
  case hdrputStatic3 => exact hdrput_worked (exec_hdrputStatic3 s ▸ h)
  case hdrputStatic4 => exact hdrput_worked (exec_hdrputStatic4 s ▸ h)
  case hdrputStatic5 => exact hdrput_worked (exec_hdrputStatic5 s ▸ h)
  case hdrputStatic6 => exact hdrput_worked (exec_hdrputStatic6 s ▸ h)
  case hdrputStatic7 => exact hdrput_worked (exec_hdrputStatic7 s ▸ h)
  case hdrputHidden8 => exact hdrput_worked (exec_hdrputHidden8 s ▸ h)
  case hdrputHidden1 => exact hdrput_worked (exec_hdrputHidden1 s ▸ h)
  case hdrputHidden2 => exact hdrput_worked (exec_hdrputHidden2 s ▸ h)
  case hdrputHidden3 => exact hdrput_worked (exec_hdrputHidden3 s ▸ h)
  case hdrputHidden4 => exact hdrput_worked (exec_hdrputHidden4 s ▸ h)
  case hdrputHidden5 => exact hdrput_worked (exec_hdrputHidden5 s ▸ h)
  case hdrputHidden6 => exact hdrput_worked (exec_hdrputHidden6 s ▸ h)
  case hdrputHidden7 => exact hdrput_worked (exec_hdrputHidden7 s ▸ h)
  case merge8 => exact merge_worked (exec_merge8 s ▸ h)
  case merge1 => exact merge_worked (exec_merge1 s ▸ h)
  case merge2 => exact merge_worked (exec_merge2 s ▸ h)
  case merge3 => exact merge_worked (exec_merge3 s ▸ h)
  case merge4 => exact merge_worked (exec_merge4 s ▸ h)
  case merge5 => exact merge_worked (exec_merge5 s ▸ h)
  case merge6 => exact merge_worked (exec_merge6 s ▸ h)
  case merge7 => exact merge_worked (exec_merge7 s ▸ h)
  case extract8 => exact extract_worked (exec_extract8 s ▸ h)
  case extract1 => exact extract_worked (exec_extract1 s ▸ h)
  case extract2 => exact extract_worked (exec_extract2 s ▸ h)
  case extract3 => exact extract_worked (exec_extract3 s ▸ h)
  case extract4 => exact extract_worked (exec_extract4 s ▸ h)
  case extract5 => exact extract_worked (exec_extract5 s ▸ h)
  case extract6 => exact extract_worked (exec_extract6 s ▸ h)
  case extract7 => exact extract_worked (exec_extract7 s ▸ h)
  case encodeStatic8 => exact encode_worked (exec_encodeStatic8 s ▸ h)
  case encodeStatic1 => exact encode_worked (exec_encodeStatic1 s ▸ h)
  case encodeStatic2 => exact encode_worked (exec_encodeStatic2 s ▸ h)
  case encodeStatic3 => exact encode_worked (exec_encodeStatic3 s ▸ h)
  case encodeStatic4 => exact encode_worked (exec_encodeStatic4 s ▸ h)
  case encodeStatic5 => exact encode_worked (exec_encodeStatic5 s ▸ h)
  case encodeStatic6 => exact encode_worked (exec_encodeStatic6 s ▸ h)
  case encodeStatic7 => exact encode_worked (exec_encodeStatic7 s ▸ h)
  case encodeHidden8 => exact encode_worked (exec_encodeHidden8 s ▸ h)
  case encodeHidden1 => exact encode_worked (exec_encodeHidden1 s ▸ h)
  case encodeHidden2 => exact encode_worked (exec_encodeHidden2 s ▸ h)
  case encodeHidden3 => exact encode_worked (exec_encodeHidden3 s ▸ h)
  case encodeHidden4 => exact encode_worked (exec_encodeHidden4 s ▸ h)
  case encodeHidden5 => exact encode_worked (exec_encodeHidden5 s ▸ h)
  case encodeHidden6 => exact encode_worked (exec_encodeHidden6 s ▸ h)
  case encodeHidden7 => exact encode_worked (exec_encodeHidden7 s ▸ h)

/-- What one step can do, by the host's next move. -/
theorem step_next_cases {s t : State} (h : step s = .next t) :
    (s.pending = [] ∧ t = s) ∨
      ∃ a rest, s.pending = a :: rest ∧ serve a { s with pending := rest } = .next t := by
  rw [step, serveNext] at h
  cases hp : s.pending with
  | nil => rw [hp] at h; cases h; exact .inl ⟨rfl, rfl⟩
  | cons a rest => rw [hp] at h; exact .inr ⟨a, rest, rfl, h⟩

end Sys2Proof.Machine
end

