-- ==== Sys2Proof/Laws/PerInstr.lean ====
section
/-! SUPPORT. Two facts about every command as syntax, one lemma per constructor: the fields of its word are those the
opcode map gives it and are well-formed, and its word decodes to it. -/

namespace Sys2Proof.Laws

/-- The literal word of the opcode table has the fields of the opcode map (rules R51, R55), which are well-formed (rule
R56). -/
def EncodeFields.Statement (i : Instr) : Prop := fieldsOf (encode i) = i.fields ∧ i.WellFormed

/-- The word of a command decodes to it (rules R55, R63). -/
def DecodeEncode.Statement (i : Instr) : Prop := decode (encode i) = .ok i

theorem EncodeFields.nop : EncodeFields.Statement .nop := ⟨by decide, by decide⟩
theorem EncodeFields.hdrputStatic8 : EncodeFields.Statement .hdrputStatic8 := ⟨by decide, by decide⟩
theorem EncodeFields.hdrputStatic1 : EncodeFields.Statement .hdrputStatic1 := ⟨by decide, by decide⟩
theorem EncodeFields.hdrputStatic2 : EncodeFields.Statement .hdrputStatic2 := ⟨by decide, by decide⟩
theorem EncodeFields.hdrputStatic3 : EncodeFields.Statement .hdrputStatic3 := ⟨by decide, by decide⟩
theorem EncodeFields.hdrputStatic4 : EncodeFields.Statement .hdrputStatic4 := ⟨by decide, by decide⟩
theorem EncodeFields.hdrputStatic5 : EncodeFields.Statement .hdrputStatic5 := ⟨by decide, by decide⟩
theorem EncodeFields.hdrputStatic6 : EncodeFields.Statement .hdrputStatic6 := ⟨by decide, by decide⟩
theorem EncodeFields.hdrputStatic7 : EncodeFields.Statement .hdrputStatic7 := ⟨by decide, by decide⟩
theorem EncodeFields.hdrputHidden8 : EncodeFields.Statement .hdrputHidden8 := ⟨by decide, by decide⟩
theorem EncodeFields.hdrputHidden1 : EncodeFields.Statement .hdrputHidden1 := ⟨by decide, by decide⟩
theorem EncodeFields.hdrputHidden2 : EncodeFields.Statement .hdrputHidden2 := ⟨by decide, by decide⟩
theorem EncodeFields.hdrputHidden3 : EncodeFields.Statement .hdrputHidden3 := ⟨by decide, by decide⟩
theorem EncodeFields.hdrputHidden4 : EncodeFields.Statement .hdrputHidden4 := ⟨by decide, by decide⟩
theorem EncodeFields.hdrputHidden5 : EncodeFields.Statement .hdrputHidden5 := ⟨by decide, by decide⟩
theorem EncodeFields.hdrputHidden6 : EncodeFields.Statement .hdrputHidden6 := ⟨by decide, by decide⟩
theorem EncodeFields.hdrputHidden7 : EncodeFields.Statement .hdrputHidden7 := ⟨by decide, by decide⟩
theorem EncodeFields.hdrget : EncodeFields.Statement .hdrget := ⟨by decide, by decide⟩
theorem EncodeFields.pack : EncodeFields.Statement .pack := ⟨by decide, by decide⟩
theorem EncodeFields.unpack : EncodeFields.Statement .unpack := ⟨by decide, by decide⟩
theorem EncodeFields.merge8 : EncodeFields.Statement .merge8 := ⟨by decide, by decide⟩
theorem EncodeFields.merge1 : EncodeFields.Statement .merge1 := ⟨by decide, by decide⟩
theorem EncodeFields.merge2 : EncodeFields.Statement .merge2 := ⟨by decide, by decide⟩
theorem EncodeFields.merge3 : EncodeFields.Statement .merge3 := ⟨by decide, by decide⟩
theorem EncodeFields.merge4 : EncodeFields.Statement .merge4 := ⟨by decide, by decide⟩
theorem EncodeFields.merge5 : EncodeFields.Statement .merge5 := ⟨by decide, by decide⟩
theorem EncodeFields.merge6 : EncodeFields.Statement .merge6 := ⟨by decide, by decide⟩
theorem EncodeFields.merge7 : EncodeFields.Statement .merge7 := ⟨by decide, by decide⟩
theorem EncodeFields.extract8 : EncodeFields.Statement .extract8 := ⟨by decide, by decide⟩
theorem EncodeFields.extract1 : EncodeFields.Statement .extract1 := ⟨by decide, by decide⟩
theorem EncodeFields.extract2 : EncodeFields.Statement .extract2 := ⟨by decide, by decide⟩
theorem EncodeFields.extract3 : EncodeFields.Statement .extract3 := ⟨by decide, by decide⟩
theorem EncodeFields.extract4 : EncodeFields.Statement .extract4 := ⟨by decide, by decide⟩
theorem EncodeFields.extract5 : EncodeFields.Statement .extract5 := ⟨by decide, by decide⟩
theorem EncodeFields.extract6 : EncodeFields.Statement .extract6 := ⟨by decide, by decide⟩
theorem EncodeFields.extract7 : EncodeFields.Statement .extract7 := ⟨by decide, by decide⟩
theorem EncodeFields.tail : EncodeFields.Statement .tail := ⟨by decide, by decide⟩
theorem EncodeFields.encodeStatic8 : EncodeFields.Statement .encodeStatic8 := ⟨by decide, by decide⟩
theorem EncodeFields.encodeStatic1 : EncodeFields.Statement .encodeStatic1 := ⟨by decide, by decide⟩
theorem EncodeFields.encodeStatic2 : EncodeFields.Statement .encodeStatic2 := ⟨by decide, by decide⟩
theorem EncodeFields.encodeStatic3 : EncodeFields.Statement .encodeStatic3 := ⟨by decide, by decide⟩
theorem EncodeFields.encodeStatic4 : EncodeFields.Statement .encodeStatic4 := ⟨by decide, by decide⟩
theorem EncodeFields.encodeStatic5 : EncodeFields.Statement .encodeStatic5 := ⟨by decide, by decide⟩
theorem EncodeFields.encodeStatic6 : EncodeFields.Statement .encodeStatic6 := ⟨by decide, by decide⟩
theorem EncodeFields.encodeStatic7 : EncodeFields.Statement .encodeStatic7 := ⟨by decide, by decide⟩
theorem EncodeFields.encodeHidden8 : EncodeFields.Statement .encodeHidden8 := ⟨by decide, by decide⟩
theorem EncodeFields.encodeHidden1 : EncodeFields.Statement .encodeHidden1 := ⟨by decide, by decide⟩
theorem EncodeFields.encodeHidden2 : EncodeFields.Statement .encodeHidden2 := ⟨by decide, by decide⟩
theorem EncodeFields.encodeHidden3 : EncodeFields.Statement .encodeHidden3 := ⟨by decide, by decide⟩
theorem EncodeFields.encodeHidden4 : EncodeFields.Statement .encodeHidden4 := ⟨by decide, by decide⟩
theorem EncodeFields.encodeHidden5 : EncodeFields.Statement .encodeHidden5 := ⟨by decide, by decide⟩
theorem EncodeFields.encodeHidden6 : EncodeFields.Statement .encodeHidden6 := ⟨by decide, by decide⟩
theorem EncodeFields.encodeHidden7 : EncodeFields.Statement .encodeHidden7 := ⟨by decide, by decide⟩
theorem EncodeFields.decode : EncodeFields.Statement .decode := ⟨by decide, by decide⟩

theorem DecodeEncode.nop : DecodeEncode.Statement .nop := rfl
theorem DecodeEncode.hdrputStatic8 : DecodeEncode.Statement .hdrputStatic8 := rfl
theorem DecodeEncode.hdrputStatic1 : DecodeEncode.Statement .hdrputStatic1 := rfl
theorem DecodeEncode.hdrputStatic2 : DecodeEncode.Statement .hdrputStatic2 := rfl
theorem DecodeEncode.hdrputStatic3 : DecodeEncode.Statement .hdrputStatic3 := rfl
theorem DecodeEncode.hdrputStatic4 : DecodeEncode.Statement .hdrputStatic4 := rfl
theorem DecodeEncode.hdrputStatic5 : DecodeEncode.Statement .hdrputStatic5 := rfl
theorem DecodeEncode.hdrputStatic6 : DecodeEncode.Statement .hdrputStatic6 := rfl
theorem DecodeEncode.hdrputStatic7 : DecodeEncode.Statement .hdrputStatic7 := rfl
theorem DecodeEncode.hdrputHidden8 : DecodeEncode.Statement .hdrputHidden8 := rfl
theorem DecodeEncode.hdrputHidden1 : DecodeEncode.Statement .hdrputHidden1 := rfl
theorem DecodeEncode.hdrputHidden2 : DecodeEncode.Statement .hdrputHidden2 := rfl
theorem DecodeEncode.hdrputHidden3 : DecodeEncode.Statement .hdrputHidden3 := rfl
theorem DecodeEncode.hdrputHidden4 : DecodeEncode.Statement .hdrputHidden4 := rfl
theorem DecodeEncode.hdrputHidden5 : DecodeEncode.Statement .hdrputHidden5 := rfl
theorem DecodeEncode.hdrputHidden6 : DecodeEncode.Statement .hdrputHidden6 := rfl
theorem DecodeEncode.hdrputHidden7 : DecodeEncode.Statement .hdrputHidden7 := rfl
theorem DecodeEncode.hdrget : DecodeEncode.Statement .hdrget := rfl
theorem DecodeEncode.pack : DecodeEncode.Statement .pack := rfl
theorem DecodeEncode.unpack : DecodeEncode.Statement .unpack := rfl
theorem DecodeEncode.merge8 : DecodeEncode.Statement .merge8 := rfl
theorem DecodeEncode.merge1 : DecodeEncode.Statement .merge1 := rfl
theorem DecodeEncode.merge2 : DecodeEncode.Statement .merge2 := rfl
theorem DecodeEncode.merge3 : DecodeEncode.Statement .merge3 := rfl
theorem DecodeEncode.merge4 : DecodeEncode.Statement .merge4 := rfl
theorem DecodeEncode.merge5 : DecodeEncode.Statement .merge5 := rfl
theorem DecodeEncode.merge6 : DecodeEncode.Statement .merge6 := rfl
theorem DecodeEncode.merge7 : DecodeEncode.Statement .merge7 := rfl
theorem DecodeEncode.extract8 : DecodeEncode.Statement .extract8 := rfl
theorem DecodeEncode.extract1 : DecodeEncode.Statement .extract1 := rfl
theorem DecodeEncode.extract2 : DecodeEncode.Statement .extract2 := rfl
theorem DecodeEncode.extract3 : DecodeEncode.Statement .extract3 := rfl
theorem DecodeEncode.extract4 : DecodeEncode.Statement .extract4 := rfl
theorem DecodeEncode.extract5 : DecodeEncode.Statement .extract5 := rfl
theorem DecodeEncode.extract6 : DecodeEncode.Statement .extract6 := rfl
theorem DecodeEncode.extract7 : DecodeEncode.Statement .extract7 := rfl
theorem DecodeEncode.tail : DecodeEncode.Statement .tail := rfl
theorem DecodeEncode.encodeStatic8 : DecodeEncode.Statement .encodeStatic8 := rfl
theorem DecodeEncode.encodeStatic1 : DecodeEncode.Statement .encodeStatic1 := rfl
theorem DecodeEncode.encodeStatic2 : DecodeEncode.Statement .encodeStatic2 := rfl
theorem DecodeEncode.encodeStatic3 : DecodeEncode.Statement .encodeStatic3 := rfl
theorem DecodeEncode.encodeStatic4 : DecodeEncode.Statement .encodeStatic4 := rfl
theorem DecodeEncode.encodeStatic5 : DecodeEncode.Statement .encodeStatic5 := rfl
theorem DecodeEncode.encodeStatic6 : DecodeEncode.Statement .encodeStatic6 := rfl
theorem DecodeEncode.encodeStatic7 : DecodeEncode.Statement .encodeStatic7 := rfl
theorem DecodeEncode.encodeHidden8 : DecodeEncode.Statement .encodeHidden8 := rfl
theorem DecodeEncode.encodeHidden1 : DecodeEncode.Statement .encodeHidden1 := rfl
theorem DecodeEncode.encodeHidden2 : DecodeEncode.Statement .encodeHidden2 := rfl
theorem DecodeEncode.encodeHidden3 : DecodeEncode.Statement .encodeHidden3 := rfl
theorem DecodeEncode.encodeHidden4 : DecodeEncode.Statement .encodeHidden4 := rfl
theorem DecodeEncode.encodeHidden5 : DecodeEncode.Statement .encodeHidden5 := rfl
theorem DecodeEncode.encodeHidden6 : DecodeEncode.Statement .encodeHidden6 := rfl
theorem DecodeEncode.encodeHidden7 : DecodeEncode.Statement .encodeHidden7 := rfl
theorem DecodeEncode.decode : DecodeEncode.Statement .decode := rfl

end Sys2Proof.Laws
end

