-- ==== Sys2Proof/Laws/Decode.lean ====
section
/-! SUPPORT. What the decoder's parts do. -/

namespace Sys2Proof

/-- The decoder's tests refuse nothing exactly on well-formed fields (rule R56). -/
theorem illegalCause_eq_none {f : Fields} : illegalCause f = none ↔ f.WellFormed := by
  simp only [illegalCause, Fields.WellFormed]
  constructor
  · intro h
    split at h <;> try cases h
    rename_i h1
    split at h <;> try cases h
    rename_i h2
    split at h <;> try cases h
    rename_i h3
    split at h <;> try cases h
    rename_i h4
    split at h <;> try cases h
    rename_i h5
    split at h <;> try cases h
    rename_i h6
    refine ⟨not_not.1 h1, not_not.1 h2, by omega, fun hN => ?_, fun hD => ?_, fun hM => ?_⟩
    · exact ⟨by_contra fun hm => h4 ⟨hN, .inl hm⟩, by_contra fun hd => h4 ⟨hN, .inr hd⟩⟩
    · exact by_contra fun hm => h5 ⟨hD, hm⟩
    · exact by_contra fun hm => h6 ⟨hM, hm⟩
  · rintro ⟨h1, h2, h3, h4, h5, h6⟩
    rw [if_neg (not_not.2 h1), if_neg (not_not.2 h2), if_neg (by omega), if_neg, if_neg, if_neg]
    · exact fun h => h.2 (h6 h.1)
    · exact fun h => h.2 (h5 h.1)
    · exact fun h => h.2.elim (fun hm => hm (h4 h.1).1) (fun hd => hd (h4 h.1).2)

/-- A word is made of its fields (rule R51). -/
theorem fieldsOf_toNat (w : Word) :
    w.toNat = (fieldsOf w).rsv1.toNat * 4096 + (fieldsOf w).op.toNat * 256 + (fieldsOf w).rsv0.toNat * 64 +
      (fieldsOf w).mode.toNat * 8 + (fieldsOf w).depth.toNat := by
  have := w.isLt
  simp only [fieldsOf, BitVec.extractLsb'_toNat, Nat.shiftRight_eq_div_pow]
  omega

/-- Two words with the same fields are the same word. -/
theorem fieldsOf_inj {w w' : Word} (h : fieldsOf w = fieldsOf w') : w = w' := by
  apply BitVec.eq_of_toNat_eq
  rw [fieldsOf_toNat w, fieldsOf_toNat w', h]

end Sys2Proof
end

