-- ==== Sys2Proof/Machine/HostContract.lean ====
section
/-! DEFINITION. Host software, not hardware (`44_host_software_contract.md`, rule R4): the line syntax of host programs,
AlphabetIndex, SymbolFramer, Base64Bridge and Geometry. The block uses none of it; it states what a well-formed input
is and lets the golden fixture be checked. -/

namespace Sys2Proof.Machine

/-! ## Host programs (rules R60, R61) -/

/-- `ST buf[i], b0 b1 ...` (rule R60). -/
def lineSt (b : Buf) : Nat → List Byte → List HostAction
  | _, [] => []
  | i, v :: vs => .writeByte b i v :: lineSt b (i + 1) vs

/-- `LD buf[i..i+k)` (rule R60). -/
def lineLd (b : Buf) : (i k : Nat) → List HostAction
  | _, 0 => []
  | i, k + 1 => .readByte b i :: lineLd b (i + 1) k

/-- The offset of a register (rules R12, R15 to R18). -/
def Reg.offset : Reg → Nat
  | .cmd => 0x00
  | .status => 0x04
  | .errinfo => 0x08
  | .symlen => 0x0C
  | .carlen => 0x10
  | .pixlen => 0x14
  | .hdr => 0x18

/-- `WR reg, value` (rule R60). -/
def lineWr (r : Reg) (v : Word) : List HostAction := [.writeReg r.offset v]

/-- `RD reg` (rule R60). -/
def lineRd (r : Reg) : List HostAction := [.readReg r.offset]

/-- A mnemonic line: a write of its word to CMD (rule R60). -/
def lineCommand (w : Word) : List HostAction := [.writeReg 0x00 w]

/-! ## AlphabetIndex (rules R120 to R123) -/

/-- The 64 characters, in order (rule R120). -/
def alphabet : List Char :=
  "ABCDEFGHIJKLMNOPQRSTUVWXYZabcdefghijklmnopqrstuvwxyz0123456789+/".toList

/-- `forward` (rule R121): none stands for the host's `InvalidSymbol`. -/
def forward (ch : Char) : Option Nat := alphabet.findIdx? (· == ch)

/-- `reverse` (rule R122): none stands for the host's `InvalidSymbol`. -/
def reverse (code : Nat) : Option Char := alphabet[code]?

/-! ## Base64Bridge (rule R129; PRESUMED, log entry 9) -/

/-- Standard base64 text of a byte string, by the algorithm rule R129 gives from general knowledge. -/
def base64Encode : List Byte → List Char
  | b0 :: b1 :: b2 :: rest =>
    let (s0, s1, s2, s3) := base64Quad b0 b1 b2
    s0 :: s1 :: s2 :: s3 :: base64Encode rest
  | [b0, b1] =>
    let (s0, s1, s2, _) := base64Quad b0 b1 0
    [s0, s1, s2, '=']
  | [b0] =>
    let (s0, s1, _, _) := base64Quad b0 0 0
    [s0, s1, '=', '=']
  | [] => []
where
  /-- The four characters of one 24-bit group. -/
  base64Quad (b0 b1 b2 : Byte) : Char × Char × Char × Char :=
    let v := b0.toNat * 65536 + b1.toNat * 256 + b2.toNat
    (alphabet.getD (v / 262144) 'A', alphabet.getD (v / 4096 % 64) 'A',
      alphabet.getD (v / 64 % 64) 'A', alphabet.getD (v % 64) 'A')

/-! ## SymbolFramer (rules R124 to R127) -/

/-- The pad counter of a base64 text, starting at 1 (rule R124). -/
def padMarker (text : List Char) : Nat := 1 + text.count '='

/-- The symbols of a base64 text without its `=` characters (rule R124); none if a character is outside the alphabet. -/
def symbolsOf : List Char → Option (List Nat)
  | [] => some []
  | ch :: rest =>
    if ch = '=' then symbolsOf rest
    else
      match forward ch, symbolsOf rest with
      | some v, some vs => some (v :: vs)
      | _, _ => none

/-- The alignment the host applies for each coding (rule R125). -/
def Coding.align : Coding → Nat
  | .static => 4
  | .hidden d => d.align

/-- Frame a base64 text (rule R124): symbols, pad marker, zero filler up to the alignment. -/
def frame (text : List Char) (align : Nat) : Option (List Byte) :=
  (symbolsOf text).map fun vs =>
    let body := vs ++ [padMarker text]
    let filler := (align - body.length % align) % align
    (body ++ List.replicate filler 0).map (BitVec.ofNat 8)

/-- Drop the trailing zero filler of a reversed stream (rule R127). -/
def dropFiller : List Byte → List Byte
  | [] => []
  | v :: vs => if v = 0 then dropFiller vs else v :: vs

/-- Unframe a symbol stream to base64 text (rule R127). A stream without a pad marker, or with one above 3, which the
source leaves open (`91_not_in_source.md` N17, U15), has no answer. -/
def unframe (stream : List Byte) : Option (List Char) :=
  match dropFiller stream.reverse with
  | [] => none
  | marker :: symbols =>
    if 3 < marker.toNat then none
    else (symbols.reverse.mapM fun v => reverse v.toNat).map fun text =>
      text ++ List.replicate (marker.toNat - 1) '='

/-! ## Geometry (rules R130 to R132) -/

/-- The smallest side, searched upwards, whose square holds the pixels of the payload: `ceil` of the exact square root
of the exact quotient. The rounding of the square root is left open (`91_not_in_source.md` N22): DESIGN CHOICE, log
entry 10. -/
def sideFrom (payloadBytes : Nat) : (fuel side : Nat) → Nat
  | 0, side => side
  | fuel + 1, side => if payloadBytes ≤ side * side * 3 then side else sideFrom payloadBytes fuel (side + 1)

/-- `side = ceil(sqrt(payloadBytes / 3))` (rule R130), with the square root and the quotient taken exactly (DESIGN
CHOICE, log entry 10). -/
def side (payloadBytes : Nat) : Nat := sideFrom payloadBytes payloadBytes 0

/-- Width and height of a static image (rule R130): whole blank rows are trimmed. An empty payload, which the source
leaves open (`91_not_in_source.md` N22, U15), has no answer (log entry 9). -/
def staticSize (payloadBytes : Nat) : Option (Nat × Nat) :=
  if payloadBytes = 0 then none
  else
    let a := side payloadBytes
    let blankBytes := a * a * 3 - payloadBytes
    some (a, a - blankBytes / (3 * a))

/-- The host's zero fill after `ENCODE static` (rule R132), for the state ENCODE left. -/
def zeroFill (s : State) : List HostAction :=
  match staticSize s.p with
  | some (width, height) => lineSt .pix s.p (List.replicate (width * height * 3 - s.p) 0)
  | none => []

end Sys2Proof.Machine
end

