-- ==== Sys2Proof/Tests/Slice0.lean ====
section
/-! SUPPORT. The model's own tests: ill-formed terms that the checks refuse, words written out bit by bit, steps with
the results of the spec's test vectors, and a witness for the hypotheses of every statement that has some. -/

namespace Sys2Proof.Tests

open Sys2Proof Sys2Proof.Machine

/-! ## Small states -/

/-- The cells of a list, from an index on. -/
def cells (a : Nat) (vs : List Nat) : Memory := Memory.writeList [] a (vs.map (BitVec.ofNat 8))

/-- A state after reset, with sizes, lengths (SYMLEN, CARLEN, PIXLEN) and the buffers' first cells. -/
def bench (sizes : Nat × Nat × Nat) (lengths : Nat × Nat × Nat) (sym car pix : List Nat) : State :=
  { State.resetWith { symSize := sizes.1, carSize := sizes.2.1, pixSize := sizes.2.2 } with
    symlen := BitVec.ofNat 32 lengths.1, carlen := BitVec.ofNat 32 lengths.2.1,
    pixlen := BitVec.ofNat 32 lengths.2.2, sym := cells 0 sym, car := cells 0 car, pix := cells 0 pix }

/-- The sizes of the spec's vectors. -/
def usual : Nat × Nat × Nat := (1024, 3072, 3072)

/-- One step in which the host writes a word to CMD. -/
def run (w : Nat) (s : State) : Host.Outcome State Fault Refusal := step (s.withFetchWord 32 w)

/-- STATUS, ERRINFO, SYMLEN, PIXLEN and HDR of a next state. -/
def report : Host.Outcome State Fault Refusal → Option (Nat × Nat × Nat × Nat × Nat)
  | .next t => some ((statusWord t.done t.errcode).toNat, t.errinfo.toNat, t.n, t.p, t.hdr.word.toNat)
  | _ => none

/-- The cells of a buffer that hold a value in a next state. -/
def listed (b : Buf) : Host.Outcome State Fault Refusal → Option (List (Nat × Nat))
  | .next t => some ((t.mem b).map fun x => (x.1, x.2.toNat))
  | _ => none

/-- The bytes of `B[a..a+k)` in a next state. -/
def bytes (b : Buf) (a k : Nat) : Host.Outcome State Fault Refusal → List (Option Nat)
  | .next t => (List.range k).map fun j => (t.byte b (a + j)).map (·.toNat)
  | _ => []

/-! ## Ill-formed terms are refused -/

theorem test_illFormed_rsv1 : ¬(⟨1, 3, 0, 0, 0⟩ : Fields).WellFormed := by decide
theorem test_illFormed_rsv0 : ¬(⟨0, 3, 2, 0, 0⟩ : Fields).WellFormed := by decide
theorem test_illFormed_op : ¬(⟨0, 0xA, 0, 0, 0⟩ : Fields).WellFormed := by decide
theorem test_illFormed_depthOfN : ¬(⟨0, 3, 0, 0, 1⟩ : Fields).WellFormed := by decide
theorem test_illFormed_modeOfN : ¬(⟨0, 9, 0, 1, 0⟩ : Fields).WellFormed := by decide
theorem test_illFormed_modeOfD : ¬(⟨0, 5, 0, 1, 2⟩ : Fields).WellFormed := by decide
theorem test_illFormed_modeOfMD : ¬(⟨0, 8, 0, 0, 0⟩ : Fields).WellFormed ∧ ¬(⟨0, 1, 0, 3, 0⟩ : Fields).WellFormed := by
  decide
theorem test_wellFormed_rows : Instr.nop.WellFormed ∧ Instr.encodeHidden7.WellFormed ∧ Instr.merge8.WellFormed := by
  decide
theorem test_illFormed_sizes :
    ¬(⟨0, 3, 3⟩ : Params).Legal ∧ ¬(⟨1, 2, 3⟩ : Params).Legal ∧ ¬(⟨1, 3, 2⟩ : Params).Legal ∧
      ¬(⟨2 ^ 30, 3, 3⟩ : Params).Legal ∧ ¬(⟨1, 2 ^ 30, 3⟩ : Params).Legal ∧ ¬(⟨1, 3, 2 ^ 30⟩ : Params).Legal ∧
      (⟨1, 3, 3⟩ : Params).Legal ∧ (⟨2 ^ 30 - 1, 2 ^ 30 - 1, 2 ^ 30 - 1⟩ : Params).Legal := by decide
theorem test_illFormed_memory :
    Memory.wf [(1, 0), (1, 0)] = false ∧ Memory.wf [(2, 0), (1, 0)] = false ∧ Memory.below 2 [(2, 0)] = false ∧
      Memory.wf [(0, 9), (1, 0)] = true ∧ Memory.below 2 [(0, 9), (1, 0)] = true := by decide

/-! ## Words written out from their fields (rule R51: RSV1, OP, RSV0, MODE, DEPTH; rule R55) -/

theorem test_decode_nop : decode 0b00000000000000000000_0000_00_000_000#32 = .ok .nop := rfl
theorem test_decode_hdrputStatic : decode 0b00000000000000000000_0001_00_001_000#32 = .ok .hdrputStatic8 := rfl
theorem test_decode_hdrputHidden : decode 0b00000000000000000000_0001_00_010_110#32 = .ok .hdrputHidden6 := rfl
theorem test_decode_hdrget : decode 0b00000000000000000000_0010_00_000_000#32 = .ok .hdrget := rfl
theorem test_decode_pack : decode 0b00000000000000000000_0011_00_000_000#32 = .ok .pack := rfl
theorem test_decode_unpack : decode 0b00000000000000000000_0100_00_000_000#32 = .ok .unpack := rfl
theorem test_decode_merge : decode 0b00000000000000000000_0101_00_000_100#32 = .ok .merge4 := rfl
theorem test_decode_extract : decode 0b00000000000000000000_0110_00_000_000#32 = .ok .extract8 := rfl
theorem test_decode_tail : decode 0b00000000000000000000_0111_00_000_000#32 = .ok .tail := rfl
theorem test_decode_encodeStatic : decode 0b00000000000000000000_1000_00_001_111#32 = .ok .encodeStatic7 := rfl
theorem test_decode_encodeHidden : decode 0b00000000000000000000_1000_00_010_010#32 = .ok .encodeHidden2 := rfl
theorem test_decode_decode : decode 0b00000000000000000000_1001_00_000_000#32 = .ok .decode := rfl

/-- Vector V22: illegal words, each refused by the condition it meets. -/
theorem test_decode_illegal :
    decode 0x80000000#32 = .error .rsv1 ∧ decode 0x00001000#32 = .error .rsv1 ∧ decode 0x00000080#32 = .error .rsv0 ∧
      decode 0x00000A00#32 = .error .op ∧ decode 0x00000301#32 = .error .operandOfN ∧
      decode 0x00000708#32 = .error .operandOfN ∧ decode 0x0000051B#32 = .error .modeOfD ∧
      decode 0x00000100#32 = .error .modeOfMD ∧ decode 0x0000081A#32 = .error .modeOfMD :=
  ⟨rfl, rfl, rfl, rfl, rfl, rfl, rfl, rfl, rfl⟩

theorem test_decodeTableWord :
    decodeTableWord 32 0x112 = some .hdrputHidden2 ∧ decodeTableWord 32 0x1112 = none := ⟨rfl, rfl⟩

/-! ## Steps, with the results of the spec's vectors -/

/-- Vector V17, after an error report. -/
theorem test_nop : report (run 0 (raiseError .capacity 3 (bench usual (1, 2, 4) [] [] []))) =
    some (0x80, 0, 1, 4, 0) := by decide

/-- Vector V14. -/
theorem test_hdrputStatic8 : bytes .pix 0 4 (run 0x108 (bench usual (0, 0, 0) [] [] [0x99, 0x99, 0x99])) =
    [some 1, some 0, some 1, none] := by decide
/-- Vector V14. -/
theorem test_hdrputHidden2 : bytes .pix 0 3 (run 0x112 (bench usual (0, 3, 0) [] [0xFF, 0x80, 0x07] [])) =
    [some 0xFA, some 0x82, some 0x01] := by decide
/-- Vector V15. -/
theorem test_hdrputHidden4 : bytes .pix 0 3 (run 0x114 (bench usual (0, 4, 0) [] [0x08, 0x10, 0x18] [])) =
    [some 0x0A, some 0x14, some 0x19] := by decide
/-- Vector V14. -/
theorem test_hdrputHidden6 : bytes .pix 0 3 (run 0x116 (bench usual (0, 3, 0) [] [0x0F, 0xF0, 0xA5] [])) =
    [some 0x0A, some 0xF6, some 0xA1] := by decide
/-- Vector V15: the two errors and one of the refused pairs. -/
theorem test_hdrput_errors :
    report (run 0x112 (bench usual (0, 2, 0) [] [] [])) = some (0x81, 3, 0, 0, 0) ∧
      report (run 0x112 (bench usual (0, 4000, 0) [] [] [])) = some (0x85, 0xFA0, 0, 0, 0) ∧
      report (run 0x110 (bench usual (0, 0, 0) [] [] [])) = some (0x82, 0x10, 0, 0, 0) := by decide

/-- Vector V16: no value is checked. -/
theorem test_hdrget : report (run 0x200 (bench usual (0, 0, 5000) [] [] [0x2B, 0x1C, 0x09])) =
    some (0x80, 0, 0, 5000, 0x05C) := by decide
/-- Vector V16. -/
theorem test_hdrget_error : report (run 0x200 (bench usual (0, 0, 2) [] [] [])) = some (0x84, 2, 0, 2, 0) := by decide

/-- Vector V3. -/
theorem test_pack : listed .pix (run 0x300 (bench usual (4, 0, 0) [18, 6, 36, 2] [] [])) =
    some [(3, 0x48), (4, 0x69), (5, 0x02)] := by decide
/-- Vector V5: the smallest bad index is reported. -/
theorem test_pack_error : report (run 0x300 (bench usual (8, 0, 99) [1, 2, 3, 4, 5, 64, 7, 200] [] [])) =
    some (0x83, 5, 8, 99, 0) := by decide

/-- Vector V4. -/
theorem test_unpack : bytes .sym 0 5 (run 0x400 (bench usual (0, 0, 6) [] [] [0, 0, 0, 0xDE, 0xAD, 0xBE])) =
    [some 55, some 42, some 54, some 62, none] := by decide
/-- Vector V6. -/
theorem test_unpack_error : report (run 0x400 (bench (8, 3072, 3072) (0, 0, 12) [] [] [])) =
    some (0x85, 0xC, 0, 12, 0) := by decide

/-- Vector V7. -/
theorem test_merge2 : listed .pix (run 0x502 (bench usual (1, 6, 0) [18] [0, 0, 0, 0xFF, 0xFF, 0xFF] [])) =
    some [(3, 0xFD), (4, 0xFC), (5, 0xFE)] := by decide
/-- Vector V11. -/
theorem test_merge2_errors :
    report (run 0x502 (bench usual (2, 6, 0) [] [] [])) = some (0x81, 9, 2, 0, 0) ∧
      report (run 0x502 (bench usual (2000, 3072, 0) [] [] [])) = some (0x85, 0x7D0, 2000, 0, 0) := by decide
/-- Vector V7. -/
theorem test_merge4 : listed .pix (run 0x504 (bench usual (2, 6, 0) [1, 32] [0, 0, 0, 0x55, 0x55, 0x55] [])) =
    some [(3, 0x50), (4, 0x56), (5, 0x50)] := by decide
/-- Vector V23. -/
theorem test_merge4_error : report (run 0x504 (bench usual (3, 8, 0) [] [] [])) = some (0x84, 3, 3, 0, 0) := by decide
/-- Vector V7. -/
theorem test_merge6 : listed .pix (run 0x506 (bench usual (3, 6, 0) [18, 6, 36] [0, 0, 0, 0xFF, 0, 0x80] [])) =
    some [(3, 0xD2), (4, 0x06), (5, 0xA4)] := by decide
/-- Vector V11. -/
theorem test_merge6_error : report (run 0x506 (bench usual (3, 6, 0) [1, 64, 65] [] [])) = some (0x83, 1, 3, 0, 0) := by
  decide
/-- Vector V12. -/
theorem test_merge_extract_otherDepths :
    report (run 0x500 (bench usual (1, 2, 3) [] [] [])) = some (0x82, 0, 1, 3, 0) ∧
      report (run 0x507 (bench usual (1, 2, 3) [] [] [])) = some (0x82, 7, 1, 3, 0) ∧
      report (run 0x603 (bench usual (1, 2, 3) [] [] [])) = some (0x82, 3, 1, 3, 0) := by decide

/-- Vector V8. -/
theorem test_extract2 :
    listed .sym (run 0x602 (bench usual (0, 0, 9) [] [] [0, 0, 0, 0xFF, 0xFF, 0xFF, 0x12, 0x34, 0x56])) =
      some [(0, 63), (1, 34)] := by decide
/-- Vector V8. -/
theorem test_extract4 :
    listed .sym (run 0x604 (bench usual (0, 0, 9) [] [] [0, 0, 0, 0xFF, 0xFF, 0xFF, 0x12, 0x34, 0x56])) =
      some [(0, 63), (1, 63), (2, 9), (3, 6)] := by decide
/-- Vector V8. -/
theorem test_extract6 :
    listed .sym (run 0x606 (bench usual (0, 0, 9) [] [] [0, 0, 0, 0xFF, 0xFF, 0xFF, 0x12, 0x34, 0x56])) =
      some [(0, 63), (1, 63), (2, 63), (3, 18), (4, 52), (5, 22)] := by decide
/-- Vector V13. -/
theorem test_extract_errors :
    report (run 0x606 (bench (4, 3072, 3072) (0, 0, 12) [] [] [])) = some (0x85, 9, 0, 12, 0) ∧
      report (run 0x602 (bench usual (0, 0, 5) [] [] [])) = some (0x84, 5, 0, 5, 0) := by decide

/-- Vector V10: the tail starts at PIXLEN, not at a triple. -/
theorem test_tail :
    listed .pix (run 0x700 { bench usual (0, 9, 7) [] [] [] with
      car := cells 6 [0xFF, 0x7B, 0x01], pix := cells 6 [0x55] }) = some [(6, 0x55), (7, 0x78), (8, 0)] := by decide
/-- Vector V10. -/
theorem test_tail_errors :
    report (run 0x700 (bench usual (0, 8, 6) [] [] [])) = some (0x84, 8, 0, 6, 0) ∧
      report (run 0x700 (bench usual (0, 9, 12) [] [] [])) = some (0x84, 12, 0, 12, 0) := by decide

/-- Vector V18. -/
theorem test_encodeStatic8 : listed .pix (run 0x808 (bench usual (4, 0, 0) [18, 6, 36, 2] [] [])) =
    some [(0, 1), (1, 0), (2, 1), (3, 0x48), (4, 0x69), (5, 0x02)] := by decide
/-- Vector V19. -/
theorem test_encodeHidden2 : bytes .pix 0 9 (run 0x812 (bench usual (1, 9, 0) [18] (List.replicate 9 0xFF) [])) =
    [0xFA, 0xFA, 0xF9, 0xFD, 0xFC, 0xFE, 0xFC, 0xFC, 0xFC].map some := by decide
/-- Vector V19. -/
theorem test_encodeHidden4 : bytes .pix 0 9 (run 0x814 (bench usual (2, 9, 0) [18, 6] (List.replicate 9 0xFF) [])) =
    [0xFA, 0xFC, 0xF9, 0xF4, 0xF8, 0xF6, 0xFC, 0xFC, 0xFC].map some := by decide
/-- Vector V19. -/
theorem test_encodeHidden6 : bytes .pix 0 9 (run 0x816 (bench usual (3, 9, 0) [18, 6, 36] (List.replicate 9 0xFF) [])) =
    [0xFA, 0xFE, 0xF9, 0xD2, 0xC6, 0xE4, 0xFC, 0xFC, 0xFC].map some := by decide
/-- Vector V24. -/
theorem test_encodeHidden6_error :
    report (run 0x816 (bench usual (6, 6, 9) [18, 6, 36, 2, 0, 0] (List.replicate 6 0xFF) (List.replicate 9 0x11))) =
        some (0x81, 9, 6, 9, 0) ∧
      bytes .pix 0 9
        (run 0x816 (bench usual (6, 6, 9) [18, 6, 36, 2, 0, 0] (List.replicate 6 0xFF) (List.replicate 9 0x11))) =
        List.replicate 9 (some 0x11) := by decide
/-- Vector V20. -/
theorem test_encode_otherPairs :
    report (run 0x80A (bench usual (3, 7, 1) [] [] [])) = some (0x82, 0x0A, 3, 1, 0) ∧
      report (run 0x813 (bench usual (3, 7, 1) [] [] [])) = some (0x82, 0x13, 3, 1, 0) := by decide

/-- Vector V21: the output of the first row of vector V19. -/
theorem test_decode_hidden :
    report (run 0x900 (bench usual (0, 0, 9) [] [] [0xFA, 0xFA, 0xF9, 0xFD, 0xFC, 0xFE, 0xFC, 0xFC, 0xFC])) =
        some (0x80, 0, 2, 9, 0x52) ∧
      bytes .sym 0 3 (run 0x900 (bench usual (0, 0, 9) [] [] [0xFA, 0xFA, 0xF9, 0xFD, 0xFC, 0xFE, 0xFC, 0xFC, 0xFC])) =
        [some 18, some 0, none] := by decide
/-- Vector V21: the header checks and their order. -/
theorem test_decode_errors :
    report (run 0x900 (bench usual (0, 0, 4) [] [] [1, 0, 0, 0])) = some (0x86, 8, 0, 4, 0) ∧
      report (run 0x900 (bench usual (0, 0, 3) [] [] [0xFA, 0xF9, 0xF9])) = some (0x82, 0x11, 0, 3, 0) ∧
      report (run 0x900 (bench usual (0, 0, 4) [] [] [1, 0, 1, 0])) = some (0x84, 4, 0, 4, 0) := by decide

/-- Vector V22: an illegal word, reported and kept in CMD. -/
theorem test_illegalWord : report (run 0x51B (bench usual (3, 8, 0) [] [] [])) = some (0x87, 0x51B, 3, 0, 0) := by decide

/-! ## Host software (vectors V1 and program P1) -/

/-- The first twelve characters of the golden fixture, framed for depth 2 without a pad. -/
theorem test_frame_golden : frame "eyJkYXlzIjog".toList 1 =
    some ([30, 50, 9, 36, 24, 23, 37, 51, 8, 35, 40, 32, 1].map (BitVec.ofNat 8)) := by decide
/-- The end of the golden fixture, framed for static mode, and program P1's text. -/
theorem test_frame_pad :
    frame "YSJdfQ==".toList 4 = some ([24, 18, 9, 29, 31, 16, 3, 0].map (BitVec.ofNat 8)) ∧
      frame "SGk=".toList 4 = some ([18, 6, 36, 2].map (BitVec.ofNat 8)) := by decide
theorem test_unframe : unframe ([18, 6, 36, 2, 0, 0].map (BitVec.ofNat 8)) = some "SGk=".toList := by decide
theorem test_base64 : base64Encode ([0x48, 0x69].map (BitVec.ofNat 8)) = "SGk=".toList := by decide
/-- Program P1: the canvas of 6 and of 57 bytes, and the host's zero fill of 3 bytes. -/
theorem test_geometry :
    staticSize 6 = some (2, 1) ∧ staticSize 57 = some (5, 4) ∧ (zeroFill (bench usual (0, 0, 57) [] [] [])).length = 3 := by
  decide

/-! ## Witnesses: for each statement with hypotheses, states and operands that meet them -/

/-- A command's outcome is a next state that reports success. -/
def succeeds : Host.Outcome State Fault Refusal → Bool
  | .next t => t.errcode = 0
  | _ => false

theorem next_of_succeeds {o : Host.Outcome State Fault Refusal} (h : succeeds o = true) :
    ∃ t, o = .next t ∧ t.errcode = 0 := by
  cases o with
  | next t => exact ⟨t, rfl, by simpa [succeeds] using h⟩
  | fault _ => cases h
  | refused _ => cases h

/-- A state whose host has met every duty for every command, with a header in PIX. -/
def ready (mode depth : Nat) : State :=
  bench (12, 39, 39) (12, 39, 9) (List.replicate 12 63) (List.replicate 39 0xA5)
    [mode, depth, 1, 0xDE, 0xAD, 0xBE, 0x12, 0x34, 0x56]

/-- The commands that are not refused for their mode and depth. -/
def legalCommands : List Instr :=
  [.nop, .hdrputStatic8, .hdrputHidden2, .hdrputHidden4, .hdrputHidden6, .hdrget, .pack, .unpack, .merge2, .merge4,
    .merge6, .extract2, .extract4, .extract6, .tail, .encodeStatic8, .encodeHidden2, .encodeHidden4, .encodeHidden6,
    .decode]

theorem ready_succeeds : ∀ i ∈ legalCommands, succeeds (exec i (ready 1 0)) = true := by decide

/-- For every statement about a command's next state: each legal command has one that reports success. -/
theorem witness_everyLegalCommandSucceeds :
    ∀ i ∈ legalCommands, ∃ s t : State, s.params.Legal ∧ exec i s = .next t ∧ t.errcode = 0 := fun i hi =>
  let ⟨t, h⟩ := next_of_succeeds (ready_succeeds i hi)
  ⟨ready 1 0, t, by decide, h⟩

/-- IllegalWordsRaiseIllegalCommand: each of the six conditions, at its first value. -/
theorem witness_illegalWords : ∀ w ∈ [0x1000#32, 0x40#32, 0xA00#32, 0x1#32, 0x908#32, 0x508#32, 0x100#32, 0x818#32],
    ∃ s : State, IllegalWord w ∧ s.pending = .writeReg 0x00 w :: [] := by
  intro w hw
  refine ⟨{ State.reset with pending := [.writeReg 0x00 w] }, ?_, rfl⟩
  fin_cases hw <;> decide

/-- StepRunsTheDecodedCommand. -/
theorem witness_stepRunsTheDecodedCommand :
    ∃ s : State, s.pending = .writeReg 0x00 0x900#32 :: [] ∧ decode 0x900#32 = .ok .decode :=
  ⟨State.reset.withFetchWord 32 0x900, rfl, rfl⟩

/-- StepWaitsWithNothingPending. -/
theorem witness_nothingPending : ∃ s : State, s.pending = [] := ⟨State.reset, rfl⟩

/-- HostRegisterAccess: every move a state can have pending; the offsets named, and the undefined ones at the edges. -/
theorem witness_hostMoves (a : HostAction) (rest : List HostAction) : ∃ s : State, s.pending = a :: rest :=
  ⟨{ State.reset with pending := a :: rest }, rfl⟩
theorem witness_undefinedOffsets : ∀ x ∈ [0x01, 0x03, 0x17, 0x19, 0x1C],
    x ∉ [0x00, 0x04, 0x08, 0x0C, 0x10, 0x14, 0x18] := by decide

/-- HostByteAccess: the last cell of a buffer, with and without a value, and the first index beyond it. -/
theorem witness_hostByteAccess : ∀ b ∈ [Buf.sym, Buf.car, Buf.pix], ∃ s : State, 3 < s.size b ∧ s.byte b 3 = some 7 ∧
    2 < s.size b ∧ s.byte b 2 = none ∧ s.size b ≤ 4 := by
  intro b hb
  refine ⟨{ bench (4, 4, 4) (0, 0, 0) [] [] [] with sym := cells 3 [7], car := cells 3 [7], pix := cells 3 [7] }, ?_⟩
  revert b
  decide

/-- ResetClearsRegistersAndCells and ResetKeepsTheHostsSide. -/
theorem witness_reset : ∃ (s t : State) (rest : List HostAction), s.cmd ≠ 0 ∧ s.pending = .reset :: rest ∧
    step s = .next t :=
  ⟨{ ready 1 0 with cmd := 5, pending := [.reset] }, _, _, by decide, rfl, rfl⟩

/-- HdrputFollowsItsRule: just beyond CAR, just short of the header, and at the fewest carrier bytes and smallest
buffers. -/
theorem witness_hdrput :
    (∃ s : State, s.params.carSize < s.c) ∧ (∃ s : State, s.c ≤ s.params.carSize ∧ s.c < 3) ∧
      (∃ s : State, s.params.Legal ∧ s.c ≤ s.params.carSize ∧ 3 ≤ s.c ∧ s.Written .car 0 3) :=
  ⟨⟨bench (1, 3, 3) (0, 4, 0) [] [] [], by decide⟩, ⟨bench (1, 3, 3) (0, 2, 0) [] [] [], by decide⟩,
    ⟨bench (1, 3, 3) (0, 3, 0) [] [1, 2, 3] [], by decide⟩⟩

/-- HdrgetFollowsItsRule. -/
theorem witness_hdrget :
    (∃ s : State, s.p < 3) ∧ (∃ s : State, s.params.Legal ∧ 3 ≤ s.p ∧ s.Written .pix 0 3) :=
  ⟨⟨bench (1, 3, 3) (0, 0, 2) [] [] [], by decide⟩, ⟨bench (1, 3, 3) (0, 0, 3) [] [] [1, 2, 3], by decide⟩⟩

/-- PackFollowsItsRule and EncodeStaticFollowsItsRule: each check at the first value that fails it; the first bad symbol
at either end. -/
theorem witness_packChecks :
    (∃ s : State, s.n % 4 ≠ 0) ∧ (∃ s : State, s.n % 4 = 0 ∧ s.params.symSize < s.n) ∧
      (∃ s : State, s.n % 4 = 0 ∧ s.n ≤ s.params.symSize ∧ s.params.pixSize < 3 + 3 * s.n / 4) ∧
      (∃ s : State, s.PackLengths ∧ s.FirstBadSymbol 0) ∧ (∃ s : State, s.PackLengths ∧ s.FirstBadSymbol 3) :=
  ⟨⟨bench (4, 3, 6) (1, 0, 0) [] [] [], by decide⟩, ⟨bench (3, 3, 6) (4, 0, 0) [] [] [], by decide⟩,
    ⟨bench (4, 3, 5) (4, 0, 0) [] [] [], by decide⟩, ⟨bench (4, 3, 6) (4, 0, 0) [64] [] [], by decide⟩,
    ⟨bench (4, 3, 6) (4, 0, 0) [0, 63, 1, 255] [] [], by decide⟩⟩
/-- PackFollowsItsRule and EncodeStaticFollowsItsRule: no symbol, and a full SYM and PIX. -/
theorem witness_packRuns :
    (∃ s : State, s.n = 0 ∧ s.PackLengths ∧ s.Symbols s.n) ∧
      (∃ s : State, s.n = 4 ∧ s.PackLengths ∧ s.Symbols s.n) :=
  ⟨⟨bench (1, 3, 3) (0, 0, 0) [] [] [], by decide⟩, ⟨bench (4, 3, 6) (4, 0, 0) [0, 63, 1, 62] [] [], by decide⟩⟩

/-- UnpackFollowsItsRule and the three statements of EXTRACT: each check at the first value that fails it. -/
theorem witness_pixChecks : ∀ k ∈ [4, 1, 2, 3],
    (∃ s : State, ¬(3 ≤ s.p ∧ (s.p - 3) % 3 = 0) ∧ s.p = 2) ∧
      (∃ s : State, ¬(3 ≤ s.p ∧ (s.p - 3) % 3 = 0) ∧ s.p = 4) ∧
      (∃ s : State, (3 ≤ s.p ∧ (s.p - 3) % 3 = 0) ∧ s.params.pixSize < s.p) ∧
      (∃ s : State, (3 ≤ s.p ∧ (s.p - 3) % 3 = 0) ∧ s.p ≤ s.params.pixSize ∧
        s.params.symSize < k * (s.p - 3) / 3) := by
  intro k hk
  refine ⟨⟨bench (9, 3, 9) (0, 0, 2) [] [] [], by decide⟩, ⟨bench (9, 3, 9) (0, 0, 4) [] [] [], by decide⟩,
    ⟨bench (9, 3, 8) (0, 0, 9) [] [] [], by decide⟩, ⟨bench (2 * k - 1, 3, 9) (0, 0, 9) [] [] [], ?_⟩⟩
  revert k
  decide
/-- UnpackFollowsItsRule and the three statements of EXTRACT: no triple, and a full SYM and PIX. -/
theorem witness_pixRuns : ∀ k ∈ [4, 1, 2, 3],
    (∃ s : State, s.p = 3 ∧ s.PixLengths k ∧ s.Written .pix 3 s.p) ∧
      (∃ s : State, s.p = 9 ∧ s.PixLengths k ∧ s.Written .pix 3 s.p) := by
  intro k hk
  refine ⟨⟨bench (1, 3, 3) (0, 0, 3) [] [] [], ?_⟩,
    ⟨bench (2 * k, 3, 9) (0, 0, 9) [] [] (List.replicate 9 0xAB), ?_⟩⟩ <;> revert k <;> decide

/-- The three statements of MERGE and that of ENCODE hidden: each check at the first value that fails it; the first bad
symbol at either end. At depth 2, whose alignment is 1, the first check cannot fail. -/
theorem witness_mergeChecks_alignment : ∀ k ∈ [2, 3], ∃ s : State, s.n % k ≠ 0 := fun k hk =>
  ⟨bench (9, 9, 9) (1, 9, 0) [] [] [], by revert k; decide⟩
theorem witness_mergeChecks (d : Depth) :
    (∃ s : State, s.n % d.align = 0 ∧ s.c % 3 ≠ 0) ∧
      (∃ s : State, s.n % d.align = 0 ∧ s.c % 3 = 0 ∧ s.params.symSize < s.n) ∧
      (∃ s : State, s.n % d.align = 0 ∧ s.c % 3 = 0 ∧ s.n ≤ s.params.symSize ∧ s.params.carSize < s.c) ∧
      (∃ s : State, s.n % d.align = 0 ∧ s.c % 3 = 0 ∧ s.n ≤ s.params.symSize ∧ s.params.pixSize < s.c) ∧
      (∃ s : State, s.n % d.align = 0 ∧ s.c % 3 = 0 ∧ s.n ≤ s.params.symSize ∧ s.c ≤ s.params.carSize ∧
        s.c ≤ s.params.pixSize ∧ s.c < d.required s.n) := by
  cases d <;>
    exact ⟨⟨bench (6, 9, 9) (6, 8, 0) [] [] [], by decide⟩, ⟨bench (5, 9, 9) (6, 9, 0) [] [] [], by decide⟩,
      ⟨bench (6, 8, 9) (6, 9, 0) [] [] [], by decide⟩, ⟨bench (6, 9, 8) (6, 9, 0) [] [] [], by decide⟩,
      ⟨bench (6, 6, 6) (6, 6, 0) [] [] [], by decide⟩⟩
theorem witness_mergeChecks_symbols (d : Depth) :
    (∃ s : State, s.MergeLengths d.align (d.required s.n) ∧ s.FirstBadSymbol 0) ∧
      (∃ s : State, s.n = 6 ∧ s.MergeLengths d.align (d.required s.n) ∧ s.FirstBadSymbol 5) := by
  cases d <;>
    exact ⟨⟨bench (6, 21, 21) (6, 21, 0) [64] [] [], by decide⟩,
      ⟨bench (6, 21, 21) (6, 21, 0) [63, 0, 63, 0, 63, 64] [] [], by decide⟩⟩
/-- The three statements of MERGE and that of ENCODE hidden: no symbol, and a full SYM, CAR and PIX. -/
theorem witness_mergeRuns (d : Depth) :
    (∃ s : State, s.n = 0 ∧ s.c = 3 ∧ s.MergeLengths d.align (d.required s.n) ∧ s.Symbols s.n ∧
        s.Written .car 3 (d.required s.n) ∧ s.Written .car 0 s.c) ∧
      (∃ s : State, s.n = 6 ∧ s.c = d.required 6 ∧ s.MergeLengths d.align (d.required s.n) ∧ s.Symbols s.n ∧
        s.Written .car 3 (d.required s.n) ∧ s.Written .car 0 s.c) := by
  cases d
  · exact ⟨⟨bench (1, 3, 3) (0, 3, 0) [] [1, 2, 3] [], by decide⟩,
      ⟨bench (6, 21, 21) (6, 21, 0) (List.replicate 6 63) (List.replicate 21 9) [], by decide⟩⟩
  · exact ⟨⟨bench (1, 3, 3) (0, 3, 0) [] [1, 2, 3] [], by decide⟩,
      ⟨bench (6, 12, 12) (6, 12, 0) (List.replicate 6 63) (List.replicate 12 9) [], by decide⟩⟩
  · exact ⟨⟨bench (1, 3, 3) (0, 3, 0) [] [1, 2, 3] [], by decide⟩,
      ⟨bench (6, 9, 9) (6, 9, 0) (List.replicate 6 63) (List.replicate 9 9) [], by decide⟩⟩

/-- TailFollowsItsRule: each check at the first value that fails it. -/
theorem witness_tailChecks :
    (∃ s : State, s.c % 3 ≠ 0) ∧ (∃ s : State, s.c % 3 = 0 ∧ s.p < 3) ∧ (∃ s : State, s.c % 3 = 0 ∧ s.c < s.p) ∧
      (∃ s : State, s.c % 3 = 0 ∧ 3 ≤ s.p ∧ s.p ≤ s.c ∧ s.params.carSize < s.c) ∧
      (∃ s : State, s.c % 3 = 0 ∧ 3 ≤ s.p ∧ s.p ≤ s.c ∧ s.params.pixSize < s.c) :=
  ⟨⟨bench (1, 9, 9) (0, 8, 3) [] [] [], by decide⟩, ⟨bench (1, 9, 9) (0, 9, 2) [] [] [], by decide⟩,
    ⟨bench (1, 9, 9) (0, 9, 10) [] [] [], by decide⟩, ⟨bench (1, 8, 9) (0, 9, 9) [] [] [], by decide⟩,
    ⟨bench (1, 9, 8) (0, 9, 3) [] [] [], by decide⟩⟩
/-- TailFollowsItsRule: the longest tail of a full image, and an empty one. -/
theorem witness_tailRuns : ∀ p ∈ [3, 9], ∃ s : State, s.p = p ∧ s.c % 3 = 0 ∧ 3 ≤ s.p ∧ s.p ≤ s.c ∧
    s.c ≤ s.params.carSize ∧ s.c ≤ s.params.pixSize ∧ s.Written .car s.p s.c := by
  intro p hp
  refine ⟨bench (1, 9, 9) (0, 9, p) [] (List.replicate 9 0xFF) [], ?_⟩
  revert p
  decide

/-- DecodeFollowsItsRule: a version, two modes, and the pairs of each mode that are refused. -/
theorem witness_decodeHeader : ∀ h ∈ [[1, 0, 0], [1, 0, 2], [2, 2, 7], [0, 0, 1], [3, 0, 1]],
    ∃ s : State, s.params.Legal ∧ 3 ≤ s.p ∧ s.Written .pix 0 3 ∧
      (s.low3 2 ≠ 1 ∨ (s.low3 0 ≠ 1 ∧ s.low3 0 ≠ 2)) := by
  intro h hh
  refine ⟨bench (1, 3, 3) (0, 0, 3) [] [] h, ?_⟩
  revert h
  decide
theorem witness_decodePair : ∀ h ∈ [[1, 1, 1], [1, 7, 1], [2, 0, 1], [2, 3, 1], [2, 7, 1]],
    ∃ s : State, s.params.Legal ∧ 3 ≤ s.p ∧ s.Written .pix 0 3 ∧ s.low3 2 = 1 ∧
      ((s.low3 0 = 1 ∧ s.low3 1 ≠ 0) ∨ (s.low3 0 = 2 ∧ s.low3 1 ≠ 2 ∧ s.low3 1 ≠ 4 ∧ s.low3 1 ≠ 6)) := by
  intro h hh
  refine ⟨bench (1, 3, 3) (0, 0, 3) [] [] h, ?_⟩
  revert h
  decide
/-- DecodeFollowsItsRule, at each legal header: each later check at the first value that fails it. -/
theorem witness_decodeChecks : ∀ x ∈ [(1, 0, 4), (2, 2, 1), (2, 4, 2), (2, 6, 3)],
    (∃ s : State, s.HeaderIs x.1 x.2.1 ∧ (s.p - 3) % 3 ≠ 0) ∧
      (∃ s : State, s.HeaderIs x.1 x.2.1 ∧ (s.p - 3) % 3 = 0 ∧ s.params.pixSize < s.p) ∧
      (∃ s : State, s.HeaderIs x.1 x.2.1 ∧ (s.p - 3) % 3 = 0 ∧ s.p ≤ s.params.pixSize ∧
        s.params.symSize < x.2.2 * (s.p - 3) / 3) := by
  intro x hx
  refine ⟨⟨bench (1, 3, 4) (0, 0, 4) [] [] [x.1, x.2.1, 1], ?_⟩, ⟨bench (8, 3, 5) (0, 0, 6) [] [] [x.1, x.2.1, 1], ?_⟩,
    ⟨bench (2 * x.2.2 - 1, 3, 9) (0, 0, 9) [] [] [x.1, x.2.1, 1], ?_⟩⟩ <;> revert x <;> decide
/-- DecodeFollowsItsRule, at each legal header: no triple, and a full SYM and PIX. -/
theorem witness_decodeRuns : ∀ x ∈ [(1, 0, 4), (2, 2, 1), (2, 4, 2), (2, 6, 3)],
    (∃ s : State, s.p = 3 ∧ s.HeaderIs x.1 x.2.1 ∧ s.PixLengths x.2.2 ∧ s.Written .pix 3 s.p) ∧
      (∃ s : State, s.p = 9 ∧ s.HeaderIs x.1 x.2.1 ∧ s.PixLengths x.2.2 ∧ s.Written .pix 3 s.p) := by
  intro x hx
  refine ⟨⟨bench (1, 3, 3) (0, 0, 3) [] [] [x.1, x.2.1, 1], ?_⟩,
    ⟨bench (2 * x.2.2, 3, 9) (0, 0, 9) [] [] ([x.1, x.2.1, 1] ++ List.replicate 6 0xEE), ?_⟩⟩ <;> revert x <;> decide

/-- QuadsAndTriplesAreInBijection. -/
theorem witness_quads : (63#8).toNat ≤ 63 ∧ (0#8).toNat ≤ 63 := by decide

/-- MergeAndExtractLaws: six symbols and their carrier, and two triples of groups. -/
theorem witness_mergeAndExtractLaws (d : Depth) :
    (∃ carrier symbols : List Byte, symbols.length = 6 ∧ (∀ v ∈ symbols, v.toNat ≤ 63) ∧
        symbols.length % d.align = 0 ∧ carrier.length = d.payload symbols.length) ∧
      ∃ groups : List Byte, groups.length = 6 ∧ (∀ g ∈ groups, g.toNat < 2 ^ d.bits) ∧ groups.length % 3 = 0 := by
  refine ⟨⟨List.replicate (d.payload 6) 0xFF, List.replicate 6 63, ?_⟩, List.replicate 6 3, ?_⟩ <;>
    cases d <;> decide

/-- RequiredCarrierBytes. -/
theorem witness_requiredCarrierBytes (d : Depth) : 6 % d.align = 0 := by cases d <;> rfl

/-- EveryStepKeepsTheInvariant and NoStepChangesTheSizes: the host's move, a command's success and its error. -/
theorem witness_steps : ∀ a ∈ [HostAction.writeByte .pix 38 5, .writeReg 0x00 0x812, .writeReg 0x00 0x606,
      .writeReg 0x00 0xF00, .reset], ∃ s t : State, s.Inv ∧ s.pending = [a] ∧ step s = .next t := by
  intro a ha
  refine ⟨{ ready 2 2 with pending := [a] }, ?_⟩
  have h : State.Inv { ready 2 2 with pending := [a] } := by revert a; decide
  simp only [List.mem_cons, List.not_mem_nil, or_false] at ha
  rcases ha with rfl | rfl | rfl | rfl | rfl <;> exact ⟨_, h, rfl, rfl⟩

/-- OnlyUnwrittenCellsStopACommand. -/
theorem witness_unwrittenCell : ∃ s : State, s.params.Legal ∧ exec .pack s = .fault (.unwrittenCell .sym 3) :=
  ⟨bench usual (4, 0, 0) [1, 2, 3] [] [], by decide, rfl⟩

/-- HostDutiesPreventStops: for every command. -/
theorem witness_hostDuties : ∀ i ∈ legalCommands, ∃ s : State, s.params.Legal ∧ HostDuties i s := by
  intro i hi
  refine ⟨ready 1 0, by decide, ?_⟩
  revert i
  decide

/-- ErrorsChangeNothingButTheReport and EveryCommandReportsItsOutcome: an error. -/
theorem witness_errors : ∃ s t : State, exec .decode s = .next t ∧ t.errcode ≠ 0 :=
  ⟨State.reset, _, rfl, by decide⟩

/-- CarrierIsWrittenOnlyByTheHost: the last cell, which the step changes. -/
theorem witness_carrierWrite : ∃ s t : State, s.pending = .writeByte .car 3071 9 :: [] ∧ 3071 < s.params.carSize ∧
    step s = .next t ∧ t.car ≠ s.car :=
  ⟨{ State.reset with pending := [.writeByte .car 3071 9] }, _, rfl, by decide, rfl, by decide⟩

/-- EngineWritesOnlySymbols: a cell the engine wrote, and one above 63 that it did not. -/
theorem witness_engineWritesOnlySymbols :
    ∃ s t : State, exec .unpack s = .next t ∧ t.byte .sym 0 = some 63 ∧ t.byte .sym 4 = some 0xFF :=
  ⟨bench usual (0, 0, 6) [9, 9, 9, 9, 0xFF] [] [0, 0, 0, 0xFF, 0xFF, 0xFF], _, rfl, by decide, by decide⟩

/-- CommandsWriteOnlyTheirOutputs and CarrierIsReadOnlyWhereTheRulesSay: the commands the lists leave out. -/
theorem witness_outsideTheLists :
    Instr.tail ∉ [Instr.unpack, .extract2, .extract4, .extract6, .decode] ∧ Instr.nop ∉ readsCar ∧
      Instr.decode ∉ readsCar ∧ Instr.encodeStatic8 ∉ readsCar ∧ Instr.pack ∉ [Instr.hdrget, .decode] := by decide

/-- DoneIsClearedOnlyByReset. -/
theorem witness_doneCleared : ∃ s t : State, step s = .next t ∧ s.done = true ∧ t.done = false :=
  ⟨{ State.reset with done := true, pending := [.reset] }, _, rfl, rfl, rfl⟩

/-- CompoundCommandsEqualTheirParts: DECODE's success at each legal header. -/
theorem witness_decodeSucceeds : ∀ x ∈ [(1, 0), (2, 2), (2, 4), (2, 6)], ∃ s t : State,
    exec .decode s = .next t ∧ t.errcode = 0 ∧ s.low3 0 = x.1 ∧ s.low3 1 = x.2 := by
  intro x hx
  have h : succeeds (exec .decode (ready x.1 x.2)) = true := by revert x; decide
  obtain ⟨t, ht, he⟩ := next_of_succeeds h
  refine ⟨ready x.1 x.2, t, ht, he, ?_⟩
  clear h ht he
  revert x
  decide

/-- WholeImageDecodesWithItsTail: images whose symbols just fit SYM, with a tail. -/
theorem witness_wholeImage : ∀ x ∈ [(Instr.encodeHidden2, 1), (.encodeHidden4, 2), (.encodeHidden6, 3)],
    ∃ s t : State, exec x.1 s = .next t ∧ t.errcode = 0 ∧ x.2 * (s.c - 3) / 3 = s.params.symSize ∧
      0 < s.n ∧ s.n / x.2 < (s.c - 3) / 3 := by
  intro x hx
  have h : succeeds (exec x.1 (bench (2 * x.2, 9, 9) (x.2, 9, 0) [63, 0, 63] (List.replicate 9 0xA5) [])) = true := by
    revert x
    decide
  obtain ⟨t, ht, he⟩ := next_of_succeeds h
  refine ⟨_, t, ht, he, ?_⟩
  clear h ht he
  revert x
  decide

/-- ResetMeetsTheInvariant and FirstCommandsAfterReset: the sizes of the model, and the smallest and largest legal. -/
theorem witness_sizes : Params.standard.Legal ∧ (⟨1, 3, 3⟩ : Params).Legal ∧
    (⟨2 ^ 30 - 1, 2 ^ 30 - 1, 2 ^ 30 - 1⟩ : Params).Legal := by decide

end Sys2Proof.Tests
end

section
/-! Every step keeps the invariant (obligation O32). The fields a command leaves alone while it runs (the sizes and the
form of the buffers) are kept by its work; the report and the reset values are restored by the way it ends, since either
end sets DONE. The host's other moves keep the invariant field by field. -/

namespace Sys2Proof.Machine

variable {s t u : State}

/-! ## The form of the buffers -/

/-- One buffer's share of the invariant: canonical form, and no index at or beyond its size (rules R30, R39). -/
def State.BufferOk (s : State) (b : Buf) : Prop :=
  Memory.wf (s.mem b) = true ∧ Memory.below (s.size b) (s.mem b) = true

theorem buffersOk_iff : s.BuffersOk ↔ ∀ b, s.BufferOk b := by
  constructor
  · rintro ⟨hsym, hcar, hpix⟩ (_ | _ | _)
    · exact hsym
    · exact hcar
    · exact hpix
  · exact fun h => ⟨h .sym, h .car, h .pix⟩

/-- Writes below a buffer's size keep the form of every buffer. -/
theorem setMem_keeps_buffersOk {b : Buf} {m : Memory} (hw : WritesTo (s.size b) (s.mem b) m) (h : s.BuffersOk) :
    (s.setMem b m).BuffersOk := by
  rw [buffersOk_iff] at h ⊢
  intro b'
  by_cases hb : b' = b
  · subst hb
    obtain ⟨hwf, hbelow⟩ := h b'
    simpa [State.BufferOk] using And.intro (hw.keeps_wf hwf) (hw.keeps_below hbelow)
  · simpa [State.BufferOk, mem_setMem_ne s m hb] using h b'

/-! ## Commands -/

theorem Worked.params_eq (h : Worked s u) : u.params = s.params := by
  cases h <;> rfl

theorem Worked.keeps_buffersOk (h : Worked s u) (hs : s.BuffersOk) : u.BuffersOk := by
  cases h with
  | nothing => exact hs
  | pix p hw => exact setMem_keeps_buffersOk (b := .pix) hw hs
  | sym n hdr hw => exact setMem_keeps_buffersOk (b := .sym) hw hs
  | hdr hdr => exact hs

/-- The error codes are 1 to 7 (rule R141). -/
theorem Error.code_range (e : Error) : e.code ≠ 0 ∧ e.code.toNat ≤ 7 := by
  cases e <;> decide

/-- The success epilogue sets DONE and a report of 0, whatever the report was before. -/
theorem succeed_inv (hp : s.params.Legal) (hb : s.BuffersOk) : (succeed s).Inv :=
  ⟨hp, hb, ⟨by simp, by simp⟩, fun h => by simp at h⟩

/-- The error entry sets DONE and a code from 1 to 7, whatever the report was before. -/
theorem raiseError_inv (e : Error) (x : Word) (hp : s.params.Legal) (hb : s.BuffersOk) : (raiseError e x s).Inv :=
  ⟨hp, hb, ⟨e.code_range.2, fun h => absurd h e.code_range.1⟩, fun h => by simp at h⟩

/-- A command needs only legal sizes and well-formed buffers to end in the invariant. -/
theorem exec_inv {i : Instr} (hp : s.params.Legal) (hb : s.BuffersOk) (h : exec i s = .next t) : t.Inv := by
  rcases exec_next_cases h with ⟨e, x, rfl⟩ | ⟨u, hu, rfl⟩
  · exact raiseError_inv e x hp hb
  · exact succeed_inv (hu.params_eq ▸ hp) (hu.keeps_buffersOk hb)

/-- A write to CMD ends in the invariant, although CMD is no longer 0 while the command runs. -/
theorem runWord_inv {w : Word} (hp : s.params.Legal) (hb : s.BuffersOk) (h : runWord w s = .next t) : t.Inv := by
  rw [runWord] at h
  cases hd : decode w with
  | ok i =>
    simp only [hd] at h
    exact exec_inv (s := { s with cmd := w }) hp hb h
  | error cause =>
    simp only [hd, Host.Outcome.next.injEq] at h
    subst h
    exact raiseError_inv (s := { s with cmd := w }) _ w hp hb

/-! ## The host's moves -/

theorem regWrite_keeps_inv {r : Reg} {v : Word} (hs : s.Inv) (h : regWrite r v s = .next t) : t.Inv := by
  cases r with
  | cmd =>
    obtain ⟨hp, hb, -, -⟩ := hs
    exact runWord_inv hp hb h
  | status | errinfo | symlen | carlen | pixlen | hdr => cases h; exact hs

theorem setMem_keeps_inv {b : Buf} {m : Memory} (hw : WritesTo (s.size b) (s.mem b) m) (hs : s.Inv) :
    (s.setMem b m).Inv := by
  obtain ⟨hp, hb, hreport, hfresh⟩ := hs
  exact ⟨by simpa using hp, setMem_keeps_buffersOk hw hb, by simpa [State.ReportOk] using hreport,
    by simpa [State.FreshOk] using hfresh⟩

/-- Reset gives the invariant from any state with legal sizes. -/
theorem resetBlock_inv (hp : s.params.Legal) : (resetBlock s).Inv :=
  ⟨hp, ⟨⟨rfl, rfl⟩, ⟨rfl, rfl⟩, rfl, rfl⟩, ⟨by simp, fun _ => rfl⟩, fun _ => ⟨rfl, rfl, rfl, rfl⟩⟩

theorem serve_keeps_inv {a : HostAction} (hs : s.Inv) (h : serve a s = .next t) : t.Inv := by
  cases a with
  | readReg offset =>
    simp only [serve] at h
    split at h <;> cases h
    exact hs
  | writeReg offset v =>
    simp only [serve] at h
    split at h
    · exact regWrite_keeps_inv hs h
    · cases h
  | readByte b i =>
    simp only [serve] at h
    split at h
    · split at h <;> cases h
      exact hs
    · cases h
  | writeByte b i v =>
    simp only [serve] at h
    split at h
    next hi => cases h; exact setMem_keeps_inv (WritesTo.refl.write v hi) hs
    next => cases h
  | reset =>
    obtain ⟨hp, -, -, -⟩ := hs
    cases h
    exact resetBlock_inv hp

/-- Settles O32, by the host's next move: `serve_keeps_inv` over the state without it. -/
theorem everyStepKeepsTheInvariant : Obligations.EveryStepKeepsTheInvariant := by
  intro s t hs h
  rcases step_next_cases h with ⟨-, rfl⟩ | ⟨a, rest, -, h⟩
  · exact hs
  · exact serve_keeps_inv (s := { s with pending := rest }) hs h

end Sys2Proof.Machine
end

section
/-! What the host's moves do to the registers (obligations O2, O4, O7), and what reset leaves (O9, O33). Each move is
taken off the list by one lemma, `step_of_pending`; the rest is about `serve`, the decoder and the register layouts. -/

namespace Sys2Proof

/-! ## The fields of a word, as numbers (rule R51) -/

section
variable (w : Word)

theorem fieldsOf_rsv1_toNat : (fieldsOf w).rsv1.toNat = w.toNat / 4096 := by
  have := w.isLt
  simp only [fieldsOf, BitVec.extractLsb'_toNat, Nat.shiftRight_eq_div_pow]
  omega

theorem fieldsOf_op_toNat : (fieldsOf w).op.toNat = w.toNat / 256 % 16 := by
  simp [fieldsOf, BitVec.extractLsb'_toNat, Nat.shiftRight_eq_div_pow]

theorem fieldsOf_rsv0_toNat : (fieldsOf w).rsv0.toNat = w.toNat / 64 % 4 := by
  simp [fieldsOf, BitVec.extractLsb'_toNat, Nat.shiftRight_eq_div_pow]

theorem fieldsOf_mode_toNat : (fieldsOf w).mode.toNat = w.toNat / 8 % 8 := by
  simp [fieldsOf, BitVec.extractLsb'_toNat, Nat.shiftRight_eq_div_pow]

theorem fieldsOf_depth_toNat : (fieldsOf w).depth.toNat = w.toNat % 8 := by
  simp [fieldsOf, BitVec.extractLsb'_toNat]

end

/-- Rule R56 over the word as a number, and over its fields, refuses the same words. -/
theorem illegalWord_iff (w : Word) : Machine.IllegalWord w ↔ ¬(fieldsOf w).WellFormed := by
  simp only [Machine.IllegalWord, Fields.WellFormed, Fields.isFormatN, Fields.isFormatD, Fields.isFormatMD,
    ← BitVec.toNat_inj, fieldsOf_rsv1_toNat, fieldsOf_op_toNat, fieldsOf_rsv0_toNat, fieldsOf_mode_toNat,
    fieldsOf_depth_toNat, List.mem_cons, List.not_mem_nil, or_false, BitVec.ofNat_eq_ofNat, BitVec.toNat_ofNat,
    Nat.reducePow, Nat.reduceMod, not_and_or, Classical.not_imp, not_lt, not_or, ne_eq]

/-- The decoder rejects an illegal word (rules R56, R63). -/
theorem decode_of_illegal {w : Word} (h : Machine.IllegalWord w) : ∃ cause, decode w = .error cause := by
  have hcause : illegalCause (fieldsOf w) ≠ none := fun hnone => (illegalWord_iff w).1 h (illegalCause_eq_none.1 hnone)
  obtain ⟨cause, hc⟩ := Option.ne_none_iff_exists'.1 hcause
  exact ⟨cause, by simp [decode, hc]⟩

/-- A command's word decodes to it (rules R55, R63). -/
theorem decode_encode (i : Instr) : decode (encode i) = .ok i := by
  cases i <;> rfl

end Sys2Proof

namespace Sys2Proof.Machine

variable {s t : State} {a : HostAction} {rest : List HostAction}

/-! ## One move -/

/-- A step takes the oldest move off the list and serves it (rule R41; log entry 3). -/
theorem step_of_pending (h : s.pending = a :: rest) : step s = serve a { s with pending := rest } := by
  simp [step, serveNext, h]

theorem serve_readReg {x : Nat} {r : Reg} (h : regAt x = some r) :
    serve (.readReg x) s = .next { s with readData := some (regRead s r) } := by
  simp [serve, h]

theorem serve_writeReg {x : Nat} {r : Reg} (v : Word) (h : regAt x = some r) :
    serve (.writeReg x v) s = regWrite r v s := by
  simp [serve, h]

/-- The seven offsets are the only ones that name a register (rule R13). -/
theorem regAt_eq_none {x : Nat} (h : x ∉ [0x00, 0x04, 0x08, 0x0C, 0x10, 0x14, 0x18]) : regAt x = none := by
  unfold regAt
  split
  case h_8 => rfl
  all_goals exact absurd (by decide) h

/-! ## Words written to CMD -/

theorem runWord_of_decode {w : Word} {i : Instr} (h : decode w = .ok i) : runWord w s = exec i { s with cmd := w } := by
  simp [runWord, h]

theorem runWord_of_illegal {w : Word} (h : IllegalWord w) :
    runWord w s = .next (raiseError .illegalCommand w { s with cmd := w }) := by
  obtain ⟨cause, hc⟩ := decode_of_illegal h
  simp [runWord, hc]

/-- The host's write of a word to CMD runs the word, with the move off the list (rule R17). -/
theorem step_writeCmd {w : Word} (h : s.pending = .writeReg 0x00 w :: rest) :
    step s = runWord w { s with pending := rest } := by
  rw [step_of_pending h, serve_writeReg w rfl, regWrite]

/-- Settles O4. -/
theorem stepRunsTheDecodedCommand : Obligations.StepRunsTheDecodedCommand := by
  intro s w i rest hp hd
  rw [step_writeCmd hp, runWord_of_decode hd]

/-- Settles O2: the decoder rejects the word, and the error entry is all that follows. -/
theorem illegalWordsRaiseIllegalCommand : Obligations.IllegalWordsRaiseIllegalCommand := by
  intro s w rest hw hp
  rw [step_writeCmd hp, runWord_of_illegal hw]
  rfl

/-! ## Registers -/

/-- STATUS as its layout gives it: DONE at bit 7, ERRCODE at bits 3:0 (rule R15). -/
theorem statusWord_eq (done : Bool) (errcode : BitVec 4) :
    statusWord done errcode = BitVec.ofNat 32 (done.toNat * 128 + errcode.toNat) := by
  have hlt := errcode.isLt
  apply BitVec.eq_of_toNat_eq
  cases done with
  | false => simp [statusWord]
  | true =>
    have hor : 128 + errcode.toNat = 128 ||| errcode.toNat := Nat.two_pow_add_eq_or_of_lt (i := 7) (by omega) 1
    have hmod : errcode.toNat % 4294967296 = errcode.toNat := Nat.mod_eq_of_lt (by omega)
    simp only [statusWord, if_true, BitVec.toNat_or, BitVec.toNat_setWidth, BitVec.toNat_ofNat, Nat.reducePow,
      Nat.reduceMod, hmod, ← hor, Bool.toNat_true, Nat.one_mul]
    omega

/-- HDR as its layout gives it: VERSION at bits 8:6, MODE at 5:3, DEPTH at 2:0 (rule R18). -/
theorem hdrWord_eq (h : Hdr) :
    h.word = BitVec.ofNat 32 (h.version.toNat * 64 + h.mode.toNat * 8 + h.depth.toNat) := by
  have hv := h.version.isLt
  have hm := h.mode.isLt
  have hd := h.depth.isLt
  apply BitVec.eq_of_toNat_eq
  have hlow : h.mode.toNat * 8 ||| h.depth.toNat = h.mode.toNat * 8 + h.depth.toNat := by
    rw [Nat.mul_comm, ← Nat.two_pow_add_eq_or_of_lt (i := 3) hd]
  have hhigh : h.version.toNat * 64 ||| (h.mode.toNat * 8 + h.depth.toNat) =
      h.version.toNat * 64 + (h.mode.toNat * 8 + h.depth.toNat) := by
    rw [Nat.mul_comm, ← Nat.two_pow_add_eq_or_of_lt (i := 6) (by omega)]
  have hmod : ∀ v < 8, v % 4294967296 = v := fun v hv => Nat.mod_eq_of_lt (by omega)
  simp only [Hdr.word, BitVec.toNat_or, BitVec.toNat_shiftLeft, BitVec.toNat_setWidth, BitVec.toNat_ofNat,
    Nat.shiftLeft_eq, Nat.reducePow, hmod _ hv, hmod _ hm, hmod _ hd]
  rw [Nat.mod_eq_of_lt (by omega : h.version.toNat * 64 < _), Nat.mod_eq_of_lt (by omega : h.mode.toNat * 8 < _),
    Nat.or_assoc, hlow, hhigh]
  omega

/-- The value a read of each offset answers, in the register's layout (rules R12, R15 to R18). -/
def readings (s : State) : List (Nat × Word) :=
  [(0x00, s.cmd), (0x04, BitVec.ofNat 32 (s.done.toNat * 128 + s.errcode.toNat)), (0x08, s.errinfo), (0x0C, s.symlen),
    (0x10, s.carlen), (0x14, s.pixlen),
    (0x18, BitVec.ofNat 32 (s.hdr.version.toNat * 64 + s.hdr.mode.toNat * 8 + s.hdr.depth.toNat))]

/-- Each of the seven offsets names a register, whose read answers the value in its layout. -/
theorem regRead_of_mem_readings {x : Nat × Word} (h : x ∈ readings s) :
    ∃ r, regAt x.1 = some r ∧ regRead s r = x.2 := by
  simp only [readings, ← statusWord_eq, ← hdrWord_eq, List.mem_cons, List.not_mem_nil, or_false] at h
  rcases h with rfl | rfl | rfl | rfl | rfl | rfl | rfl
  · exact ⟨.cmd, rfl, rfl⟩
  · exact ⟨.status, rfl, rfl⟩
  · exact ⟨.errinfo, rfl, rfl⟩
  · exact ⟨.symlen, rfl, rfl⟩
  · exact ⟨.carlen, rfl, rfl⟩
  · exact ⟨.pixlen, rfl, rfl⟩
  · exact ⟨.hdr, rfl, rfl⟩

theorem step_readReg {x : Nat × Word} (hx : x ∈ readings s) (h : s.pending = .readReg x.1 :: rest) :
    step s = .next { s with pending := rest, readData := some x.2 } := by
  obtain ⟨r, hr, hread⟩ := regRead_of_mem_readings hx
  rw [step_of_pending h, serve_readReg hr, ← hread]
  cases r <;> rfl

/-- A write of any register is the register's own write, with the move off the list. -/
theorem step_writeReg {x : Nat} {v : Word} {r : Reg} (hr : regAt x = some r) (h : s.pending = .writeReg x v :: rest) :
    step s = regWrite r v { s with pending := rest } := by
  rw [step_of_pending h, serve_writeReg v hr]

/-- STATUS, ERRINFO and HDR ignore a write (rule R13). -/
theorem step_writeReg_ignored {x : Nat} {v : Word} (hx : x ∈ [0x04, 0x08, 0x18])
    (h : s.pending = .writeReg x v :: rest) : step s = .next { s with pending := rest } := by
  simp only [List.mem_cons, List.not_mem_nil, or_false] at hx
  rcases hx with rfl | rfl | rfl
  · exact step_writeReg (r := .status) rfl h
  · exact step_writeReg (r := .errinfo) rfl h
  · exact step_writeReg (r := .hdr) rfl h

theorem step_readReg_refused {x : Nat} (hx : regAt x = none) (h : s.pending = .readReg x :: rest) :
    step s = .refused (.registerOffset x) := by
  simp [step_of_pending h, serve, hx]

theorem step_writeReg_refused {x : Nat} {v : Word} (hx : regAt x = none) (h : s.pending = .writeReg x v :: rest) :
    step s = .refused (.registerOffset x) := by
  simp [step_of_pending h, serve, hx]

/-- Settles O7: reads by `readings`, writes register by register, and refusal where no register is named. -/
theorem hostRegisterAccess : Obligations.HostRegisterAccess := by
  refine ⟨fun s rest x hx h => step_readReg hx h, fun s rest v => ⟨?_, ?_, ?_, ?_, ?_⟩,
    fun s rest v x hx => ⟨?_, ?_⟩⟩
  · exact step_writeReg (r := .symlen) rfl
  · exact step_writeReg (r := .carlen) rfl
  · exact step_writeReg (r := .pixlen) rfl
  · exact fun x hx h => step_writeReg_ignored hx h
  · exact fun i h => stepRunsTheDecodedCommand s _ i rest h (decode_encode i)
  · exact step_readReg_refused (regAt_eq_none hx)
  · exact step_writeReg_refused (regAt_eq_none hx)

/-! ## Reset -/

/-- The state after reset, whatever the sizes, has every register 0 and no cell with a value (rule R23). -/
theorem resetWith_fresh (p : Params) : (State.resetWith p).Fresh :=
  ⟨⟨rfl, rfl, rfl, rfl, rfl, rfl, rfl, rfl⟩, fun b _ => by cases b <;> rfl⟩

/-- So has the block after the host's reset, from any state (rule R170). -/
theorem resetBlock_fresh (s : State) : (resetBlock s).Fresh := resetWith_fresh s.params

/-- Settles O9. -/
theorem resetClearsRegistersAndCells : Obligations.ResetClearsRegistersAndCells :=
  ⟨resetWith_fresh _, fun s rest h => ⟨resetBlock { s with pending := rest }, step_of_pending h, resetBlock_fresh _⟩⟩

/-- The reset state is what the host's reset makes of itself, so it meets the invariant as any reset does. -/
theorem resetWith_inv {p : Params} (hp : p.Legal) : (State.resetWith p).Inv :=
  resetBlock_inv (s := State.resetWith p) hp

/-- Settles O33. -/
theorem resetMeetsTheInvariant : Obligations.ResetMeetsTheInvariant :=
  ⟨resetWith_inv (by decide), fun _ hp => resetWith_inv hp⟩

end Sys2Proof.Machine
end

section
/-! What a command can change, report and read, over all 54 rows (obligations O37, O40, O41, O44). The rows fall into
thirteen kinds of work (`Runs`), and each fact is proved once per kind: an invalid pair of a mode and a depth is one
kind, so no later proof looks at the 34 rows that are refused. -/

namespace Sys2Proof.Machine

/-! ## The work of each command -/

/-- The work of `HDRPUT hidden` at a supported depth (rule R103). -/
def hdrputHiddenWork (d : Depth) (s : State) : Except Stop State := do
  require (s.c ≤ s.params.carSize) .bounds s.carlen
  require (3 ≤ s.c) .capacity (word 3)
  putHiddenHeader d s

/-- The work of `HDRGET` (rule R104). -/
def hdrgetWork (s : State) : Except Stop State := do
  require (3 ≤ s.p) .length s.pixlen
  let h ← readHeader s
  .ok { s with hdr := h }

/-- The work of `PACK` (rule R73). -/
def packWork (s : State) : Except Stop State := do
  packChecks s
  packEffect s

/-- The work of `UNPACK` (rule R74). -/
def unpackWork (s : State) : Except Stop State := do
  unpackChecks s
  unpackEffect s

/-- The work of `MERGE` at a supported depth (rules R89 to R91). -/
def mergeWork (d : Depth) (s : State) : Except Stop State := do
  mergeChecks d s
  mergeEffect d s

/-- The work of `EXTRACT` at a supported depth (rules R92 to R94). -/
def extractWork (d : Depth) (s : State) : Except Stop State := do
  extractChecks d s
  extractEffect d s

/-- The work of `TAIL` (rule R95). -/
def tailWork (s : State) : Except Stop State := do
  require (s.c % 3 = 0) .length s.carlen
  require (3 ≤ s.p ∧ s.p ≤ s.c) .length s.pixlen
  require (s.c ≤ s.params.carSize) .bounds s.carlen
  require (s.c ≤ s.params.pixSize) .bounds s.carlen
  let t ← putTail s.p s
  .ok { t with pixlen := s.carlen }

/-- DECODE's first four checks (rule R113): the header of PIX and what its pair selects. -/
def decodeHeader (s : State) : Except Stop (Hdr × Coding) := do
  require (3 ≤ s.p) .length s.pixlen
  let h ← readHeader s
  require (h.version = Config.formatVersion) .header h.word
  require (h.mode = modeStatic ∨ h.mode = modeHidden) .header h.word
  let x ← requireLegal h.mode h.depth
  .ok (h, x)

/-- The rest of DECODE (rule R113): the work of UNPACK or of EXTRACT. -/
def decodePayload (s : State) : Coding → Except Stop State
  | .static => unpackWork s
  | .hidden d => extractWork d s

/-- The work of `DECODE` (rule R113). -/
def decodeWork (s : State) : Except Stop State := do
  let (h, x) ← decodeHeader s
  let t ← decodePayload s x
  .ok { t with hdr := h }

/-- `HDRPUT hidden` at a supported depth. -/
def Depth.hdrput : Depth → Instr
  | .two => .hdrputHidden2
  | .four => .hdrputHidden4
  | .six => .hdrputHidden6

/-- `MERGE` at a supported depth. -/
def Depth.merge : Depth → Instr
  | .two => .merge2
  | .four => .merge4
  | .six => .merge6

/-- `EXTRACT` at a supported depth. -/
def Depth.extract : Depth → Instr
  | .two => .extract2
  | .four => .extract4
  | .six => .extract6

/-- `ENCODE hidden` at a supported depth. -/
def Depth.encode : Depth → Instr
  | .two => .encodeHidden2
  | .four => .encodeHidden4
  | .six => .encodeHidden6

/-- The work a command runs, by kind. A row whose mode and depth are not supported does nothing but report it (rules
R88, R103, R116). -/
inductive Runs : Instr → (State → Except Stop State) → Prop where
  | nop : Runs .nop .ok
  | notSupported (i : Instr) (info : Word) : Runs i fun _ => .error (.error .notSupported info)
  | hdrputStatic : Runs .hdrputStatic8 putStaticHeader
  | hdrputHidden (d : Depth) : Runs d.hdrput (hdrputHiddenWork d)
  | hdrget : Runs .hdrget hdrgetWork
  | pack : Runs .pack packWork
  | unpack : Runs .unpack unpackWork
  | merge (d : Depth) : Runs d.merge (mergeWork d)
  | extract (d : Depth) : Runs d.extract (extractWork d)
  | tail : Runs .tail tailWork
  | encodeStatic : Runs .encodeStatic8 encodeStaticWork
  | encodeHidden (d : Depth) : Runs d.encode (encodeHiddenWork d)
  | decode : Runs .decode decodeWork

/-- DECODE, cut at the end of its header checks. -/
theorem decodeCommand_eq (s : State) : decodeCommand s = runCommand s (decodeWork s) := by
  simp only [decodeCommand, decodeWork, decodeHeader, bind_assoc, bind_ok]
  refine congrArg (runCommand s) (bind_congr fun _ => bind_congr fun h => bind_congr fun _ => bind_congr fun _ =>
    bind_congr fun x => ?_)
  cases x <;> simp only [decodePayload, unpackWork, extractWork, bind_assoc]

/-- Every command runs, in the frame of rule R50, the work of its kind. -/
theorem exec_runs (i : Instr) : ∃ w, Runs i w ∧ ∀ s, exec i s = runCommand s (w s) := by
  cases i
  case nop => exact ⟨_, .nop, fun _ => rfl⟩
  case hdrputStatic8 => exact ⟨_, .hdrputStatic, fun _ => rfl⟩
  case hdrputHidden2 => exact ⟨_, .hdrputHidden .two, fun _ => rfl⟩
  case hdrputHidden4 => exact ⟨_, .hdrputHidden .four, fun _ => rfl⟩
  case hdrputHidden6 => exact ⟨_, .hdrputHidden .six, fun _ => rfl⟩
  case hdrget => exact ⟨_, .hdrget, fun _ => rfl⟩
  case pack => exact ⟨_, .pack, fun _ => rfl⟩
  case unpack => exact ⟨_, .unpack, fun _ => rfl⟩
  case merge2 => exact ⟨_, .merge .two, fun _ => rfl⟩
  case merge4 => exact ⟨_, .merge .four, fun _ => rfl⟩
  case merge6 => exact ⟨_, .merge .six, fun _ => rfl⟩
  case extract2 => exact ⟨_, .extract .two, fun _ => rfl⟩
  case extract4 => exact ⟨_, .extract .four, fun _ => rfl⟩
  case extract6 => exact ⟨_, .extract .six, fun _ => rfl⟩
  case tail => exact ⟨_, .tail, fun _ => rfl⟩
  case encodeStatic8 => exact ⟨_, .encodeStatic, fun _ => rfl⟩
  case encodeHidden2 => exact ⟨_, .encodeHidden .two, fun _ => rfl⟩
  case encodeHidden4 => exact ⟨_, .encodeHidden .four, fun _ => rfl⟩
  case encodeHidden6 => exact ⟨_, .encodeHidden .six, fun _ => rfl⟩
  case decode => exact ⟨_, .decode, decodeCommand_eq⟩
  all_goals exact ⟨_, .notSupported _ _, fun _ => rfl⟩

variable {i : Instr} {s t u : State} {w : State → Except Stop State}

/-! ## What a command reports -/

/-! Reads and writes of cells raise no error of the spec: they stop only with a fault. -/

section
variable {b : Buf} {a len : Nat} {e : Error} {x : Word}

@[simp] theorem memRead_ne_error : memRead s b a ≠ .error (.error e x) := fun h => by
  rcases memRead_eq_error h with ⟨-, h⟩ | ⟨-, -, h⟩ <;> cases h

@[simp] theorem readRange_ne_error : readRange s b a len ≠ .error (.error e x) := fun h => by
  obtain ⟨j, -, -, ⟨-, h⟩ | ⟨-, -, h⟩⟩ := readRange_eq_error h <;> cases h

@[simp] theorem writeRange_ne_error {vs : List Byte} : writeRange s b a vs ≠ .error (.error e x) := fun h => by
  induction vs generalizing s a with
  | nil => cases h
  | cons v vs ih =>
    rw [writeRange, bind_eq_error] at h
    obtain h | ⟨u, -, h⟩ := h
    · rw [memWrite] at h
      split at h <;> cases h
    · exact ih h

/-! So do the effects of the commands, once their checks have passed. -/

@[simp] theorem packEffect_ne_error : packEffect s ≠ .error (.error e x) := by
  simp [packEffect, bind_eq_error]

@[simp] theorem unpackEffect_ne_error : unpackEffect s ≠ .error (.error e x) := by
  simp [unpackEffect, bind_eq_error]

@[simp] theorem putPayload_ne_error {d : Depth} : putPayload d s ≠ .error (.error e x) := by
  simp [putPayload, bind_eq_error]

@[simp] theorem mergeEffect_ne_error {d : Depth} : mergeEffect d s ≠ .error (.error e x) := by
  simp [mergeEffect, bind_eq_error]

@[simp] theorem extractEffect_ne_error {d : Depth} : extractEffect d s ≠ .error (.error e x) := by
  simp [extractEffect, bind_eq_error]

@[simp] theorem putTail_ne_error : putTail a s ≠ .error (.error e x) := by
  simp [putTail, bind_eq_error]

@[simp] theorem putStaticHeader_ne_error : putStaticHeader s ≠ .error (.error e x) := writeRange_ne_error

@[simp] theorem putHiddenHeader_ne_error {d : Depth} : putHiddenHeader d s ≠ .error (.error e x) := by
  simp [putHiddenHeader, bind_eq_error]

@[simp] theorem readHeader_ne_error : readHeader s ≠ .error (.error e x) := by
  simp [readHeader, bind_eq_error]

/-! The checks raise errors of the spec, but never `IllegalCommand`, which only a word that is no command raises (rule
R149). -/

@[simp] theorem checkSymbols_ne_illegalCommand : checkSymbols s a len ≠ .error (.error .illegalCommand x) := fun h => by
  obtain ⟨j, -, -, ⟨-, h⟩ | ⟨-, -, h⟩ | ⟨v, -, -, h⟩⟩ := checkSymbols_eq_error h <;> cases h

@[simp] theorem packChecks_ne_illegalCommand : packChecks s ≠ .error (.error .illegalCommand x) := by
  simp [packChecks, bind_eq_error, require_eq_error]

@[simp] theorem unpackChecks_ne_illegalCommand : unpackChecks s ≠ .error (.error .illegalCommand x) := by
  simp [unpackChecks, bind_eq_error, require_eq_error]

@[simp] theorem mergeChecks_ne_illegalCommand {d : Depth} : mergeChecks d s ≠ .error (.error .illegalCommand x) := by
  simp [mergeChecks, bind_eq_error, require_eq_error]

@[simp] theorem extractChecks_ne_illegalCommand {d : Depth} :
    extractChecks d s ≠ .error (.error .illegalCommand x) := by
  simp [extractChecks, bind_eq_error, require_eq_error]

@[simp] theorem requireLegal_ne_illegalCommand {m d : BitVec 3} :
    requireLegal m d ≠ .error (.error .illegalCommand x) := by
  unfold requireLegal
  split <;> simp

@[simp] theorem decodeHeader_ne_illegalCommand : decodeHeader s ≠ .error (.error .illegalCommand x) := by
  simp [decodeHeader, bind_eq_error, require_eq_error]

@[simp] theorem unpackWork_ne_illegalCommand : unpackWork s ≠ .error (.error .illegalCommand x) := by
  simp [unpackWork, bind_eq_error]

@[simp] theorem extractWork_ne_illegalCommand {d : Depth} : extractWork d s ≠ .error (.error .illegalCommand x) := by
  simp [extractWork, bind_eq_error]

@[simp] theorem decodePayload_ne_illegalCommand {c : Coding} :
    decodePayload s c ≠ .error (.error .illegalCommand x) := by
  cases c with
  | static => exact unpackWork_ne_illegalCommand
  | hidden d => exact extractWork_ne_illegalCommand

/-- No command's work raises `IllegalCommand`. -/
theorem Runs.ne_illegalCommand (hw : Runs i w) : w s ≠ .error (.error .illegalCommand x) := by
  cases hw with
  | nop | notSupported => simp
  | hdrputStatic => exact putStaticHeader_ne_error
  | hdrputHidden d => simp [hdrputHiddenWork, bind_eq_error, require_eq_error]
  | hdrget => simp [hdrgetWork, bind_eq_error, require_eq_error]
  | pack => simp [packWork, bind_eq_error]
  | unpack => exact unpackWork_ne_illegalCommand
  | merge d => simp [mergeWork, bind_eq_error]
  | extract d => exact extractWork_ne_illegalCommand
  | tail => simp [tailWork, bind_eq_error, require_eq_error]
  | encodeStatic => simp [encodeStaticWork, bind_eq_error]
  | encodeHidden d => simp [encodeHiddenWork, bind_eq_error]
  | decode => simp [decodeWork, bind_eq_error]

end

/-! ## What a command changes -/

/-- The commands that write SYM and SYMLEN (rules R12, R30). -/
def symWriters : List Instr := [.unpack, .extract2, .extract4, .extract6, .decode]

/-- The commands that write PIXLEN (rule R12). -/
def pixlenWriters : List Instr :=
  [.pack, .merge2, .merge4, .merge6, .tail, .encodeStatic8, .encodeHidden2, .encodeHidden4, .encodeHidden6]

/-- The commands that write PIX (rule R30). -/
def pixWriters : List Instr := [.hdrputStatic8, .hdrputHidden2, .hdrputHidden4, .hdrputHidden6] ++ pixlenWriters

/-- The commands that write HDR (rule R18). -/
def hdrWriters : List Instr := [.hdrget, .decode]

/-- What the work of a command, come out right, can have changed: `Worked`, told apart by the outputs the command has.
-/
inductive Effect (i : Instr) (s : State) : State → Prop where
  | nothing : Effect i s s
  | header (m : Memory) (hi : i ∈ pixWriters) : Effect i s { s with pix := m }
  | image (m : Memory) (p : Word) (hi : i ∈ pixlenWriters) : Effect i s { s with pix := m, pixlen := p }
  | symbols (m : Memory) (n : Word) (hi : i ∈ symWriters) : Effect i s { s with sym := m, symlen := n }
  | hdr (h : Hdr) (hi : i ∈ hdrWriters) : Effect i s { s with hdr := h }
  | decoded (m : Memory) (n : Word) (h : Hdr) (hs : i ∈ symWriters) (hh : i ∈ hdrWriters) :
      Effect i s { s with sym := m, symlen := n, hdr := h }

theorem mem_pixWriters_of_mem_pixlenWriters {i : Instr} (h : i ∈ pixlenWriters) : i ∈ pixWriters :=
  List.mem_append_right _ h

theorem Depth.hdrput_mem_pixWriters (d : Depth) : d.hdrput ∈ pixWriters := by cases d <;> decide
theorem Depth.merge_mem_pixlenWriters (d : Depth) : d.merge ∈ pixlenWriters := by cases d <;> decide
theorem Depth.encode_mem_pixlenWriters (d : Depth) : d.encode ∈ pixlenWriters := by cases d <;> decide
theorem Depth.extract_mem_symWriters (d : Depth) : d.extract ∈ symWriters := by cases d <;> decide

theorem unpackWork_wrote (h : unpackWork s = .ok u) : ∃ m n, u = { s with sym := m, symlen := n } := by
  obtain ⟨-, -, h⟩ := bind_eq_ok.1 h
  obtain ⟨m, -, rfl⟩ := unpackEffect_wrote h
  exact ⟨m, _, rfl⟩

theorem extractWork_wrote {d : Depth} (h : extractWork d s = .ok u) : ∃ m n, u = { s with sym := m, symlen := n } := by
  obtain ⟨-, -, h⟩ := bind_eq_ok.1 h
  obtain ⟨m, -, rfl⟩ := extractEffect_wrote h
  exact ⟨m, _, rfl⟩

theorem decodePayload_wrote {c : Coding} (h : decodePayload s c = .ok u) :
    ∃ m n, u = { s with sym := m, symlen := n } := by
  cases c with
  | static => exact unpackWork_wrote h
  | hidden d => exact extractWork_wrote h

/-- The work of each kind changes only the outputs of its commands. -/
theorem Runs.effect (hw : Runs i w) (h : w s = .ok u) : Effect i s u := by
  cases hw with
  | nop => cases h; exact .nothing
  | notSupported => cases h
  | hdrputStatic =>
    obtain ⟨m, -, rfl⟩ := putStaticHeader_wrote h
    exact .header m (by decide)
  | hdrputHidden d =>
    simp only [hdrputHiddenWork, bind_eq_ok] at h
    obtain ⟨-, -, -, -, h⟩ := h
    obtain ⟨m, -, rfl⟩ := putHiddenHeader_wrote h
    exact .header m d.hdrput_mem_pixWriters
  | hdrget =>
    simp only [hdrgetWork, bind_eq_ok, Except.ok.injEq] at h
    obtain ⟨-, -, v, -, rfl⟩ := h
    exact .hdr v (by decide)
  | pack =>
    obtain ⟨-, -, h⟩ := bind_eq_ok.1 h
    obtain ⟨m, -, rfl⟩ := packEffect_wrote h
    exact .image m _ (by decide)
  | unpack =>
    obtain ⟨m, n, rfl⟩ := unpackWork_wrote h
    exact .symbols m n (by decide)
  | merge d =>
    obtain ⟨-, -, h⟩ := bind_eq_ok.1 h
    obtain ⟨m, -, rfl⟩ := mergeEffect_wrote h
    exact .image m _ d.merge_mem_pixlenWriters
  | extract d =>
    obtain ⟨m, n, rfl⟩ := extractWork_wrote h
    exact .symbols m n d.extract_mem_symWriters
  | tail =>
    simp only [tailWork, bind_eq_ok, Except.ok.injEq] at h
    obtain ⟨-, -, -, -, -, -, -, -, v, hv, rfl⟩ := h
    obtain ⟨m, -, rfl⟩ := putTail_wrote hv
    exact .image m _ (by decide)
  | encodeStatic =>
    obtain ⟨m, -, rfl⟩ := encodeStaticWork_wrote h
    exact .image m _ (by decide)
  | encodeHidden d =>
    obtain ⟨m, -, rfl⟩ := encodeHiddenWork_wrote h
    exact .image m _ d.encode_mem_pixlenWriters
  | decode =>
    simp only [decodeWork, bind_eq_ok, Except.ok.injEq] at h
    obtain ⟨⟨v, c⟩, -, t, ht, rfl⟩ := h
    obtain ⟨m, n, rfl⟩ := decodePayload_wrote ht
    exact .decoded m n v (by decide) (by decide)

/-- The next state of a command, by the command's outputs and errors: an error report of a command's error over the
state it started from, or the success epilogue over its effect. -/
theorem exec_next_effect (h : exec i s = .next t) :
    (∃ e x, e ≠ .illegalCommand ∧ t = raiseError e x s) ∨ ∃ u, Effect i s u ∧ t = succeed u := by
  obtain ⟨w, hw, hexec⟩ := exec_runs i
  rw [hexec] at h
  rcases runCommand_eq_next h with ⟨u, hu, rfl⟩ | ⟨e, x, he, rfl⟩
  · exact .inr ⟨u, hw.effect hu, rfl⟩
  · exact .inl ⟨e, x, fun hill => hw.ne_illegalCommand (hill ▸ he), rfl⟩

/-- The codes of the errors a command raises are 1 to 6 (rule R141). -/
theorem Error.code_range_of_ne_illegalCommand {e : Error} (h : e ≠ .illegalCommand) :
    1 ≤ e.code.toNat ∧ e.code.toNat ≤ 6 := by
  cases e with
  | illegalCommand => exact absurd rfl h
  | capacity | notSupported | invalidSymbol | length | bounds | header => decide

/-- Settles O37, by the two ways a command ends. -/
theorem everyCommandReportsItsOutcome : Obligations.EveryCommandReportsItsOutcome := by
  intro i s t h
  rcases exec_next_effect h with ⟨e, x, he, rfl⟩ | ⟨u, -, rfl⟩
  · exact ⟨rfl, .inr (Error.code_range_of_ne_illegalCommand he)⟩
  · exact ⟨rfl, .inl ⟨rfl, rfl⟩⟩

/-- Settles O40: an error changes none of these, and an effect only the outputs of its command. -/
theorem commandsWriteOnlyTheirOutputs : Obligations.CommandsWriteOnlyTheirOutputs := by
  intro i s t h
  rcases exec_next_effect h with ⟨e, x, -, rfl⟩ | ⟨u, hu, rfl⟩
  · simp
  · cases hu with
    | nothing => simp
    | header m hi => exact ⟨by simp, fun hn => absurd hi hn, by simp⟩
    | image m p hi =>
      exact ⟨by simp, fun hn => absurd (mem_pixWriters_of_mem_pixlenWriters hi) hn, fun hn => absurd hi hn, by simp⟩
    | symbols m n hi => exact ⟨fun hn => absurd hi hn, by simp⟩
    | hdr h hi => exact ⟨by simp, by simp, by simp, fun hn => absurd hi hn, by simp⟩
    | decoded m n h hs hh =>
      exact ⟨fun hn => absurd hs hn, by simp, by simp, fun hn => absurd hh hn, by simp⟩

/-! ## DONE -/

theorem exec_done (h : exec i s = .next t) : t.done = true := (everyCommandReportsItsOutcome i s t h).1

theorem runWord_done {w : Word} (h : runWord w s = .next t) : t.done = true := by
  rw [runWord] at h
  cases hd : decode w with
  | ok i => rw [hd] at h; exact exec_done h
  | error cause => rw [hd] at h; cases h; rfl

theorem regWrite_keeps_done {r : Reg} {v : Word} (hs : s.done = true) (h : regWrite r v s = .next t) :
    t.done = true := by
  cases r with
  | cmd => exact runWord_done h
  | status | errinfo | symlen | carlen | pixlen | hdr => cases h; exact hs

/-- Every move of the host but reset leaves a set DONE set. -/
theorem serve_keeps_done {a : HostAction} (ha : a ≠ .reset) (hs : s.done = true) (h : serve a s = .next t) :
    t.done = true := by
  cases a with
  | readReg offset =>
    simp only [serve] at h
    split at h <;> cases h
    exact hs
  | writeReg offset v =>
    simp only [serve] at h
    split at h
    · exact regWrite_keeps_done hs h
    · cases h
  | readByte b k =>
    simp only [serve] at h
    split at h
    · split at h <;> cases h
      exact hs
    · cases h
  | writeByte b k v =>
    simp only [serve] at h
    split at h <;> cases h
    simpa using hs
  | reset => exact absurd rfl ha

/-- Settles O41, by the host's next move. -/
theorem doneIsClearedOnlyByReset : Obligations.DoneIsClearedOnlyByReset := by
  intro s t h hs ht
  rcases step_next_cases h with ⟨-, rfl⟩ | ⟨a, rest, hp, h⟩
  · simp [hs] at ht
  · by_cases ha : a = .reset
    · exact ⟨rest, ha ▸ hp⟩
    · have hdone := serve_keeps_done (s := { s with pending := rest }) ha hs h
      simp [hdone] at ht

/-! ## What a command reads of the carrier -/

/-- The state with another carrier: other contents of CAR and another CARLEN. -/
def State.withCar (m : Memory) (c : Word) (s : State) : State := { s with car := m, carlen := c }

section
variable {m : Memory} {c : Word} {b : Buf} {a len : Nat}

@[simp] theorem withCar_params : (s.withCar m c).params = s.params := rfl
@[simp] theorem withCar_symlen : (s.withCar m c).symlen = s.symlen := rfl
@[simp] theorem withCar_pixlen : (s.withCar m c).pixlen = s.pixlen := rfl
@[simp] theorem withCar_n : (s.withCar m c).n = s.n := rfl
@[simp] theorem withCar_p : (s.withCar m c).p = s.p := rfl
@[simp] theorem withCar_size : (s.withCar m c).size b = s.size b := by cases b <;> rfl

theorem sym_ne_car : Buf.sym ≠ .car := by decide
theorem pix_ne_car : Buf.pix ≠ .car := by decide

theorem withCar_mem (hb : b ≠ .car) : (s.withCar m c).mem b = s.mem b := by
  cases b with
  | car => exact absurd rfl hb
  | sym | pix => rfl

theorem withCar_setMem (hb : b ≠ .car) (v : Memory) : (s.withCar m c).setMem b v = (s.setMem b v).withCar m c := by
  cases b with
  | car => exact absurd rfl hb
  | sym | pix => rfl

/-! Reads of SYM and PIX do not see the carrier, and writes of them commute with changing it. -/

@[simp] theorem memRead_withCar (hb : b ≠ .car) : memRead (s.withCar m c) b a = memRead s b a := by
  simp [memRead, State.byte, withCar_mem hb]

@[simp] theorem readRange_withCar (hb : b ≠ .car) : readRange (s.withCar m c) b a len = readRange s b a len := by
  induction len generalizing a with
  | zero => rfl
  | succ len ih => simp only [readRange, memRead_withCar hb, ih]

@[simp] theorem writeRange_withCar (hb : b ≠ .car) (vs : List Byte) :
    writeRange (s.withCar m c) b a vs = State.withCar m c <$> writeRange s b a vs := by
  induction vs generalizing s a with
  | nil => rfl
  | cons v vs ih =>
    simp only [writeRange, memWrite, withCar_size, withCar_mem hb, withCar_setMem hb]
    split
    · exact ih
    · rfl

@[simp] theorem checkSymbols_withCar : checkSymbols (s.withCar m c) a len = checkSymbols s a len := by
  induction len generalizing a with
  | zero => rfl
  | succ len ih => simp [checkSymbols, ih]

@[simp] theorem readHeader_withCar : readHeader (s.withCar m c) = readHeader s := by
  simp [readHeader]

/-! So do the checks and the work of the commands outside `readsCar`. -/

@[simp] theorem packChecks_withCar : packChecks (s.withCar m c) = packChecks s := by
  rw [packChecks, checkSymbols_withCar]
  rfl

@[simp] theorem packEffect_withCar : packEffect (s.withCar m c) = State.withCar m c <$> packEffect s := by
  simp only [packEffect, readRange_withCar sym_ne_car, writeRange_withCar pix_ne_car, map_bind, bind_map_left]
  rfl

@[simp] theorem putStaticHeader_withCar :
    putStaticHeader (s.withCar m c) = State.withCar m c <$> putStaticHeader s := writeRange_withCar (by decide) _

@[simp] theorem unpackWork_withCar : unpackWork (s.withCar m c) = State.withCar m c <$> unpackWork s := by
  simp only [unpackWork, unpackChecks, unpackEffect, readRange_withCar pix_ne_car, writeRange_withCar sym_ne_car,
    map_bind, bind_map_left]
  rfl

@[simp] theorem extractWork_withCar {d : Depth} :
    extractWork d (s.withCar m c) = State.withCar m c <$> extractWork d s := by
  simp only [extractWork, extractChecks, extractEffect, readRange_withCar pix_ne_car, writeRange_withCar sym_ne_car,
    map_bind, bind_map_left]
  rfl

@[simp] theorem decodeHeader_withCar : decodeHeader (s.withCar m c) = decodeHeader s := by
  rw [decodeHeader, readHeader_withCar]
  rfl

@[simp] theorem decodePayload_withCar {x : Coding} :
    decodePayload (s.withCar m c) x = State.withCar m c <$> decodePayload s x := by
  cases x with
  | static => exact unpackWork_withCar
  | hidden d => exact extractWork_withCar

theorem Depth.hdrput_mem_readsCar (d : Depth) : d.hdrput ∈ readsCar := by cases d <;> decide
theorem Depth.merge_mem_readsCar (d : Depth) : d.merge ∈ readsCar := by cases d <;> decide
theorem Depth.encode_mem_readsCar (d : Depth) : d.encode ∈ readsCar := by cases d <;> decide

/-- The work of a command outside `readsCar` commutes with changing the carrier, whatever it ends in. -/
theorem Runs.withCar (hw : Runs i w) (hi : i ∉ readsCar) : w (s.withCar m c) = State.withCar m c <$> w s := by
  cases hw with
  | nop | notSupported => rfl
  | hdrputStatic => exact putStaticHeader_withCar
  | hdrputHidden d => exact absurd d.hdrput_mem_readsCar hi
  | hdrget =>
    simp only [hdrgetWork, readHeader_withCar, map_bind]
    rfl
  | pack => simp [packWork, map_bind]
  | unpack => exact unpackWork_withCar
  | merge d => exact absurd d.merge_mem_readsCar hi
  | extract d => exact extractWork_withCar
  | tail => exact absurd (by decide) hi
  | encodeStatic => simp [encodeStaticWork, map_bind]
  | encodeHidden d => exact absurd d.encode_mem_readsCar hi
  | decode =>
    simp only [decodeWork, decodeHeader_withCar, decodePayload_withCar, map_bind, bind_map_left]
    rfl

/-- Where a command's work commutes with changing the carrier, so does its next state: neither way of ending reads
it. -/
theorem runCommand_withCar {x : Except Stop State} (h : runCommand s x = .next t) :
    runCommand (s.withCar m c) (State.withCar m c <$> x) = .next (t.withCar m c) := by
  rcases runCommand_eq_next h with ⟨u, rfl, rfl⟩ | ⟨e, info, rfl, rfl⟩ <;> rfl

end

/-- Settles O44. -/
theorem carrierIsReadOnlyWhereTheRulesSay : Obligations.CarrierIsReadOnlyWhereTheRulesSay := by
  intro i s t m c hi h
  obtain ⟨w, hw, hexec⟩ := exec_runs i
  change exec i (s.withCar m c) = .next (t.withCar m c)
  rw [hexec] at h ⊢
  rw [hw.withCar hi]
  exact runCommand_withCar h

end Sys2Proof.Machine
end

section
/-! What the host's moves and the commands do to the cells of the buffers (obligations O8, O38, O39). A move is a read
or a write of one cell; what a command can write follows from its kind of work (`Runs`): none writes CAR, and the kinds
that write SYM write symbols. -/

namespace Sys2Proof.Machine

variable {i : Instr} {s t u : State} {w : State → Except Stop State}

/-! ## The host's access to a cell -/

section
variable {b : Buf} {a : Nat} {v : Byte} {rest : List HostAction}

/-- What a cell holds after a write of one cell. -/
theorem byte_setMem_write (b' : Buf) (x : Nat) :
    (s.setMem b (Memory.write (s.mem b) a v)).byte b' x = if (b', x) = (b, a) then some v else s.byte b' x := by
  by_cases hb : b' = b
  · subst hb
    simp [State.byte, read_write]
  · rw [byte_setMem_ne s hb, if_neg (by simp [hb])]

theorem serve_writeByte (h : a < s.size b) :
    serve (.writeByte b a v) s = .next (s.setMem b (Memory.write (s.mem b) a v)) := by
  simp [serve, h]

theorem serve_writeByte_refused (h : s.size b ≤ a) : serve (.writeByte b a v) s = .refused (.bufferIndex b a) := by
  simp [serve, Nat.not_lt.2 h]

theorem serve_readByte (h : a < s.size b) (hv : s.byte b a = some v) :
    serve (.readByte b a) s = .next { s with readData := some (v.setWidth 32) } := by
  simp [serve, h, hv]

theorem serve_readByte_unwritten (h : a < s.size b) (hv : s.byte b a = none) :
    serve (.readByte b a) s = .fault (.unwrittenCell b a) := by
  simp [serve, h, hv]

theorem serve_readByte_refused (h : s.size b ≤ a) : serve (.readByte b a) s = .refused (.bufferIndex b a) := by
  simp [serve, Nat.not_lt.2 h]

/-- A replaced buffer leaves everything but the buffers as it was. -/
theorem setMem_eq (b : Buf) (m : Memory) :
    s.setMem b m = { s with sym := (s.setMem b m).sym, car := (s.setMem b m).car, pix := (s.setMem b m).pix } := by
  cases b <;> rfl

/-- A host write within a buffer puts the byte in its cell and changes no other cell and nothing else. -/
theorem step_writeByte (h : a < s.size b) (hp : s.pending = .writeByte b a v :: rest) :
    ∃ t, step s = .next t ∧ (∀ b' x, t.byte b' x = if (b', x) = (b, a) then some v else s.byte b' x) ∧
      t = { s with pending := rest, sym := t.sym, car := t.car, pix := t.pix } :=
  ⟨_, (step_of_pending hp).trans (serve_writeByte (s := { s with pending := rest }) h),
    byte_setMem_write (s := { s with pending := rest }), setMem_eq (s := { s with pending := rest }) b _⟩

/-- Settles O8: a step serves the move, and each of its cases is the equation of `serve` for it. -/
theorem hostByteAccess : Obligations.HostByteAccess := by
  intro s rest b a v
  refine ⟨fun h hp => ?_, fun h hv hp => ?_, fun h hv hp => ?_, fun h hp => ?_, fun h hp => ?_⟩
  · obtain ⟨t, hstep, hbyte, ht⟩ := step_writeByte h hp
    exact ⟨t, hstep, by simp [hbyte], fun b' x hx => by rw [hbyte, if_neg hx], ht⟩
  · exact (step_of_pending hp).trans (serve_readByte (s := { s with pending := rest }) h hv)
  · exact (step_of_pending hp).trans (serve_readByte_unwritten (s := { s with pending := rest }) h hv)
  · exact (step_of_pending hp).trans (serve_writeByte_refused (s := { s with pending := rest }) h)
  · exact (step_of_pending hp).trans (serve_readByte_refused (s := { s with pending := rest }) h)

end

/-! ## The carrier is the host's (rule R32) -/

theorem Effect.car_eq (h : Effect i s u) : u.car = s.car := by
  cases h <;> rfl

theorem exec_keeps_car (h : exec i s = .next t) : t.car = s.car := by
  rcases exec_next_effect h with ⟨e, x, -, rfl⟩ | ⟨u, hu, rfl⟩
  · rfl
  · exact hu.car_eq

theorem runWord_keeps_car {x : Word} (h : runWord x s = .next t) : t.car = s.car := by
  rw [runWord] at h
  cases hd : decode x with
  | ok i => rw [hd] at h; exact exec_keeps_car (s := { s with cmd := x }) h
  | error cause => rw [hd] at h; cases h; rfl

theorem regWrite_keeps_car {r : Reg} {v : Word} (h : regWrite r v s = .next t) : t.car = s.car := by
  cases r with
  | cmd => exact runWord_keeps_car h
  | status | errinfo | symlen | carlen | pixlen | hdr => cases h; rfl

/-- What a move of the host can leave: another answer, a register's own write, another byte in a buffer, or reset. -/
theorem serve_next_cases {a : HostAction} (h : serve a s = .next t) :
    (∃ d, t = { s with readData := d }) ∨
      (∃ x v r, a = .writeReg x v ∧ regAt x = some r ∧ regWrite r v s = .next t) ∨
      (∃ b x v, a = .writeByte b x v ∧ x < s.size b ∧ t = s.setMem b (Memory.write (s.mem b) x v)) ∨
      (a = .reset ∧ t = resetBlock s) := by
  cases a with
  | readReg offset =>
    simp only [serve] at h
    split at h <;> cases h
    exact .inl ⟨_, rfl⟩
  | writeReg offset v =>
    simp only [serve] at h
    split at h
    next r hr => exact .inr (.inl ⟨offset, v, r, rfl, hr, h⟩)
    next => cases h
  | readByte b x =>
    simp only [serve] at h
    split at h
    · split at h <;> cases h
      exact .inl ⟨_, rfl⟩
    · cases h
  | writeByte b x v =>
    simp only [serve] at h
    split at h
    next hx => cases h; exact .inr (.inr (.inl ⟨b, x, v, rfl, hx, rfl⟩))
    next => cases h
  | reset => cases h; exact .inr (.inr (.inr ⟨rfl, rfl⟩))

/-- A move that changes CAR is the host's own write to it, or its reset. -/
theorem serve_changes_car {a : HostAction} (h : serve a s = .next t) (hcar : t.car ≠ s.car) :
    a = .reset ∨ ∃ x v, a = .writeByte .car x v := by
  rcases serve_next_cases h with ⟨d, rfl⟩ | ⟨_, _, _, -, -, hreg⟩ | ⟨b, x, v, rfl, -, rfl⟩ | ⟨rfl, -⟩
  · exact absurd rfl hcar
  · exact absurd (regWrite_keeps_car hreg) hcar
  · cases b with
    | car => exact .inr ⟨x, v, rfl⟩
    | sym | pix => exact absurd rfl hcar
  · exact .inl rfl

/-- Settles O38: a command by its effect, a step by the move it serves. -/
theorem carrierIsWrittenOnlyByTheHost : Obligations.CarrierIsWrittenOnlyByTheHost := by
  refine ⟨fun i s t h => exec_keeps_car h, fun s t h hcar => ?_, fun s a v rest hp ha => ?_⟩
  · rcases step_next_cases h with ⟨-, rfl⟩ | ⟨a, rest, hp, hserve⟩
    · exact absurd rfl hcar
    · exact ⟨a, rest, hp, serve_changes_car hserve hcar⟩
  · obtain ⟨t, hstep, hbyte, -⟩ := step_writeByte (b := .car) ha hp
    exact ⟨t, hstep, by simp [hbyte]⟩

/-! ## What the engine writes in SYM are symbols (rules R31, R71, R82, R83, R85) -/

section
variable {x y : Byte} {k m : Nat}

theorem or_le_63 (hx : x.toNat ≤ 63) (hy : y.toNat ≤ 63) : (x ||| y).toNat ≤ 63 := by
  rw [BitVec.toNat_or]
  exact Nat.le_of_lt_succ (Nat.or_lt_two_pow (n := 6) (by omega) (by omega))

theorem and_toNat_le : (x &&& y).toNat ≤ y.toNat := by
  rw [BitVec.toNat_and]
  exact Nat.and_le_right

theorem shiftRight_le_63 (hk : 2 ≤ k) : (x >>> k).toNat ≤ 63 := by
  have hx := x.isLt
  have hpow : x.toNat / 2 ^ k ≤ x.toNat / 2 ^ 2 := Nat.div_le_div_left (Nat.pow_le_pow_right (by omega) hk) (by omega)
  rw [BitVec.toNat_ushiftRight, Nat.shiftRight_eq_div_pow]
  omega

theorem shiftLeft_le_63 (hx : x.toNat ≤ m) (hm : m * 2 ^ k ≤ 63) : (x <<< k).toNat ≤ 63 := by
  rw [BitVec.toNat_shiftLeft, Nat.shiftLeft_eq]
  exact (Nat.mod_le _ _).trans ((Nat.mul_le_mul_right _ hx).trans hm)

end

/-- Every byte of a list is a symbol. -/
def AllSymbols (vs : List Byte) : Prop := ∀ v ∈ vs, v.toNat ≤ 63

@[simp] theorem allSymbols_nil : AllSymbols [] := by simp [AllSymbols]

@[simp] theorem allSymbols_cons {v : Byte} {vs : List Byte} :
    AllSymbols (v :: vs) ↔ v.toNat ≤ 63 ∧ AllSymbols vs := List.forall_mem_cons

/-- The four symbols of a triple of bytes (rule R71). -/
theorem unpack3_le_63 {b0 b1 b2 s0 s1 s2 s3 : Byte} (h : unpack3 b0 b1 b2 = (s0, s1, s2, s3)) :
    s0.toNat ≤ 63 ∧ s1.toNat ≤ 63 ∧ s2.toNat ≤ 63 ∧ s3.toNat ≤ 63 := by
  simp only [unpack3, Prod.mk.injEq] at h
  obtain ⟨rfl, rfl, rfl, rfl⟩ := h
  refine ⟨shiftRight_le_63 (by decide), or_le_63 ?_ ?_, or_le_63 ?_ ?_, and_toNat_le⟩
  · exact shiftLeft_le_63 and_toNat_le (by decide)
  · exact shiftRight_le_63 (by decide)
  · exact shiftLeft_le_63 and_toNat_le (by decide)
  · exact shiftRight_le_63 (by decide)

theorem unpackAll_allSymbols (vs : List Byte) : AllSymbols (unpackAll vs) := by
  fun_induction unpackAll vs with
  | case1 b0 b1 b2 rest s0 s1 s2 s3 hs ih =>
    obtain ⟨h0, h1, h2, h3⟩ := unpack3_le_63 hs
    simp [h0, h1, h2, h3, ih]
  | case2 => simp

/-! The symbols joined from groups no wider than the depth. -/

theorem joinAll2_allSymbols {gs : List Byte} (h : ∀ g ∈ gs, g.toNat ≤ 3) : AllSymbols (joinAll2 gs) := by
  fun_induction joinAll2 gs with
  | case1 g0 g1 g2 rest ih =>
    simp only [List.forall_mem_cons] at h
    obtain ⟨h0, h1, h2, hrest⟩ := h
    have hsym : (join2 g0 g1 g2).toNat ≤ 63 := or_le_63
      (or_le_63 (shiftLeft_le_63 h0 (by decide)) (shiftLeft_le_63 h1 (by decide))) (by omega)
    exact allSymbols_cons.2 ⟨hsym, ih hrest⟩
  | case2 => simp

theorem joinAll4_allSymbols {gs : List Byte} (h : ∀ g ∈ gs, g.toNat ≤ 15) : AllSymbols (joinAll4 gs) := by
  fun_induction joinAll4 gs with
  | case1 g0 g1 g2 rest s0 s1 hs ih =>
    simp only [List.forall_mem_cons] at h
    obtain ⟨h0, -, h2, hrest⟩ := h
    simp only [join4, Prod.mk.injEq] at hs
    obtain ⟨rfl, rfl⟩ := hs
    have hsym0 := or_le_63 (shiftLeft_le_63 h0 (k := 2) (by decide)) (shiftRight_le_63 (x := g1) le_rfl)
    have hsym1 := or_le_63 (shiftLeft_le_63 (x := g1 &&& 0x3) (k := 4) and_toNat_le (by decide))
      (by omega : g2.toNat ≤ 63)
    exact allSymbols_cons.2 ⟨hsym0, allSymbols_cons.2 ⟨hsym1, ih hrest⟩⟩
  | case2 => simp

theorem joinAll6_allSymbols {gs : List Byte} (h : AllSymbols gs) : AllSymbols (joinAll6 gs) := by
  fun_induction joinAll6 gs with
  | case1 g0 g1 g2 rest s0 s1 s2 hs ih =>
    simp only [join6, Prod.mk.injEq] at hs
    obtain ⟨rfl, rfl, rfl⟩ := hs
    simp only [allSymbols_cons] at h ⊢
    obtain ⟨h0, h1, h2, hrest⟩ := h
    exact ⟨h0, h1, h2, ih hrest⟩
  | case2 => simp

/-- Whatever the bytes, what EXTRACT joins from their low bits are symbols. -/
theorem extractAll_allSymbols (d : Depth) (bytes : List Byte) : AllSymbols (extractAll d bytes) := by
  have hlow : ∀ g ∈ bytes.map (· &&& d.lo), g.toNat ≤ d.lo.toNat := by
    simp only [List.forall_mem_map]
    exact fun _ _ => and_toNat_le
  cases d with
  | two => exact joinAll2_allSymbols hlow
  | four => exact joinAll4_allSymbols hlow
  | six => exact joinAll6_allSymbols hlow

/-- What a cell of a buffer holds later, it held before or is a symbol. -/
def WritesSymbols (before after : Memory) : Prop :=
  ∀ a v, Memory.read after a = some v → Memory.read before a = some v ∨ v.toNat ≤ 63

theorem WritesSymbols.of_eq {before after : Memory} (h : after = before) : WritesSymbols before after :=
  fun _ _ hv => .inl (h ▸ hv)

theorem writeRange_writesSymbols {a : Nat} {vs : List Byte} (hvs : AllSymbols vs)
    (h : writeRange s .sym a vs = .ok t) : WritesSymbols s.sym t.sym := by
  obtain ⟨rfl, -⟩ := writeRange_eq_ok h
  intro x v hv
  rw [setMem_sym_sym, read_writeList] at hv
  split at hv
  · exact .inr (hvs v (List.mem_of_getElem? hv))
  · exact .inl hv

theorem unpackWork_writesSymbols (h : unpackWork s = .ok u) : WritesSymbols s.sym u.sym := by
  simp only [unpackWork, unpackEffect, bind_eq_ok, Except.ok.injEq] at h
  obtain ⟨-, -, bytes, -, t, ht, rfl⟩ := h
  exact writeRange_writesSymbols (t := t) (unpackAll_allSymbols bytes) ht

theorem extractWork_writesSymbols {d : Depth} (h : extractWork d s = .ok u) : WritesSymbols s.sym u.sym := by
  simp only [extractWork, extractEffect, bind_eq_ok, Except.ok.injEq] at h
  obtain ⟨-, -, bytes, -, t, ht, rfl⟩ := h
  exact writeRange_writesSymbols (t := t) (extractAll_allSymbols d bytes) ht

theorem decodeWork_writesSymbols (h : decodeWork s = .ok u) : WritesSymbols s.sym u.sym := by
  simp only [decodeWork, bind_eq_ok, Except.ok.injEq] at h
  obtain ⟨⟨v, c⟩, -, t, ht, rfl⟩ := h
  cases c with
  | static => exact unpackWork_writesSymbols (u := t) ht
  | hidden d => exact extractWork_writesSymbols (u := t) ht

theorem Effect.sym_eq (h : Effect i s u) (hi : i ∉ symWriters) : u.sym = s.sym := by
  cases h with
  | nothing | header | image | hdr => rfl
  | symbols m n hs | decoded m n v hs => exact absurd hs hi

/-- The kinds of work that write no cell of SYM leave it as it is; those that do write symbols. -/
theorem Runs.writesSymbols (hw : Runs i w) (h : w s = .ok u) : WritesSymbols s.sym u.sym := by
  have he := hw.effect h
  cases hw with
  | unpack => exact unpackWork_writesSymbols h
  | extract d => exact extractWork_writesSymbols h
  | decode => exact decodeWork_writesSymbols h
  | notSupported => cases h
  | nop | hdrputStatic | hdrget | pack | tail | encodeStatic => exact .of_eq (he.sym_eq (by decide))
  | hdrputHidden d | merge d | encodeHidden d => exact .of_eq (he.sym_eq (by cases d <;> decide))

/-- Settles O39: an error changes no cell, and the work of each kind writes symbols only. -/
theorem engineWritesOnlySymbols : Obligations.EngineWritesOnlySymbols := by
  intro i s t h
  obtain ⟨w, hw, hexec⟩ := exec_runs i
  rw [hexec] at h
  rcases runCommand_eq_next h with ⟨u, hu, rfl⟩ | ⟨e, x, -, rfl⟩
  · exact hw.writesSymbols (u := u) hu
  · exact fun a v hv => .inl hv

end Sys2Proof.Machine
end

section
/-! Where a command stops (obligation O34): each kind of work (`Runs`) reads and writes within the bounds its checks
have passed, so a read of a cell without a value is the one way it can fault. -/

namespace Sys2Proof.Machine

variable {i : Instr} {s t : State} {w : State → Except Stop State}

/-! ## How a stop goes through work -/

/-- Work that stops the machine, if it does, at a cell within its buffer that holds no value in `s`. (The work may run
on a later state, whose PIX is another.) -/
def FaultsAtUnwritten {α : Type} (s : State) (x : Except Stop α) : Prop :=
  ∀ f, x = .error (.fault f) → ∃ b a, f = .unwrittenCell b a ∧ a < s.size b ∧ s.byte b a = none

namespace FaultsAtUnwritten

variable {α β : Type}

theorem ok (a : α) : FaultsAtUnwritten s (.ok a) := fun _ h => by cases h

theorem error (e : Error) (info : Word) : FaultsAtUnwritten s (.error (.error e info) : Except Stop α) :=
  fun _ h => by cases h

/-- Two steps of work in a row, of which the second may rest on what the first has passed. -/
theorem bind {x : Except Stop α} {g : α → Except Stop β} (hx : FaultsAtUnwritten s x)
    (hg : ∀ a, x = .ok a → FaultsAtUnwritten s (g a)) : FaultsAtUnwritten s (x >>= g) := fun f h => by
  rcases bind_eq_error.1 h with h | ⟨a, ha, h⟩
  · exact hx f h
  · exact hg a ha f h

section
variable {p : Prop} [Decidable p] {e : Error} {info : Word}

theorem require : FaultsAtUnwritten s (require p e info) := fun f h => by
  obtain ⟨-, h⟩ := require_eq_error.1 h
  cases h

/-- The work behind a check may rest on it. -/
theorem require_bind {g : Unit → Except Stop β} (hg : p → FaultsAtUnwritten s (g ())) :
    FaultsAtUnwritten s (Machine.require p e info >>= g) :=
  .bind .require fun _ h => hg (require_eq_ok.1 h)

end

theorem memRead {b : Buf} {a : Nat} (h : a < s.size b) : FaultsAtUnwritten s (memRead s b a) := fun f hf => by
  rcases memRead_eq_error hf with ⟨hbeyond, -⟩ | ⟨-, hnone, hstop⟩
  · omega
  · exact ⟨b, a, by simpa using hstop, h, hnone⟩

theorem readRange {b : Buf} {a len : Nat} (h : a + len ≤ s.size b) : FaultsAtUnwritten s (readRange s b a len) :=
  fun f hf => by
  obtain ⟨j, -, hlt, ⟨hbeyond, -⟩ | ⟨hin, hnone, hstop⟩⟩ := readRange_eq_error hf
  · omega
  · exact ⟨b, j, by simpa using hstop, hin, hnone⟩

theorem checkSymbols {a len : Nat} (h : a + len ≤ s.params.symSize) : FaultsAtUnwritten s (checkSymbols s a len) :=
  fun f hf => by
  obtain ⟨j, -, hlt, ⟨hbeyond, -⟩ | ⟨hin, hnone, hstop⟩ | ⟨v, -, -, hstop⟩⟩ := checkSymbols_eq_error hf
  · omega
  · exact ⟨.sym, j, by simpa using hstop, hin, hnone⟩
  · cases hstop

/-- Bytes that fit are written without a stop. -/
theorem writeRange {b : Buf} {a : Nat} {vs : List Byte} (h : a + vs.length ≤ t.size b) :
    FaultsAtUnwritten s (writeRange t b a vs) := by
  rw [writeRange_of_le h]
  exact .ok _

end FaultsAtUnwritten

/-! Reads of SYM and CAR do not see a changed PIX, so the work of a compound command stops where it would in the state
the command started from. -/

/-- The state with other contents of PIX. -/
def State.withPix (m : Memory) (s : State) : State := { s with pix := m }

section
variable {m : Memory} {b : Buf} {a len : Nat}

@[simp] theorem withPix_params : (s.withPix m).params = s.params := rfl
@[simp] theorem withPix_n : (s.withPix m).n = s.n := rfl
@[simp] theorem withPix_c : (s.withPix m).c = s.c := rfl
@[simp] theorem withPix_size : (s.withPix m).size b = s.size b := by cases b <;> rfl

@[simp] theorem memRead_withPix (hb : b ≠ .pix) : memRead (s.withPix m) b a = memRead s b a := by
  cases b with
  | pix => exact absurd rfl hb
  | sym | car => rfl

@[simp] theorem readRange_withPix (hb : b ≠ .pix) : readRange (s.withPix m) b a len = readRange s b a len := by
  induction len generalizing a with
  | zero => rfl
  | succ len ih => simp only [readRange, memRead_withPix hb, ih]

end

theorem sym_ne_pix : Buf.sym ≠ .pix := by decide
theorem car_ne_pix : Buf.car ≠ .pix := by decide

/-! ## The checks, and the lengths they leave -/

theorem packChecks_faults : FaultsAtUnwritten s (packChecks s) :=
  .require_bind fun _ => .require_bind fun hsym => .require_bind fun _ => .checkSymbols (by omega)

theorem packChecks_lengths {v : Unit} (h : packChecks s = .ok v) : s.PackLengths := by
  simp only [packChecks, bind_eq_ok, require_eq_ok] at h
  obtain ⟨-, hmul, -, hsym, -, hpix, -⟩ := h
  exact ⟨hmul, hsym, hpix⟩

theorem mergeChecks_faults {d : Depth} : FaultsAtUnwritten s (mergeChecks d s) :=
  .require_bind fun _ => .require_bind fun _ => .require_bind fun hsym => .require_bind fun _ => .require_bind fun _ =>
    .require_bind fun _ => .checkSymbols (by omega)

theorem mergeChecks_lengths {d : Depth} {v : Unit} (h : mergeChecks d s = .ok v) :
    s.MergeLengths d.align (d.required s.n) := by
  simp only [mergeChecks, bind_eq_ok, require_eq_ok] at h
  obtain ⟨-, halign, -, htriples, -, hsym, -, hcar, -, hpix, -, hneed, -⟩ := h
  exact ⟨halign, htriples, hsym, hcar, hpix, hneed⟩

theorem unpackChecks_faults : FaultsAtUnwritten s (unpackChecks s) :=
  .require_bind fun _ => .require_bind fun _ => .require

theorem unpackChecks_lengths {v : Unit} (h : unpackChecks s = .ok v) : s.PixLengths 4 := by
  simp only [unpackChecks, bind_eq_ok, require_eq_ok] at h
  obtain ⟨-, htriples, -, hpix, hsym⟩ := h
  exact ⟨htriples, hpix, hsym⟩

theorem extractChecks_faults {d : Depth} : FaultsAtUnwritten s (extractChecks d s) :=
  .require_bind fun _ => .require_bind fun _ => .require

theorem extractChecks_lengths {d : Depth} {v : Unit} (h : extractChecks d s = .ok v) : s.PixLengths d.perTriple := by
  simp only [extractChecks, bind_eq_ok, require_eq_ok] at h
  obtain ⟨-, htriples, -, hpix, hsym⟩ := h
  exact ⟨htriples, hpix, hsym⟩

theorem requireLegal_faults {m d : BitVec 3} : FaultsAtUnwritten s (requireLegal m d) := by
  rw [requireLegal]
  split
  · exact .ok _
  · exact .error _ _

/-! ## The effects, within the lengths the checks leave -/

theorem putStaticHeader_faults (hp : s.params.Legal) : FaultsAtUnwritten s (putStaticHeader s) := by
  obtain ⟨-, -, hpix, -⟩ := hp
  exact .writeRange (b := .pix) hpix

theorem putHiddenHeader_faults {d : Depth} (hp : s.params.Legal) : FaultsAtUnwritten s (putHiddenHeader d s) := by
  obtain ⟨-, ⟨hcar, -⟩, hpix, -⟩ := hp
  refine .bind (.readRange (b := .car) hcar) fun cs hcs => .writeRange ?_
  have hlen := readRange_length hcs
  simpa [tag, hlen] using hpix

theorem packEffect_faults (m : Memory) (h : s.PackLengths) : FaultsAtUnwritten s (packEffect (s.withPix m)) := by
  obtain ⟨-, hsym, hpix⟩ := h
  rw [packEffect, readRange_withPix sym_ne_pix, withPix_n]
  refine .bind (.readRange (b := .sym) (by simpa using hsym)) fun vs hvs => .bind (.writeRange ?_) fun _ _ => .ok _
  have hlen : vs.length = s.n := readRange_length hvs
  simp only [packAll_length, hlen, size_pix, withPix_params]
  omega

theorem putPayload_faults {d : Depth} (m : Memory) (h : s.MergeLengths d.align (d.required s.n)) :
    FaultsAtUnwritten s (putPayload d (s.withPix m)) := by
  obtain ⟨-, -, hsym, hcar, hpix, hneed⟩ := h
  have hreq : 3 + d.payload s.n ≤ s.c := hneed
  rw [putPayload, readRange_withPix sym_ne_pix, readRange_withPix car_ne_pix, withPix_n]
  refine .bind (.readRange (b := .sym) (by simpa using hsym)) fun vs hvs =>
    .bind (.readRange (b := .car) (hreq.trans hcar)) fun cs hcs => .writeRange ?_
  have hlen : cs.length = d.payload s.n := readRange_length hcs
  simp only [mergeAll, List.length_zipWith, hlen, size_pix, withPix_params]
  omega

theorem putTail_faults {a : Nat} (m : Memory) (ha : a ≤ s.c) (hcar : s.c ≤ s.params.carSize)
    (hpix : s.c ≤ s.params.pixSize) : FaultsAtUnwritten s (putTail a (s.withPix m)) := by
  have hfull : a + (s.c - a) = s.c := Nat.add_sub_cancel' ha
  rw [putTail, readRange_withPix car_ne_pix, withPix_c]
  refine .bind (.readRange (b := .car) (hfull.le.trans hcar)) fun cs hcs => .writeRange ?_
  have hlen : cs.length = s.c - a := readRange_length hcs
  rw [List.length_map, hlen, hfull, withPix_size]
  exact hpix

theorem readHeader_faults (hp : s.params.Legal) : FaultsAtUnwritten s (readHeader s) := by
  obtain ⟨-, -, hpix, -⟩ := hp
  have hcell : ∀ a, a < 3 → FaultsAtUnwritten s (memRead s .pix a) := fun a ha =>
    .memRead (b := .pix) (ha.trans_le hpix)
  exact .bind (hcell 0 (by decide)) fun _ _ => .bind (hcell 1 (by decide)) fun _ _ =>
    .bind (hcell 2 (by decide)) fun _ _ => .ok _

/-- Symbols written to SYM from triples of PIX, for UNPACK and EXTRACT. -/
theorem symbols_faults {k : Nat} {f : List Byte → List Byte} {g : State → State} (h : s.PixLengths k)
    (hf : ∀ vs, (f vs).length = k * (vs.length / 3)) :
    FaultsAtUnwritten s (do
      let bytes ← readRange s .pix 3 (s.p - 3)
      let t ← writeRange s .sym 0 (f bytes)
      .ok (g t)) := by
  obtain ⟨⟨h3, htriples⟩, hpix, hsym⟩ := h
  refine .bind (.readRange (b := .pix) ?_) fun vs hvs => .bind (.writeRange ?_) fun _ _ => .ok _
  · rwa [Nat.add_sub_cancel' h3]
  · have hlen : vs.length = s.p - 3 := readRange_length hvs
    rw [Nat.zero_add, hf, hlen, ← symbols_eq k htriples]
    exact hsym

/-! ## The work of each kind -/

theorem unpackWork_faults : FaultsAtUnwritten s (unpackWork s) :=
  .bind unpackChecks_faults fun _ h => symbols_faults (unpackChecks_lengths h) unpackAll_length

theorem extractWork_faults {d : Depth} : FaultsAtUnwritten s (extractWork d s) :=
  .bind extractChecks_faults fun _ h => symbols_faults (extractChecks_lengths h) (extractAll_length d)

theorem tailWork_faults : FaultsAtUnwritten s (tailWork s) :=
  .require_bind fun _ => .require_bind fun hp => .require_bind fun hcar => .require_bind fun hpix =>
    .bind (putTail_faults s.pix hp.2 hcar hpix) fun _ _ => .ok _

theorem encodeStaticWork_faults (hp : s.params.Legal) : FaultsAtUnwritten s (encodeStaticWork s) := by
  refine .bind packChecks_faults fun _ hchecks => .bind (putStaticHeader_faults hp) fun t ht => ?_
  obtain ⟨m, -, rfl⟩ := putStaticHeader_wrote ht
  exact packEffect_faults m (packChecks_lengths hchecks)

theorem encodeHiddenWork_faults {d : Depth} (hp : s.params.Legal) : FaultsAtUnwritten s (encodeHiddenWork d s) := by
  refine .bind mergeChecks_faults fun _ hchecks => .bind (putHiddenHeader_faults hp) fun t ht => ?_
  obtain ⟨-, -, -, hcar, hpix, hneed⟩ := mergeChecks_lengths hchecks
  obtain ⟨m, -, rfl⟩ := putHiddenHeader_wrote ht
  refine .bind (putPayload_faults m (mergeChecks_lengths hchecks)) fun u hu => ?_
  obtain ⟨m', -, rfl⟩ := putPayload_wrote hu
  exact .bind (putTail_faults m' hneed hcar hpix) fun _ _ => .ok _

theorem decodeWork_faults (hp : s.params.Legal) : FaultsAtUnwritten s (decodeWork s) := by
  have hheader : FaultsAtUnwritten s (decodeHeader s) :=
    .require_bind fun _ => .bind (readHeader_faults hp) fun _ _ => .require_bind fun _ => .require_bind fun _ =>
      .bind requireLegal_faults fun _ _ => .ok _
  refine .bind hheader fun ⟨v, c⟩ _ => .bind ?_ fun _ _ => .ok _
  cases c with
  | static => exact unpackWork_faults
  | hidden d => exact extractWork_faults

/-- With legal sizes, the work of every kind stays within its buffers. -/
theorem Runs.faults (hw : Runs i w) (hp : s.params.Legal) : FaultsAtUnwritten s (w s) := by
  cases hw with
  | nop => exact .ok _
  | notSupported => exact .error _ _
  | hdrputStatic => exact putStaticHeader_faults hp
  | hdrputHidden d => exact .require_bind fun _ => .require_bind fun _ => putHiddenHeader_faults hp
  | hdrget => exact .require_bind fun _ => .bind (readHeader_faults hp) fun _ _ => .ok _
  | pack => exact .bind packChecks_faults fun _ h => packEffect_faults s.pix (packChecks_lengths h)
  | unpack => exact unpackWork_faults
  | merge d =>
    exact .bind mergeChecks_faults fun _ h =>
      .bind (putPayload_faults s.pix (mergeChecks_lengths h)) fun _ _ => .ok _
  | extract d => exact extractWork_faults
  | tail => exact tailWork_faults
  | encodeStatic => exact encodeStaticWork_faults hp
  | encodeHidden d => exact encodeHiddenWork_faults hp
  | decode => exact decodeWork_faults hp

/-- Settles O34, by the kind of work the command runs. -/
theorem onlyUnwrittenCellsStopACommand : Obligations.OnlyUnwrittenCellsStopACommand := by
  intro i s hp
  obtain ⟨w, hw, hexec⟩ := exec_runs i
  rw [hexec]
  exact ⟨fun f h => hw.faults hp f (runCommand_eq_fault h), runCommand_ne_refused⟩

end Sys2Proof.Machine
end

section
/-! The encoding of the opcode table (obligations O1, O3, O6). The key fact is that every well-formed set of fields
belongs to a row of the table, found by the format of its operation (rule R52). Since a word is made of its fields, the
words that are not illegal are the table's words, and the decoder, which gives each of them its own command back and
rejects every other word, is the encoder's inverse. -/

namespace Sys2Proof

/-! ## The fields of a row, by operation -/

theorem fields_hdrputStaticOf : ∀ d, (hdrputStaticOf d).fields = Fields.ofCodes 0x1 1 d := by decide
theorem fields_hdrputHiddenOf : ∀ d, (hdrputHiddenOf d).fields = Fields.ofCodes 0x1 2 d := by decide
theorem fields_mergeOf : ∀ d, (mergeOf d).fields = Fields.ofCodes 0x5 0 d := by decide
theorem fields_extractOf : ∀ d, (extractOf d).fields = Fields.ofCodes 0x6 0 d := by decide
theorem fields_encodeStaticOf : ∀ d, (encodeStaticOf d).fields = Fields.ofCodes 0x8 1 d := by decide
theorem fields_encodeHiddenOf : ∀ d, (encodeHiddenOf d).fields = Fields.ofCodes 0x8 2 d := by decide

/-- A command's word has the fields of its row (rules R51, R55). -/
theorem fieldsOf_encode (i : Instr) : fieldsOf (encode i) = i.fields := by
  cases i <;> rfl

/-! ## Well-formed fields belong to a row -/

theorem Fields.WellFormed.eq_ofCodes {f : Fields} (hf : f.WellFormed) (op : BitVec 4) (hop : f.op.toNat = op.toNat) :
    Fields.ofCodes op f.mode f.depth = f := by
  obtain ⟨hrsv1, hrsv0, -⟩ := hf
  simp only [Fields.ofCodes, ← BitVec.eq_of_toNat_eq hop, ← hrsv1, ← hrsv0]

/-- The three formats of rule R52 cover the operation codes that rule R56 (c) lets through. -/
theorem Fields.WellFormed.format {f : Fields} (hf : f.WellFormed) : f.isFormatN ∨ f.isFormatD ∨ f.isFormatMD := by
  obtain ⟨-, -, hop, -⟩ := hf
  simp only [Fields.isFormatN, Fields.isFormatD, Fields.isFormatMD]
  omega

/-- The opcode table has a row for every combination that is not an illegal encoding (rules R55, R58). -/
theorem Fields.WellFormed.exists_row {f : Fields} (hf : f.WellFormed) : ∃ i : Instr, i.fields = f := by
  have hcodes := hf.eq_ofCodes
  have hformat := hf.format
  obtain ⟨-, -, -, hN, hD, hMD⟩ := hf
  rcases hformat with h | h | h
  · obtain ⟨hmode, hdepth⟩ := hN h
    rw [hmode, hdepth] at hcodes
    rcases h with h | h | h | h | h | h
    · exact ⟨.nop, hcodes 0x0 h⟩
    · exact ⟨.hdrget, hcodes 0x2 h⟩
    · exact ⟨.pack, hcodes 0x3 h⟩
    · exact ⟨.unpack, hcodes 0x4 h⟩
    · exact ⟨.tail, hcodes 0x7 h⟩
    · exact ⟨.decode, hcodes 0x9 h⟩
  · rw [hD h] at hcodes
    rcases h with h | h
    · exact ⟨mergeOf f.depth, (fields_mergeOf _).trans (hcodes 0x5 h)⟩
    · exact ⟨extractOf f.depth, (fields_extractOf _).trans (hcodes 0x6 h)⟩
  · rcases hMD h with hmode | hmode
    · rw [hmode] at hcodes
      rcases h with h | h
      · exact ⟨hdrputStaticOf f.depth, (fields_hdrputStaticOf _).trans (hcodes 0x1 h)⟩
      · exact ⟨encodeStaticOf f.depth, (fields_encodeStaticOf _).trans (hcodes 0x8 h)⟩
    · rw [hmode] at hcodes
      rcases h with h | h
      · exact ⟨hdrputHiddenOf f.depth, (fields_hdrputHiddenOf _).trans (hcodes 0x1 h)⟩
      · exact ⟨encodeHiddenOf f.depth, (fields_encodeHiddenOf _).trans (hcodes 0x8 h)⟩

/-! ## Words and commands -/

/-- A word the decoder takes is not illegal. -/
theorem not_illegalWord_of_decode {w : Word} {i : Instr} (h : decode w = .ok i) : ¬Machine.IllegalWord w := by
  intro hw
  obtain ⟨cause, hc⟩ := decode_of_illegal hw
  simp [hc] at h

/-- Settles O3: the fields of a word that is not illegal are those of a row, and so of the row's word. -/
theorem everyOtherWordIsATableWord : Obligations.EveryOtherWordIsATableWord := by
  intro w
  constructor
  · intro hw
    rw [illegalWord_iff, not_not] at hw
    obtain ⟨i, hi⟩ := hw.exists_row
    exact ⟨i, fieldsOf_inj (hi.symm.trans (fieldsOf_encode i).symm)⟩
  · rintro ⟨i, rfl⟩
    exact not_illegalWord_of_decode (decode_encode i)

/-- Settles O1: a word that decodes to a command is the word of some row, which decodes to that row alone. -/
theorem decodeIsInverseOfEncode : Obligations.DecodeIsInverseOfEncode := by
  intro w i
  constructor
  · intro h
    obtain ⟨j, rfl⟩ := (everyOtherWordIsATableWord w).1 (not_illegalWord_of_decode h)
    have hij : j = i := Except.ok.inj ((decode_encode j).symm.trans h)
    rw [hij]
  · rintro rfl
    exact decode_encode i

/-- Settles O6: each of the words is its command's word. -/
theorem sampleWordsDecode : Obligations.SampleWordsDecode :=
  ⟨decode_encode .nop, decode_encode .hdrputHidden2, decode_encode .hdrget, decode_encode .pack, decode_encode .unpack,
    decode_encode .merge4, decode_encode .extract6, decode_encode .tail, decode_encode .encodeStatic8,
    decode_encode .encodeHidden3, decode_encode .decode⟩

end Sys2Proof
end

section
/-! The quad and the triple (obligation O28), and the same over whole streams. Every bit of `pack4` and of `unpack3` is
one bit of an argument, so a composition of the two is compared with the identity bit by bit; symbols come in only
through their two high bits, which are 0. -/

namespace Sys2Proof.Machine

/-! ## One quad and one triple (rule R72) -/

section
variable {s0 s1 s2 s3 : Byte}

/-- The two bits of a symbol above its six are 0. -/
theorem symbol_high_bits {v : Byte} (hv : v.toNat ≤ 63) : v[6] = false ∧ v[7] = false := by
  simp only [BitVec.getElem_eq_testBit_toNat]
  exact ⟨Nat.testBit_lt_two_pow (by omega), Nat.testBit_lt_two_pow (by omega)⟩

/-- Rule R72 (a). -/
theorem unpack3_pack4 (h0 : s0.toNat ≤ 63) (h1 : s1.toNat ≤ 63) (h2 : s2.toNat ≤ 63) (h3 : s3.toNat ≤ 63) :
    unpack3 (pack4 s0 s1 s2 s3).1 (pack4 s0 s1 s2 s3).2.1 (pack4 s0 s1 s2 s3).2.2 = (s0, s1, s2, s3) := by
  obtain ⟨h06, h07⟩ := symbol_high_bits h0
  obtain ⟨h16, h17⟩ := symbol_high_bits h1
  obtain ⟨h26, h27⟩ := symbol_high_bits h2
  obtain ⟨h36, h37⟩ := symbol_high_bits h3
  simp only [unpack3, pack4, Prod.mk.injEq]
  refine ⟨?_, ?_, ?_, ?_⟩
  all_goals
    apply BitVec.eq_of_getElem_eq
    intro k hk
    interval_cases k <;> simp [h06, h07, h16, h17, h26, h27, h36, h37]

/-- Rule R72 (b). -/
theorem pack4_unpack3 (b0 b1 b2 : Byte) :
    pack4 (unpack3 b0 b1 b2).1 (unpack3 b0 b1 b2).2.1 (unpack3 b0 b1 b2).2.2.1 (unpack3 b0 b1 b2).2.2.2 =
      (b0, b1, b2) := by
  simp only [unpack3, pack4, Prod.mk.injEq]
  refine ⟨?_, ?_, ?_⟩
  all_goals
    apply BitVec.eq_of_getElem_eq
    intro k hk
    interval_cases k <;> simp

end

/-- Settles O28: the one quad of a triple is what `unpack3` gives of it. -/
theorem quadsAndTriplesAreInBijection : Obligations.QuadsAndTriplesAreInBijection := by
  refine ⟨fun _ _ _ _ => unpack3_pack4, pack4_unpack3, fun ⟨b0, b1, b2⟩ => ⟨unpack3 b0 b1 b2, ?_, ?_⟩⟩
  · exact ⟨unpack3_le_63 rfl, pack4_unpack3 b0 b1 b2⟩
  · rintro ⟨s0, s1, s2, s3⟩ ⟨⟨h0, h1, h2, h3⟩, hpack⟩
    have hquad := unpack3_pack4 h0 h1 h2 h3
    rw [hpack] at hquad
    exact hquad.symm

/-! ## Whole streams -/

/-- Rule R72 (a), quad by quad. -/
theorem unpackAll_packAll {vs : List Byte} (hlen : vs.length % 4 = 0) (hvs : AllSymbols vs) :
    unpackAll (packAll vs) = vs := by
  fun_induction packAll vs with
  | case1 s0 s1 s2 s3 rest b0 b1 b2 hb ih =>
    simp only [allSymbols_cons] at hvs
    simp only [List.length_cons] at hlen
    obtain ⟨h0, h1, h2, h3, hrest⟩ := hvs
    have hquad := unpack3_pack4 h0 h1 h2 h3
    rw [hb] at hquad
    simp [unpackAll, hquad, ih (by omega) hrest]
  | case2 vs hvs' =>
    match vs with
    | [] => rfl
    | [_] | [_, _] | [_, _, _] => simp at hlen
    | a :: b :: c :: d :: l => exact absurd rfl (hvs' a b c d l)

/-- Rule R72 (b), triple by triple. -/
theorem packAll_unpackAll {vs : List Byte} (hlen : vs.length % 3 = 0) : packAll (unpackAll vs) = vs := by
  fun_induction unpackAll vs with
  | case1 b0 b1 b2 rest s0 s1 s2 s3 hs ih =>
    simp only [List.length_cons] at hlen
    have htriple := pack4_unpack3 b0 b1 b2
    rw [hs] at htriple
    simp [packAll, htriple, ih (by omega)]
  | case2 vs hvs =>
    match vs with
    | [] => rfl
    | [_] | [_, _] => simp at hlen
    | a :: b :: c :: l => exact absurd rfl (hvs a b c l)

end Sys2Proof.Machine
end

section
/-! PACK and UNPACK (obligations O16, O17, O46). Their effects are the laws `packEffect_spec` and `unpackEffect_spec`;
what is added here is the order of their checks, and the round trips: a range that was written reads back, the stream
functions are inverse to each other, and writing back what was read leaves the cells as they were. -/

namespace Sys2Proof.Machine

variable {i : Instr} {s t u : State} {w : Except Stop State}

/-! ## How a command ends -/

/-- An error as the statements write it. -/
theorem runCommand_reported (e : Error) (info : Nat) :
    runCommand s (.error (.error e (word info))) = .next (s.reported e.code.toNat info) := by
  rw [runCommand_error, raiseError, State.reported, BitVec.ofNat_toNat, BitVec.setWidth_eq]
  rfl

/-- A command that reports no error has done its work. -/
theorem runCommand_succeeded (h : runCommand s w = .next t) (ht : t.errcode = 0) : ∃ u, w = .ok u ∧ t = succeed u := by
  rcases runCommand_eq_next h with hok | ⟨e, info, -, rfl⟩
  · exact hok
  · exact absurd ht e.code_range.1

/-! ## Checks in order -/

/-- A command that begins with the checks of rule R73. -/
theorem reportsPackChecks {g : State → Except Stop State}
    (h : ∀ s, exec i s = runCommand s (packChecks s >>= fun _ => g s)) : ReportsPackChecks i := by
  refine ⟨fun s hmul => ?_, fun s hmul hsym => ?_, fun s hmul hsym hpix => ?_, fun s a hlen hbad => ?_⟩
  · have hw : packChecks s = .error (.error .length (word s.n)) := by
      simp [packChecks, require_neg hmul, word]
    rw [h, hw]; exact runCommand_reported .length s.n
  · have hw : packChecks s = .error (.error .bounds (word s.n)) := by
      simp [packChecks, require_pos hmul, require_neg (Nat.not_le.2 hsym), word]
    rw [h, hw]; exact runCommand_reported .bounds s.n
  · have hw : packChecks s = .error (.error .bounds (word (3 + 3 * s.n / 4))) := by
      simp [packChecks, require_pos hmul, require_pos hsym, require_neg (Nat.not_le.2 hpix)]
    rw [h, hw]; exact runCommand_reported .bounds _
  · obtain ⟨hmul, hsym, hpix⟩ := hlen
    obtain ⟨ha, hbefore, hcell, hval⟩ := hbad
    have hw : packChecks s = .error (.error .invalidSymbol (word a)) := by
      simp [packChecks, require_pos hmul, require_pos hsym, require_pos hpix,
        checkSymbols_firstBad (ha.trans_le hsym) ha hbefore hcell hval, word]
    rw [h, hw]; exact runCommand_reported .invalidSymbol a

/-- The checks of rule R74 (`k = 4`) and of rule R97 (`k` symbols a triple). -/
def pixChecks (k : Nat) (s : State) : Except Stop Unit := do
  require (3 ≤ s.p ∧ (s.p - 3) % 3 = 0) .length s.pixlen
  require (s.p ≤ s.params.pixSize) .bounds s.pixlen
  require (k * (s.p - 3) / 3 ≤ s.params.symSize) .bounds (word (k * (s.p - 3) / 3))

theorem unpackChecks_eq : unpackChecks s = pixChecks 4 s := rfl

/-- A command that begins with the checks of rule R74 or of rule R97. -/
theorem reportsPixChecks {k : Nat} {g : State → Except Stop State}
    (h : ∀ s, exec i s = runCommand s (pixChecks k s >>= fun _ => g s)) : ReportsPixChecks i k := by
  refine ⟨fun s htriples => ?_, fun s htriples hpix => ?_, fun s htriples hpix hsym => ?_⟩
  · have hw : pixChecks k s = .error (.error .length (word s.p)) := by
      simp only [pixChecks, require_neg htriples, bind_error, word, word_p]
    rw [h, hw]; exact runCommand_reported .length s.p
  · have hw : pixChecks k s = .error (.error .bounds (word s.p)) := by
      simp only [pixChecks, require_pos htriples, require_neg (Nat.not_le.2 hpix), bind_ok, bind_error, word, word_p]
    rw [h, hw]; exact runCommand_reported .bounds s.p
  · have hw : pixChecks k s = .error (.error .bounds (word (k * (s.p - 3) / 3))) := by
      simp only [pixChecks, require_pos htriples, require_pos hpix, require_neg (Nat.not_le.2 hsym), bind_ok]
    rw [h, hw]; exact runCommand_reported .bounds _

/-! ## The two commands by their rules -/

theorem exec_packWork (s : State) : exec .pack s = runCommand s (packWork s) := rfl
theorem exec_unpackWork (s : State) : exec .unpack s = runCommand s (unpackWork s) := rfl

/-- Settles O16: the checks in order, and the effect where they pass. -/
theorem packFollowsItsRule : Obligations.PackFollowsItsRule := by
  refine ⟨rfl, reportsPackChecks exec_packWork, fun s hlen hsym => ?_⟩
  obtain ⟨m, heff, hpacked, hframe⟩ := packEffect_spec hlen hsym
  refine ⟨succeed { s with pix := m, pixlen := word (3 + 3 * s.n / 4) }, ?_, rfl, hpacked, hframe⟩
  rw [exec_packWork, packWork, packChecks_ok hlen hsym, bind_ok, heff]
  rfl

/-- Settles O17: the checks in order, and the effect where they pass. -/
theorem unpackFollowsItsRule : Obligations.UnpackFollowsItsRule := by
  refine ⟨rfl, reportsPixChecks fun s => by rw [exec_unpackWork, unpackWork, unpackChecks_eq], fun s hlen hpix => ?_⟩
  obtain ⟨m, heff, hsymbols, hframe⟩ := unpackEffect_spec hlen hpix
  refine ⟨succeed { s with sym := m, symlen := word (4 * (s.p - 3) / 3) }, ?_, rfl, hsymbols, hframe⟩
  rw [exec_unpackWork, unpackWork, unpackChecks_ok hlen, bind_ok, heff]
  rfl

/-! ## The work of the two commands, by the stream each reads -/

section
variable {b : Buf} {a len : Nat} {vs : List Byte} {m : Memory}

/-- A range that was written reads back. -/
theorem readRange_of_writeList (hm : s.mem b = Memory.writeList m a vs) (h : a + vs.length ≤ s.size b) :
    readRange s b a vs.length = .ok vs :=
  readRange_eq_ok.2 ⟨rfl, fun j hj => ⟨by omega, by
    rw [State.byte, hm, read_writeList, if_pos (by omega), Nat.add_sub_cancel_left]⟩⟩

/-- Writing back what a range held leaves its cells as they were. -/
theorem read_writeList_of_readRange (h : readRange s b a len = .ok vs) (m : Memory) {x : Nat} (hlo : a ≤ x)
    (hhi : x < a + len) : Memory.read (Memory.writeList m a vs) x = s.byte b x := by
  obtain ⟨hlen, hcells⟩ := readRange_eq_ok.1 h
  obtain ⟨-, hcell⟩ := hcells (x - a) (by omega)
  rw [read_writeList, if_pos (by omega), ← hcell, Nat.add_sub_cancel' hlo]

/-- The check for symbols passes over a range that reads as symbols, and only there. -/
theorem checkSymbols_iff_readRange :
    checkSymbols s a len = .ok () ↔ ∃ vs, readRange s .sym a len = .ok vs ∧ AllSymbols vs := by
  induction len generalizing a with
  | zero => simp [checkSymbols, readRange]
  | succ len ih =>
    simp only [checkSymbols, readRange, bind_eq_ok, require_eq_ok, ih, Except.ok.injEq]
    constructor
    · rintro ⟨v, hv, -, h63, ws, hws, hall⟩
      exact ⟨v :: ws, ⟨v, hv, ws, hws, rfl⟩, allSymbols_cons.2 ⟨h63, hall⟩⟩
    · rintro ⟨vs, ⟨v, hv, ws, hws, rfl⟩, hall⟩
      obtain ⟨h63, hall⟩ := allSymbols_cons.1 hall
      exact ⟨v, hv, (), h63, ws, hws, hall⟩

end

/-- The state PACK leaves before its report, from the symbols it reads. -/
def State.packed (s : State) (symbols : List Byte) : State :=
  { s with pix := Memory.writeList s.pix 3 (packAll symbols), pixlen := word (3 + 3 * s.n / 4) }

/-- The state UNPACK leaves before its report, from the bytes it reads. -/
def State.unpacked (s : State) (bytes : List Byte) : State :=
  { s with sym := Memory.writeList s.sym 0 (unpackAll bytes), symlen := word (4 * (s.p - 3) / 3) }

section
variable {vs : List Byte}

theorem packAll_readRange_length (h : s.PackLengths) (hvs : readRange s .sym 0 s.n = .ok vs) :
    (packAll vs).length = 3 * s.n / 4 := by
  obtain ⟨hmul, -⟩ := h
  rw [packAll_length, readRange_length hvs]
  omega

theorem unpackAll_readRange_length (h : s.PixLengths 4) (hvs : readRange s .pix 3 (s.p - 3) = .ok vs) :
    (unpackAll vs).length = 4 * (s.p - 3) / 3 := by
  obtain ⟨⟨-, htriples⟩, -⟩ := h
  rw [unpackAll_length, readRange_length hvs, symbols_eq 4 htriples]

theorem packEffect_of_readRange (h : s.PackLengths) (hvs : readRange s .sym 0 s.n = .ok vs) :
    packEffect s = .ok (s.packed vs) := by
  have hlen := packAll_readRange_length h hvs
  obtain ⟨-, -, hpix⟩ := h
  rw [packEffect, hvs, bind_ok, writeRange_of_le (by rwa [hlen])]
  rfl

theorem unpackEffect_of_readRange (h : s.PixLengths 4) (hvs : readRange s .pix 3 (s.p - 3) = .ok vs) :
    unpackEffect s = .ok (s.unpacked vs) := by
  have hlen := unpackAll_readRange_length h hvs
  obtain ⟨-, -, hsym⟩ := h
  rw [unpackEffect, hvs, bind_ok, writeRange_of_le (by rwa [hlen, Nat.zero_add])]
  rfl

/-- PACK's work comes out right exactly for accepted lengths and a range of symbols. -/
theorem packWork_eq_ok :
    packWork s = .ok u ↔
      s.PackLengths ∧ ∃ vs, readRange s .sym 0 s.n = .ok vs ∧ AllSymbols vs ∧ u = s.packed vs := by
  constructor
  · intro h
    obtain ⟨_, hchecks, heff⟩ := bind_eq_ok.1 h
    have hlengths := packChecks_lengths hchecks
    simp only [packChecks, bind_eq_ok] at hchecks
    obtain ⟨-, -, -, -, -, -, hsymbols⟩ := hchecks
    obtain ⟨vs, hvs, hall⟩ := checkSymbols_iff_readRange.1 hsymbols
    exact ⟨hlengths, vs, hvs, hall, (Except.ok.inj ((packEffect_of_readRange hlengths hvs).symm.trans heff)).symm⟩
  · rintro ⟨hlengths, vs, hvs, hall, rfl⟩
    have hchecks : packChecks s = .ok () := by
      obtain ⟨hmul, hsym, hpix⟩ := hlengths
      rw [packChecks, require_pos hmul, require_pos hsym, require_pos hpix]
      exact checkSymbols_iff_readRange.2 ⟨vs, hvs, hall⟩
    rw [packWork, hchecks, bind_ok, packEffect_of_readRange hlengths hvs]

/-- UNPACK's work comes out right exactly for accepted lengths and a range of bytes. -/
theorem unpackWork_eq_ok :
    unpackWork s = .ok u ↔
      s.PixLengths 4 ∧ ∃ vs, readRange s .pix 3 (s.p - 3) = .ok vs ∧ u = s.unpacked vs := by
  constructor
  · intro h
    obtain ⟨_, hchecks, heff⟩ := bind_eq_ok.1 h
    have hlengths := unpackChecks_lengths hchecks
    obtain ⟨vs, hvs, -⟩ := bind_eq_ok.1 heff
    exact ⟨hlengths, vs, hvs, (Except.ok.inj ((unpackEffect_of_readRange hlengths hvs).symm.trans heff)).symm⟩
  · rintro ⟨hlengths, vs, hvs, rfl⟩
    rw [unpackWork, unpackChecks_ok hlengths, bind_ok, unpackEffect_of_readRange hlengths hvs]

/-! ## Round trips (rule R76) -/

/-- UNPACK finds the packed symbols and gives them back. -/
theorem unpackWork_packed (h : s.PackLengths) (hvs : readRange s .sym 0 s.n = .ok vs)
    (hall : AllSymbols vs) (ht : t = succeed (s.packed vs)) :
    unpackWork t = .ok { t with sym := Memory.writeList s.sym 0 vs, symlen := s.symlen } := by
  have hpacked := packAll_readRange_length h hvs
  obtain ⟨hmul, hsym, hpix⟩ := h
  have hn : s.n < 2 ^ 32 := s.symlen.isLt
  have hp : t.p = 3 + 3 * s.n / 4 := by rw [ht]; exact word_toNat (by omega)
  have hlen : vs.length = s.n := readRange_length hvs
  have hbytes : readRange t .pix 3 (t.p - 3) = .ok (packAll vs) := by
    rw [hp, Nat.add_sub_cancel_left, ← hpacked]
    subst ht
    exact readRange_of_writeList (m := s.pix) rfl (by simpa [hpacked, State.packed] using hpix)
  have hcount : 4 * (t.p - 3) / 3 = s.n := by omega
  refine unpackWork_eq_ok.2 ⟨⟨by omega, ?_, ?_⟩, _, hbytes, ?_⟩
  · rw [hp, ht]; exact hpix
  · rw [hcount, ht]; exact hsym
  · rw [State.unpacked, hcount, unpackAll_packAll (by rwa [hlen]) hall, word, word_n, ht]
    rfl

/-- PACK finds the unpacked symbols and gives the bytes back. -/
theorem packWork_unpacked (hp : s.params.Legal) (h : s.PixLengths 4)
    (hvs : readRange s .pix 3 (s.p - 3) = .ok vs) (ht : t = succeed (s.unpacked vs)) :
    packWork t = .ok { t with pix := Memory.writeList s.pix 3 vs, pixlen := s.pixlen } := by
  have hunpacked := unpackAll_readRange_length h hvs
  obtain ⟨⟨h3, htriples⟩, hpix, hsym⟩ := h
  obtain ⟨⟨-, hsymSize⟩, -, -⟩ := hp
  have hn : t.n = 4 * (s.p - 3) / 3 := by rw [ht]; exact word_toNat (by omega)
  have hlen : vs.length = s.p - 3 := readRange_length hvs
  have hsymbols : readRange t .sym 0 t.n = .ok (unpackAll vs) := by
    rw [hn, ← hunpacked]
    subst ht
    exact readRange_of_writeList (m := s.sym) rfl (by simpa [hunpacked, State.unpacked] using hsym)
  have hcount : 3 + 3 * t.n / 4 = s.p := by omega
  refine packWork_eq_ok.2 ⟨⟨by omega, ?_, ?_⟩, _, hsymbols, unpackAll_allSymbols vs, ?_⟩
  · rw [hn, ht]; exact hsym
  · rw [hcount, ht]; exact hpix
  · rw [State.packed, hcount, packAll_unpackAll (by rwa [hlen]), word, word_p, ht]
    rfl

end

/-- Settles O46: the second command writes back, cell by cell, what the first one read. -/
theorem packAndUnpackRoundTrip : Obligations.PackAndUnpackRoundTrip := by
  constructor
  · intro s t h ht
    obtain ⟨_, hwork, rfl⟩ := runCommand_succeeded h ht
    obtain ⟨hlengths, vs, hvs, hall, rfl⟩ := packWork_eq_ok.1 hwork
    refine ⟨_, congrArg (runCommand _) (unpackWork_packed hlengths hvs hall rfl), rfl, rfl, fun a ha => ?_⟩
    exact read_writeList_of_readRange hvs s.sym (Nat.zero_le a) (by rwa [Nat.zero_add])
  · intro s t hp h ht
    obtain ⟨_, hwork, rfl⟩ := runCommand_succeeded h ht
    obtain ⟨hlengths, vs, hvs, rfl⟩ := unpackWork_eq_ok.1 hwork
    refine ⟨_, congrArg (runCommand _) (packWork_unpacked hp hlengths hvs rfl), rfl, rfl, fun a h3 ha => ?_⟩
    exact read_writeList_of_readRange hvs s.pix h3 (by omega)

end Sys2Proof.Machine
end

section
/-! The groups of a triple and the merge (obligations O29, O31). Every bit of a split or a join is one bit of an argument,
so their compositions are compared with the identity bit by bit, as for quads; and a merged byte is cut apart again by
the masks `HI(d)` and `LO(d)`, which share no bit. -/

namespace Sys2Proof.Machine

/-! ## The carrier bytes required (rule R84) -/

theorem bits_eq (d : Depth) : d.bits = 2 * d.perTriple := by cases d <;> rfl

/-- Settles O31: whole triples of `d/2` symbols each, three bytes a triple. -/
theorem requiredCarrierBytes : Obligations.RequiredCarrierBytes := by
  refine fun n => ⟨rfl, rfl, rfl, fun d halign => ?_⟩
  have hreq : d.required n = 3 + 3 * (n / d.perTriple) := congrArg (3 + ·) (payload_eq d halign)
  have hn : d.perTriple * (n / d.perTriple) = n :=
    Nat.mul_div_cancel' (Nat.dvd_of_mod_eq_zero (align_eq d ▸ halign))
  rw [hreq, bits_eq, Nat.add_sub_cancel_left]
  refine ⟨by omega, ?_⟩
  calc 3 * (n / d.perTriple) * (2 * d.perTriple) = d.perTriple * (n / d.perTriple) * 6 := by ring
    _ = n * 6 := by rw [hn]

/-! ## One triple (rules R82, R83, R85, R87) -/

/-- The bits of a byte at and above a bound on it are 0. -/
theorem getElem_of_toNat_lt {v : Byte} {k j : Nat} (hv : v.toNat < 2 ^ k) (hk : k ≤ j) (hj : j < 8) :
    v[j] = false := by
  rw [BitVec.getElem_eq_testBit_toNat]
  exact Nat.testBit_lt_two_pow (hv.trans_le (Nat.pow_le_pow_right (by decide) hk))

section
variable {s s0 s1 g0 g1 g2 : Byte}

theorem join2_split2 (h : s.toNat < 2 ^ 6) : join2 (split2 s).1 (split2 s).2.1 (split2 s).2.2 = s := by
  apply BitVec.eq_of_getElem_eq
  intro k hk
  interval_cases k <;> simp [join2, split2, getElem_of_toNat_lt h]

theorem split2_join2 (h0 : g0.toNat < 2 ^ 2) (h1 : g1.toNat < 2 ^ 2) (h2 : g2.toNat < 2 ^ 2) :
    split2 (join2 g0 g1 g2) = (g0, g1, g2) := by
  simp only [split2, join2, Prod.mk.injEq]
  refine ⟨?_, ?_, ?_⟩
  all_goals
    apply BitVec.eq_of_getElem_eq
    intro k hk
    interval_cases k <;> simp [getElem_of_toNat_lt h0, getElem_of_toNat_lt h1, getElem_of_toNat_lt h2]

theorem join4_split4 (h0 : s0.toNat < 2 ^ 6) (h1 : s1.toNat < 2 ^ 6) :
    join4 (split4 s0 s1).1 (split4 s0 s1).2.1 (split4 s0 s1).2.2 = (s0, s1) := by
  simp only [split4, join4, Prod.mk.injEq]
  refine ⟨?_, ?_⟩
  all_goals
    apply BitVec.eq_of_getElem_eq
    intro k hk
    interval_cases k <;> simp [getElem_of_toNat_lt h0, getElem_of_toNat_lt h1]

theorem split4_join4 (h0 : g0.toNat < 2 ^ 4) (h1 : g1.toNat < 2 ^ 4) (h2 : g2.toNat < 2 ^ 4) :
    split4 (join4 g0 g1 g2).1 (join4 g0 g1 g2).2 = (g0, g1, g2) := by
  simp only [split4, join4, Prod.mk.injEq]
  refine ⟨?_, ?_, ?_⟩
  all_goals
    apply BitVec.eq_of_getElem_eq
    intro k hk
    interval_cases k <;> simp [getElem_of_toNat_lt h0, getElem_of_toNat_lt h1, getElem_of_toNat_lt h2]

end

/-! ## Splitting and joining streams (rule R87 (c)) -/

/-- Every byte of a list is a group of a depth. -/
def AllGroups (d : Depth) (gs : List Byte) : Prop := ∀ g ∈ gs, g.toNat < 2 ^ d.bits

@[simp] theorem allGroups_nil (d : Depth) : AllGroups d [] := by simp [AllGroups]

@[simp] theorem allGroups_cons {d : Depth} {g : Byte} {gs : List Byte} :
    AllGroups d (g :: gs) ↔ g.toNat < 2 ^ d.bits ∧ AllGroups d gs := List.forall_mem_cons

theorem lt_of_symbol {v : Byte} (h : v.toNat ≤ 63) : v.toNat < 2 ^ 6 := by omega

section
variable {d : Depth} {vs gs : List Byte}

theorem joinAll2_splitAll2 (hvs : AllSymbols vs) : joinAll2 (splitAll2 vs) = vs := by
  fun_induction splitAll2 vs with
  | case1 s rest g0 g1 g2 hs ih =>
    simp only [allSymbols_cons] at hvs
    obtain ⟨h0, hrest⟩ := hvs
    have htriple := join2_split2 (lt_of_symbol h0)
    rw [hs] at htriple
    simp [joinAll2, htriple, ih hrest]
  | case2 => rfl

theorem joinAll4_splitAll4 (hlen : vs.length % 2 = 0) (hvs : AllSymbols vs) : joinAll4 (splitAll4 vs) = vs := by
  fun_induction splitAll4 vs with
  | case1 s0 s1 rest g0 g1 g2 hs ih =>
    simp only [allSymbols_cons] at hvs
    simp only [List.length_cons] at hlen
    obtain ⟨h0, h1, hrest⟩ := hvs
    have htriple := join4_split4 (lt_of_symbol h0) (lt_of_symbol h1)
    rw [hs] at htriple
    simp [joinAll4, htriple, ih (by omega) hrest]
  | case2 vs hvs' =>
    match vs with
    | [] => rfl
    | [_] => simp at hlen
    | a :: b :: l => exact absurd rfl (hvs' a b l)

theorem joinAll6_splitAll6 (hlen : vs.length % 3 = 0) : joinAll6 (splitAll6 vs) = vs := by
  fun_induction splitAll6 vs with
  | case1 s0 s1 s2 rest g0 g1 g2 hs ih =>
    simp only [List.length_cons] at hlen
    simp only [split6, Prod.mk.injEq] at hs
    obtain ⟨rfl, rfl, rfl⟩ := hs
    simp [joinAll6, join6, ih (by omega)]
  | case2 vs hvs =>
    match vs with
    | [] => rfl
    | [_] | [_, _] => simp at hlen
    | a :: b :: c :: l => exact absurd rfl (hvs a b c l)

theorem joinAll_splitAll (hlen : vs.length % d.align = 0) (hvs : AllSymbols vs) :
    joinAll d (splitAll d vs) = vs := by
  cases d with
  | two => exact joinAll2_splitAll2 hvs
  | four => exact joinAll4_splitAll4 hlen hvs
  | six => exact joinAll6_splitAll6 hlen

theorem splitAll2_joinAll2 (hlen : gs.length % 3 = 0) (hgs : AllGroups .two gs) :
    splitAll2 (joinAll2 gs) = gs := by
  fun_induction joinAll2 gs with
  | case1 g0 g1 g2 rest ih =>
    simp only [allGroups_cons] at hgs
    simp only [List.length_cons] at hlen
    obtain ⟨h0, h1, h2, hrest⟩ := hgs
    simp [splitAll2, split2_join2 h0 h1 h2, ih (by omega) hrest]
  | case2 gs hgs' =>
    match gs with
    | [] => rfl
    | [_] | [_, _] => simp at hlen
    | a :: b :: c :: l => exact absurd rfl (hgs' a b c l)

theorem splitAll4_joinAll4 (hlen : gs.length % 3 = 0) (hgs : AllGroups .four gs) :
    splitAll4 (joinAll4 gs) = gs := by
  fun_induction joinAll4 gs with
  | case1 g0 g1 g2 rest s0 s1 hs ih =>
    simp only [allGroups_cons] at hgs
    simp only [List.length_cons] at hlen
    obtain ⟨h0, h1, h2, hrest⟩ := hgs
    have htriple := split4_join4 h0 h1 h2
    rw [hs] at htriple
    simp [splitAll4, htriple, ih (by omega) hrest]
  | case2 gs hgs' =>
    match gs with
    | [] => rfl
    | [_] | [_, _] => simp at hlen
    | a :: b :: c :: l => exact absurd rfl (hgs' a b c l)

theorem splitAll6_joinAll6 (hlen : gs.length % 3 = 0) : splitAll6 (joinAll6 gs) = gs := by
  fun_induction joinAll6 gs with
  | case1 g0 g1 g2 rest s0 s1 s2 hs ih =>
    simp only [List.length_cons] at hlen
    simp only [join6, Prod.mk.injEq] at hs
    obtain ⟨rfl, rfl, rfl⟩ := hs
    simp [splitAll6, split6, ih (by omega)]
  | case2 gs hgs =>
    match gs with
    | [] => rfl
    | [_] | [_, _] => simp at hlen
    | a :: b :: c :: l => exact absurd rfl (hgs a b c l)

theorem splitAll_joinAll (hlen : gs.length % 3 = 0) (hgs : AllGroups d gs) : splitAll d (joinAll d gs) = gs := by
  cases d with
  | two => exact splitAll2_joinAll2 hlen hgs
  | four => exact splitAll4_joinAll4 hlen hgs
  | six => exact splitAll6_joinAll6 hlen

/-! ## What a symbol is split into are groups -/

section
variable {v x y : Byte} {j k : Nat}

theorem shiftRight_lt_two_pow (hv : v.toNat < 2 ^ (j + k)) : (v >>> j).toNat < 2 ^ k := by
  rw [BitVec.toNat_ushiftRight, Nat.shiftRight_eq_div_pow]
  exact Nat.div_lt_of_lt_mul (by rwa [← pow_add])

theorem and_lt_two_pow (hy : y.toNat < 2 ^ k) : (x &&& y).toNat < 2 ^ k := and_toNat_le.trans_lt hy

end

theorem split4_middle_lt (s0 : Byte) {s1 : Byte} (h1 : s1.toNat < 2 ^ 6) :
    (((s0 &&& 0x3) <<< 2) ||| (s1 >>> 4)).toNat < 2 ^ 4 := by
  have hlow : (s0 &&& 0x3).toNat ≤ 3 := and_toNat_le
  have hhigh : (s1 >>> 4).toNat < 2 ^ 2 := shiftRight_lt_two_pow h1
  rw [BitVec.toNat_or]
  refine Nat.or_lt_two_pow ?_ (by omega)
  rw [BitVec.toNat_shiftLeft, Nat.shiftLeft_eq]
  omega

theorem splitAll2_allGroups (hvs : AllSymbols vs) : AllGroups .two (splitAll2 vs) := by
  fun_induction splitAll2 vs with
  | case1 s rest g0 g1 g2 hs ih =>
    simp only [allSymbols_cons] at hvs
    obtain ⟨h0, hrest⟩ := hvs
    simp only [split2, Prod.mk.injEq] at hs
    obtain ⟨rfl, rfl, rfl⟩ := hs
    simp only [allGroups_cons]
    exact ⟨shiftRight_lt_two_pow (lt_of_symbol h0), and_lt_two_pow (by decide), and_lt_two_pow (by decide), ih hrest⟩
  | case2 => simp

theorem splitAll4_allGroups (hvs : AllSymbols vs) : AllGroups .four (splitAll4 vs) := by
  fun_induction splitAll4 vs with
  | case1 s0 s1 rest g0 g1 g2 hs ih =>
    simp only [allSymbols_cons] at hvs
    obtain ⟨h0, h1, hrest⟩ := hvs
    simp only [split4, Prod.mk.injEq] at hs
    obtain ⟨rfl, rfl, rfl⟩ := hs
    simp only [allGroups_cons]
    exact ⟨shiftRight_lt_two_pow (lt_of_symbol h0), split4_middle_lt s0 (lt_of_symbol h1), and_lt_two_pow (by decide),
      ih hrest⟩
  | case2 => simp

theorem splitAll6_allGroups (hvs : AllSymbols vs) : AllGroups .six (splitAll6 vs) := by
  fun_induction splitAll6 vs with
  | case1 s0 s1 s2 rest g0 g1 g2 hs ih =>
    simp only [allSymbols_cons] at hvs
    obtain ⟨h0, h1, h2, hrest⟩ := hvs
    simp only [split6, Prod.mk.injEq] at hs
    obtain ⟨rfl, rfl, rfl⟩ := hs
    simp only [allGroups_cons]
    exact ⟨lt_of_symbol h0, lt_of_symbol h1, lt_of_symbol h2, ih hrest⟩
  | case2 => simp

theorem splitAll_allGroups (hvs : AllSymbols vs) : AllGroups d (splitAll d vs) := by
  cases d with
  | two => exact splitAll2_allGroups hvs
  | four => exact splitAll4_allGroups hvs
  | six => exact splitAll6_allGroups hvs

end

/-! ## Merging and extracting (rule R87 (a), (b)) -/

section
variable {d : Depth} {c g : Byte} {cs gs vs : List Byte}

theorem hi_and_lo (d : Depth) : d.hi &&& d.lo = 0#8 := by cases d <;> rfl

/-- A group is in the low bits of its depth. -/
theorem group_and_lo (hg : g.toNat < 2 ^ d.bits) : g &&& d.lo = g := by
  have hlo : d.lo.toNat = 2 ^ d.bits - 1 := by cases d <;> rfl
  apply BitVec.eq_of_toNat_eq
  rw [BitVec.toNat_and, hlo, Nat.and_two_pow_sub_one_eq_mod, Nat.mod_eq_of_lt hg]

theorem group_and_hi (hg : g.toNat < 2 ^ d.bits) : g &&& d.hi = 0#8 := by
  rw [← group_and_lo hg, BitVec.and_assoc, BitVec.and_comm d.lo, hi_and_lo, BitVec.and_zero]

theorem mergeLane_and_lo (hg : g.toNat < 2 ^ d.bits) : mergeLane d c g &&& d.lo = g := by
  rw [mergeLane, BitVec.and_or_distrib_right, BitVec.and_assoc, hi_and_lo, BitVec.and_zero, BitVec.zero_or,
    group_and_lo hg]

theorem mergeLane_and_hi (hg : g.toNat < 2 ^ d.bits) : mergeLane d c g &&& d.hi = c &&& d.hi := by
  rw [mergeLane, BitVec.and_or_distrib_right, BitVec.and_assoc, BitVec.and_self, group_and_hi hg, BitVec.or_zero]

/-- Merged channels hold the groups in their low bits and the carrier's bits above them. -/
theorem zipWith_mergeLane_and (hlen : cs.length = gs.length) (hgs : AllGroups d gs) :
    (List.zipWith (mergeLane d) cs gs).map (fun b => b &&& d.lo) = gs ∧
      (List.zipWith (mergeLane d) cs gs).map (fun b => b &&& d.hi) = cs.map (fun b => b &&& d.hi) := by
  induction gs generalizing cs with
  | nil => simp_all
  | cons g gs ih =>
    obtain ⟨c, cs, rfl⟩ := List.exists_cons_of_length_eq_add_one hlen
    obtain ⟨hg, hgs⟩ := allGroups_cons.1 hgs
    obtain ⟨hlo, hhi⟩ := ih (by simpa using hlen) hgs
    simp [mergeLane_and_lo hg, mergeLane_and_hi hg, hlo, hhi]

/-- A carrier of the payload's length has a byte for every group. -/
theorem payload_length (halign : vs.length % d.align = 0) (hlen : cs.length = d.payload vs.length) :
    cs.length = (splitAll d vs).length := by
  rw [hlen, splitAll_length, payload_eq d halign]

/-- Rule R87 (a). -/
theorem extractAll_mergeAll (halign : vs.length % d.align = 0) (hlen : cs.length = d.payload vs.length)
    (hvs : AllSymbols vs) : extractAll d (mergeAll d cs vs) = vs := by
  rw [extractAll, mergeAll, (zipWith_mergeLane_and (payload_length halign hlen) (splitAll_allGroups hvs)).1,
    joinAll_splitAll halign hvs]

/-- Rule R87 (b). -/
theorem mergeAll_and_hi (halign : vs.length % d.align = 0) (hlen : cs.length = d.payload vs.length)
    (hvs : AllSymbols vs) :
    (mergeAll d cs vs).map (fun b => b &&& d.hi) = cs.map (fun b => b &&& d.hi) :=
  (zipWith_mergeLane_and (payload_length halign hlen) (splitAll_allGroups hvs)).2

end

/-- Settles O29: the laws of one triple, carried over the streams. -/
theorem mergeAndExtractLaws : Obligations.MergeAndExtractLaws := fun d =>
  ⟨fun _ _ hvs halign hlen => ⟨extractAll_mergeAll halign hlen hvs, mergeAll_and_hi halign hlen hvs⟩,
    fun _ hvs halign => joinAll_splitAll halign hvs, fun _ hgs hlen => splitAll_joinAll hlen hgs,
    extractAll_allSymbols d⟩

end Sys2Proof.Machine
end

section
/-! MERGE, EXTRACT and TAIL (obligations O12, O18 to O24, O47). Their effects are the laws `putPayload_spec`,
`extractEffect_spec` and `putTail_spec`; what is added here is the order of their checks, once for the three depths, and
the round trip, on the streams the two commands read. -/

namespace Sys2Proof.Machine

variable {i : Instr} {s t u : State} {d : Depth}

/-! ## The work behind each command -/

theorem exec_mergeWork (d : Depth) (s : State) : exec d.merge s = runCommand s (mergeWork d s) := by
  cases d <;> rfl

theorem exec_extractWork (d : Depth) (s : State) : exec d.extract s = runCommand s (extractWork d s) := by
  cases d <;> rfl

theorem exec_tailWork (s : State) : exec .tail s = runCommand s (tailWork s) := rfl

/-! ## Depths that are not supported (rule R88) -/

theorem pairWord_zero (depth : BitVec 3) : pairWord 0 depth = word depth.toNat := by
  simp [pairWord, word]

theorem requireDepth_unsupported {depth : BitVec 3} (h : Depth.ofCode depth = none) :
    requireDepth depth = .error (.error .notSupported (word depth.toNat)) := by
  rw [requireDepth, h, pairWord_zero]

theorem merge_unsupported {depth : BitVec 3} (h : Depth.ofCode depth = none) :
    merge depth s = .next (s.reported 2 depth.toNat) := by
  rw [merge, requireDepth_unsupported h, bind_error]
  exact runCommand_reported .notSupported _

theorem extract_unsupported {depth : BitVec 3} (h : Depth.ofCode depth = none) :
    extract depth s = .next (s.reported 2 depth.toNat) := by
  rw [extract, requireDepth_unsupported h, bind_error]
  exact runCommand_reported .notSupported _

/-- Settles O12: the mode field of these words is 0, so their low six bits are the depth code. -/
theorem mergeAndExtractRefuseOtherDepths : Obligations.MergeAndExtractRefuseOtherDepths := by
  intro i hi s
  simp only [List.mem_cons, List.not_mem_nil, or_false] at hi
  rcases hi with rfl | rfl | rfl | rfl | rfl | rfl | rfl | rfl | rfl | rfl
  · exact merge_unsupported (depth := 0) rfl
  · exact merge_unsupported (depth := 1) rfl
  · exact merge_unsupported (depth := 3) rfl
  · exact merge_unsupported (depth := 5) rfl
  · exact merge_unsupported (depth := 7) rfl
  · exact extract_unsupported (depth := 0) rfl
  · exact extract_unsupported (depth := 1) rfl
  · exact extract_unsupported (depth := 3) rfl
  · exact extract_unsupported (depth := 5) rfl
  · exact extract_unsupported (depth := 7) rfl

/-! ## MERGE by its rule (rules R89 to R91, R96) -/

/-- Two checks in a row with one report, of which either fails. -/
theorem require_require_neg {p q : Prop} [Decidable p] [Decidable q] {e : Error} {info : Word} {β : Type}
    {f : Unit → Except Stop β} (h : ¬p ∨ ¬q) :
    (require p e info >>= fun _ => require q e info >>= f) = .error (.error e info) := by
  by_cases hp : p
  · rw [require_pos hp, bind_ok, require_neg (h.resolve_left (not_not.2 hp)), bind_error]
  · rw [require_neg hp, bind_error]

/-- A command that begins with checks 2 to 8 of rule R96. -/
theorem reportsMergeChecks {g : State → Except Stop State}
    (h : ∀ s, exec i s = runCommand s (mergeChecks d s >>= fun _ => g s)) :
    ReportsMergeChecks i d.perTriple (fun s => d.required s.n) := by
  rw [← align_eq]
  refine ⟨fun s halign => ?_, fun s halign htriples => ?_, fun s halign htriples hsym => ?_,
    fun s halign htriples hsym hbeyond => ?_, fun s halign htriples hsym hcar hpix hneed => ?_,
    fun s a hlen hbad => ?_⟩
  · have hw : mergeChecks d s = .error (.error .length (word s.n)) := by
      simp [mergeChecks, require_neg halign, word]
    rw [h, hw]; exact runCommand_reported .length s.n
  · have hw : mergeChecks d s = .error (.error .length (word s.c)) := by
      simp [mergeChecks, require_pos halign, require_neg htriples, word]
    rw [h, hw]; exact runCommand_reported .length s.c
  · have hw : mergeChecks d s = .error (.error .bounds (word s.n)) := by
      simp [mergeChecks, require_pos halign, require_pos htriples, require_neg (Nat.not_le.2 hsym), word]
    rw [h, hw]; exact runCommand_reported .bounds s.n
  · have hw : mergeChecks d s = .error (.error .bounds (word s.c)) := by
      simp only [mergeChecks, require_pos halign, require_pos htriples, require_pos hsym, bind_ok,
        require_require_neg (hbeyond.imp Nat.not_le.2 Nat.not_le.2), word, word_c]
    rw [h, hw]; exact runCommand_reported .bounds s.c
  · have hw : mergeChecks d s = .error (.error .capacity (word (d.required s.n))) := by
      simp [mergeChecks, require_pos halign, require_pos htriples, require_pos hsym, require_pos hcar,
        require_pos hpix, require_neg (Nat.not_le.2 hneed)]
    rw [h, hw]; exact runCommand_reported .capacity _
  · obtain ⟨halign, htriples, hsym, hcar, hpix, hneed⟩ := hlen
    obtain ⟨ha, hbefore, hcell, hval⟩ := hbad
    have hw : mergeChecks d s = .error (.error .invalidSymbol (word a)) := by
      simp [mergeChecks, require_pos halign, require_pos htriples, require_pos hsym, require_pos hcar,
        require_pos hpix, require_pos hneed, checkSymbols_firstBad (ha.trans_le hsym) ha hbefore hcell hval, word]
    rw [h, hw]; exact runCommand_reported .invalidSymbol a

/-- MERGE at a supported depth: the checks in order, and the payload where they pass. -/
theorem mergesAtDepth (d : Depth) :
    MergesAtDepth d.merge (encode d.merge) d.perTriple d.hi (fun s => d.required s.n) (groupOf d) := by
  refine ⟨rfl, reportsMergeChecks (exec_mergeWork d), fun s hlen hsym hcar => ?_⟩
  rw [← align_eq] at hlen
  obtain ⟨m, heff, hmerged, hframe⟩ := putPayload_spec hlen hsym hcar
  refine ⟨succeed { s with pix := m, pixlen := word (d.required s.n) }, ?_, rfl, hmerged, hframe⟩
  rw [exec_mergeWork, mergeWork, mergeChecks_ok hlen hsym, bind_ok, mergeEffect, heff]
  rfl

/-- Settles O18: `mergesAtDepth` at depth 2. -/
theorem mergeTwoFollowsItsRule : Obligations.MergeTwoFollowsItsRule := mergesAtDepth .two

/-- Settles O19: `mergesAtDepth` at depth 4. -/
theorem mergeFourFollowsItsRule : Obligations.MergeFourFollowsItsRule := mergesAtDepth .four

/-- Settles O20: `mergesAtDepth` at depth 6. -/
theorem mergeSixFollowsItsRule : Obligations.MergeSixFollowsItsRule := mergesAtDepth .six

/-! ## EXTRACT by its rule (rules R92 to R94, R97) -/

theorem extractChecks_eq : extractChecks d s = pixChecks d.perTriple s := rfl

/-- EXTRACT at a supported depth: the checks in order, and the symbols where they pass. -/
theorem extractsAtDepth (d : Depth) :
    ExtractsAtDepth d.extract (encode d.extract) d.perTriple (symbolOf d) := by
  refine ⟨rfl, reportsPixChecks fun s => by rw [exec_extractWork, extractWork, extractChecks_eq],
    fun s hlen hpix => ?_⟩
  obtain ⟨m, heff, hsymbols, hframe⟩ := extractEffect_spec hlen hpix
  refine ⟨succeed { s with sym := m, symlen := word (d.perTriple * (s.p - 3) / 3) }, ?_, rfl, hsymbols, hframe⟩
  rw [exec_extractWork, extractWork, extractChecks_ok hlen, bind_ok, heff]
  rfl

/-- Settles O21: `extractsAtDepth` at depth 2. -/
theorem extractTwoFollowsItsRule : Obligations.ExtractTwoFollowsItsRule := extractsAtDepth .two

/-- Settles O22: `extractsAtDepth` at depth 4. -/
theorem extractFourFollowsItsRule : Obligations.ExtractFourFollowsItsRule := extractsAtDepth .four

/-- Settles O23: `extractsAtDepth` at depth 6. -/
theorem extractSixFollowsItsRule : Obligations.ExtractSixFollowsItsRule := extractsAtDepth .six

/-! ## TAIL by its rule (rule R95) -/

/-- Settles O24: the checks in order, and the copied bytes where they pass. -/
theorem tailFollowsItsRule : Obligations.TailFollowsItsRule := by
  refine ⟨rfl, fun s htriples => ?_, fun s htriples hbeyond => ?_, fun s htriples h3 hpc hbeyond => ?_,
    fun s htriples h3 hpc hcar hpix hwritten => ?_⟩
  · have hw : tailWork s = .error (.error .length (word s.c)) := by
      simp [tailWork, require_neg htriples, word]
    rw [exec_tailWork, hw]; exact runCommand_reported .length s.c
  · have hp : ¬(3 ≤ s.p ∧ s.p ≤ s.c) := by omega
    have hw : tailWork s = .error (.error .length (word s.p)) := by
      simp only [tailWork, require_pos htriples, require_neg hp, bind_ok, bind_error, word, word_p]
    rw [exec_tailWork, hw]; exact runCommand_reported .length s.p
  · have hw : tailWork s = .error (.error .bounds (word s.c)) := by
      simp only [tailWork, require_pos htriples, require_pos (And.intro h3 hpc), bind_ok,
        require_require_neg (hbeyond.imp Nat.not_le.2 Nat.not_le.2), word, word_c]
    rw [exec_tailWork, hw]; exact runCommand_reported .bounds s.c
  · obtain ⟨m, heff, htail, hframe⟩ := putTail_spec hcar hpix hpc hwritten
    refine ⟨succeed { s with pix := m, pixlen := s.carlen }, ?_, rfl, htail, hframe⟩
    rw [exec_tailWork, tailWork, require_pos htriples, require_pos ⟨h3, hpc⟩, require_pos hcar, require_pos hpix, heff]
    rfl

/-! ## The work of the two commands, by the streams each reads -/

/-- PIX with the merge of symbols into carrier bytes put behind the header. -/
def Memory.withPayload (m : Memory) (d : Depth) (cs vs : List Byte) : Memory :=
  Memory.writeList m 3 (mergeAll d cs vs)

/-- The state MERGE leaves before its report, from the carrier bytes and the symbols it reads. -/
def State.merged (s : State) (d : Depth) (cs vs : List Byte) : State :=
  { s with pix := s.pix.withPayload d cs vs, pixlen := word (d.required s.n) }

/-- The state EXTRACT leaves before its report, from the bytes it reads. -/
def State.extracted (s : State) (d : Depth) (bytes : List Byte) : State :=
  { s with sym := Memory.writeList s.sym 0 (extractAll d bytes), symlen := word (d.perTriple * (s.p - 3) / 3) }

section
variable {cs vs : List Byte}

/-- The checks of MERGE pass only over a range of symbols. -/
theorem mergeChecks_symbols {v : Unit} (h : mergeChecks d s = .ok v) :
    ∃ vs, readRange s .sym 0 s.n = .ok vs ∧ AllSymbols vs := by
  simp only [mergeChecks, bind_eq_ok] at h
  obtain ⟨-, -, -, -, -, -, -, -, -, -, -, -, hsymbols⟩ := h
  exact checkSymbols_iff_readRange.1 hsymbols

/-- A payload that is put comes from a carrier range that is read. -/
theorem putPayload_carrier (hvs : readRange s .sym 0 s.n = .ok vs) (h : putPayload d s = .ok t) :
    ∃ cs, readRange s .car 3 (d.payload s.n) = .ok cs ∧ t = s.withPix (s.pix.withPayload d cs vs) := by
  rw [putPayload, hvs, bind_ok, bind_eq_ok] at h
  obtain ⟨cs, hcs, hwrite⟩ := h
  exact ⟨cs, hcs, (writeRange_eq_ok hwrite).1⟩

/-- MERGE's work comes out right only for accepted lengths, a range of symbols, and a carrier range. -/
theorem mergeWork_eq_ok (h : mergeWork d s = .ok u) :
    s.MergeLengths d.align (d.required s.n) ∧ ∃ cs vs, readRange s .car 3 (d.payload s.n) = .ok cs ∧
      readRange s .sym 0 s.n = .ok vs ∧ AllSymbols vs ∧ u = s.merged d cs vs := by
  obtain ⟨_, hchecks, heff⟩ := bind_eq_ok.1 h
  obtain ⟨vs, hvs, hall⟩ := mergeChecks_symbols hchecks
  simp only [mergeEffect, bind_eq_ok, Except.ok.injEq] at heff
  obtain ⟨t, ht, rfl⟩ := heff
  obtain ⟨cs, hcs, rfl⟩ := putPayload_carrier hvs ht
  exact ⟨mergeChecks_lengths hchecks, cs, vs, hcs, hvs, hall, rfl⟩

theorem extractAll_readRange_length (h : s.PixLengths d.perTriple) (hvs : readRange s .pix 3 (s.p - 3) = .ok vs) :
    (extractAll d vs).length = d.perTriple * (s.p - 3) / 3 := by
  obtain ⟨⟨-, htriples⟩, -⟩ := h
  rw [extractAll_length, readRange_length hvs, symbols_eq d.perTriple htriples]

/-- EXTRACT's work comes out right for accepted lengths and a range of bytes. -/
theorem extractWork_of_readRange (h : s.PixLengths d.perTriple) (hvs : readRange s .pix 3 (s.p - 3) = .ok vs) :
    extractWork d s = .ok (s.extracted d vs) := by
  have hlen := extractAll_readRange_length h hvs
  have ⟨_, _, hsym⟩ := h
  rw [extractWork, extractChecks_ok h, bind_ok, extractEffect, hvs, bind_ok,
    writeRange_of_le (by rwa [hlen, Nat.zero_add])]
  rfl

/-! ## The round trip (rule R87 (a)) -/

/-- EXTRACT finds the merged symbols and gives them back, in any state whose PIXLEN ends the payload and whose payload
cells hold the merge. -/
theorem extractWork_merged (h : s.MergeLengths d.align (d.required s.n)) (hcs : cs.length = d.payload s.n)
    (hvs : vs.length = s.n) (hall : AllSymbols vs) (hparams : t.params = s.params) (hp : t.p = d.required s.n)
    (hpix : readRange t .pix 3 (d.payload s.n) = .ok (mergeAll d cs vs)) :
    extractWork d t = .ok { t with sym := Memory.writeList t.sym 0 vs, symlen := s.symlen } := by
  obtain ⟨halign, -, hsym, -, hsize, hneed⟩ := h
  have hpay : t.p - 3 = d.payload s.n := by rw [hp]; exact Nat.add_sub_cancel_left ..
  have htriples : d.payload s.n = 3 * (s.n / d.perTriple) := payload_eq d halign
  have hcount : d.perTriple * (t.p - 3) / 3 = s.n := by
    rw [hpay, htriples, symbols_eq _ (Nat.mul_mod_right ..), Nat.mul_div_cancel_left _ (by decide),
      Nat.mul_div_cancel' (Nat.dvd_of_mod_eq_zero (align_eq d ▸ halign))]
  have hlengths : t.PixLengths d.perTriple := by
    refine ⟨⟨hp ▸ Nat.le_add_right .., by omega⟩, ?_, ?_⟩
    · rw [hp, hparams]; exact hneed.trans hsize
    · rwa [hcount, hparams]
  rw [extractWork_of_readRange hlengths (by rwa [hpay]), State.extracted, hcount,
    extractAll_mergeAll (by rwa [hvs]) (by rw [hcs, hvs]) hall, word, word_n]

/-- EXTRACT at a depth after MERGE at it. -/
theorem exec_extract_merge (h : exec d.merge s = .next t) (ht : t.errcode = 0) :
    ∃ u, exec d.extract t = .next u ∧ u.errcode = 0 ∧ u.symlen = s.symlen ∧
      ∀ a, a < s.n → u.byte .sym a = s.byte .sym a := by
  rw [exec_mergeWork] at h
  obtain ⟨_, hwork, rfl⟩ := runCommand_succeeded h ht
  obtain ⟨hlengths, cs, vs, hcs, hvs, hall, rfl⟩ := mergeWork_eq_ok hwork
  have hclen := readRange_length hcs
  have hvlen := readRange_length hvs
  have ⟨halign, _, _, _, hsize, hneed⟩ := hlengths
  have hmlen : (mergeAll d cs vs).length = d.payload s.n := by
    rw [mergeAll_length d cs vs (by rw [hclen, hvlen, payload_eq d halign]), hclen]
  have hc : s.c < 2 ^ 32 := s.carlen.isLt
  have hpix : readRange (succeed (s.merged d cs vs)) .pix 3 (d.payload s.n) = .ok (mergeAll d cs vs) := by
    rw [← hmlen]
    refine readRange_of_writeList (m := s.pix) rfl ?_
    rw [hmlen]
    exact hneed.trans hsize
  have hextract := extractWork_merged (t := succeed (s.merged d cs vs)) hlengths hclen hvlen hall rfl
    (word_toNat (hneed.trans_lt hc)) hpix
  refine ⟨_, (exec_extractWork d _).trans (congrArg (runCommand _) hextract), rfl, rfl, fun a ha => ?_⟩
  exact read_writeList_of_readRange hvs s.sym (Nat.zero_le a) (by rwa [Nat.zero_add])

end

/-- Settles O47, depth by depth. -/
theorem mergeAndExtractRoundTrip : Obligations.MergeAndExtractRoundTrip := by
  intro x hx s t h ht
  simp only [List.mem_cons, List.not_mem_nil, or_false] at hx
  rcases hx with rfl | rfl | rfl
  · exact exec_extract_merge (d := .two) h ht
  · exact exec_extract_merge (d := .four) h ht
  · exact exec_extract_merge (d := .six) h ht

end Sys2Proof.Machine
end

section
/-! A hidden image and its carrier (obligation O51). ENCODE hidden writes three ranges of PIX one behind the other: the
header, the payload and the tail. The bytes of each come from the carrier bytes of the same range and agree with them
under a mask, and no later range touches an earlier one. -/

namespace Sys2Proof.Machine

variable {s t u : State} {d : Depth}

theorem exec_encodeHiddenWork (d : Depth) (s : State) :
    exec d.encode s = runCommand s (encodeHiddenWork d s) := by
  cases d <;> rfl

/-! ## The bytes of the image and those of the carrier -/

section
variable {cs vs : List Byte}

/-- Two lists of bytes agree under a mask. -/
def AgreeUnder (mask : Byte) (vs cs : List Byte) : Prop := vs.map (fun b => b &&& mask) = cs.map (fun b => b &&& mask)

theorem AgreeUnder.getD {mask : Byte} (h : AgreeUnder mask vs cs) (j : Nat) :
    vs.getD j 0 &&& mask = cs.getD j 0 &&& mask := by
  have hget := congrArg (fun l => l.getD j (0 &&& mask)) h
  rwa [List.getD_map (f := fun b : Byte => b &&& mask), List.getD_map (f := fun b : Byte => b &&& mask)] at hget

/-- The blend keeps the carrier's top five bits (rule R105 (b)). -/
theorem blend_tagByte_and (c : Byte) (t : BitVec 3) : blend c (tagByte t) &&& 0xF8 = c &&& 0xF8 := by
  have htag : tagByte t &&& 0xF8 = 0#8 := by
    apply BitVec.eq_of_getElem_eq
    intro k hk
    interval_cases k <;> simp [tagByte]
  rw [blend, BitVec.and_or_distrib_right, BitVec.and_assoc, BitVec.and_self, htag, BitVec.or_zero]

theorem header_agrees (mode depth : BitVec 3) (hlen : cs.length = 3) :
    AgreeUnder 0xF8 (List.zipWith blend cs (tag mode depth)) cs := by
  obtain ⟨c0, c1, c2, rfl⟩ := List.length_eq_three.1 hlen
  simp only [AgreeUnder, tag, List.zipWith, List.map_cons, List.map_nil, blend_tagByte_and]

/-- The tail keeps the bits above every depth. -/
theorem tailByte_and_hi (d : Depth) (c : Byte) : tailByte c &&& d.hi = c &&& d.hi := by
  have hmask : (0xFC : Byte) &&& d.hi = d.hi := by cases d <;> rfl
  rw [tailByte, BitVec.and_assoc, hmask]

theorem tail_agrees (d : Depth) (cs : List Byte) : AgreeUnder d.hi (cs.map tailByte) cs := by
  simp only [AgreeUnder, List.map_map, Function.comp_def, tailByte_and_hi]

/-! ## Cells of a written range -/

theorem read_writeList_of_lt (m : Memory) {a x : Nat} (h : x < a) :
    Memory.read (Memory.writeList m a vs) x = Memory.read m x := by
  rw [read_writeList, if_neg (by omega)]

/-- A range written with bytes that agree, under a mask, with the carrier bytes of the same range. -/
theorem read_writeList_and {mask : Byte} {a len x : Nat} (hcs : readRange s .car a len = .ok cs)
    (hagree : AgreeUnder mask vs cs) (m : Memory) (hlo : a ≤ x) (hhi : x < a + len) :
    (Memory.read (Memory.writeList m a vs) x).getD 0 &&& mask = s.val .car x &&& mask := by
  have hclen := readRange_length hcs
  have hlen : vs.length = cs.length := by simpa using congrArg List.length hagree
  have hval := readRange_val hcs (j := x - a) (by omega)
  rw [read_writeList, if_pos (by omega), ← List.getD_eq_getElem?_getD, hagree.getD (x - a), hval, Nat.add_sub_cancel' hlo]

end

/-! ## The work of ENCODE hidden -/

/-- PIX with the tag blended into three carrier bytes as its header. -/
def Memory.withHeader (m : Memory) (d : Depth) (hs : List Byte) : Memory :=
  Memory.writeList m 0 (List.zipWith blend hs (tag modeHidden d.code))

/-- PIX with the copy of carrier bytes put from an index on. -/
def Memory.withTail (m : Memory) (a : Nat) (ts : List Byte) : Memory := Memory.writeList m a (ts.map tailByte)

/-- PIX after ENCODE hidden, from the carrier bytes of its three ranges and the symbols. -/
def State.hiddenPix (s : State) (d : Depth) (hs cs ts vs : List Byte) : Memory :=
  ((s.pix.withHeader d hs).withPayload d cs vs).withTail (d.required s.n) ts

/-- A header that is put comes from a carrier range that is read. -/
theorem putHiddenHeader_carrier (h : putHiddenHeader d s = .ok t) :
    ∃ hs, readRange s .car 0 3 = .ok hs ∧ t = s.withPix (s.pix.withHeader d hs) := by
  obtain ⟨hs, hhs, hwrite⟩ := bind_eq_ok.1 h
  exact ⟨hs, hhs, (writeRange_eq_ok hwrite).1⟩

/-- A tail that is put comes from a carrier range that is read. -/
theorem putTail_carrier {a : Nat} (h : putTail a s = .ok t) :
    ∃ ts, readRange s .car a (s.c - a) = .ok ts ∧ t = s.withPix (s.pix.withTail a ts) := by
  obtain ⟨ts, hts, hwrite⟩ := bind_eq_ok.1 h
  exact ⟨ts, hts, (writeRange_eq_ok hwrite).1⟩

/-- ENCODE hidden comes out right only for accepted lengths, a range of symbols, and the three ranges of the carrier. -/
theorem encodeHiddenWork_eq_ok (h : encodeHiddenWork d s = .ok u) :
    s.MergeLengths d.align (d.required s.n) ∧ ∃ hs cs ts vs, readRange s .car 0 3 = .ok hs ∧
      readRange s .car 3 (d.payload s.n) = .ok cs ∧
      readRange s .car (d.required s.n) (s.c - d.required s.n) = .ok ts ∧
      readRange s .sym 0 s.n = .ok vs ∧ AllSymbols vs ∧
      u = { s with pix := s.hiddenPix d hs cs ts vs, pixlen := s.carlen } := by
  simp only [encodeHiddenWork, bind_eq_ok, Except.ok.injEq] at h
  obtain ⟨_, hchecks, t, ht, v, hv, w, hw, rfl⟩ := h
  obtain ⟨vs, hvs, hall⟩ := mergeChecks_symbols hchecks
  obtain ⟨hs, hhs, rfl⟩ := putHiddenHeader_carrier ht
  obtain ⟨cs, hcs, rfl⟩ := putPayload_carrier ((readRange_withPix (m := s.pix.withHeader d hs) sym_ne_pix).trans hvs) hv
  obtain ⟨ts, hts, rfl⟩ := putTail_carrier hw
  simp only [readRange_withPix car_ne_pix, withPix_n, withPix_c] at hcs hts
  exact ⟨mergeChecks_lengths hchecks, hs, cs, ts, vs, hhs, hcs, hts, hvs, hall, rfl⟩

/-! ## The image keeps the carrier's high bits -/

/-- ENCODE hidden at a depth: a header cell is changed by the header alone, a payload cell last by the payload, and a
tail cell last by the tail. -/
theorem exec_encodeHidden_keeps_high_bits (h : exec d.encode s = .next t) (ht : t.errcode = 0) :
    (∀ a, a < 3 → t.val .pix a &&& 0xF8 = s.val .car a &&& 0xF8) ∧
      ∀ a, 3 ≤ a → a < s.c → t.val .pix a &&& d.hi = s.val .car a &&& d.hi := by
  rw [exec_encodeHiddenWork] at h
  obtain ⟨_, hwork, rfl⟩ := runCommand_succeeded h ht
  obtain ⟨⟨halign, -⟩, hs, cs, ts, vs, hhs, hcs, hts, hvs, hall, rfl⟩ := encodeHiddenWork_eq_ok hwork
  have hreq : d.required s.n = 3 + d.payload s.n := rfl
  have hvlen := readRange_length hvs
  have hheader := header_agrees modeHidden d.code (readRange_length hhs)
  have hpayload : AgreeUnder d.hi (mergeAll d cs vs) cs :=
    mergeAll_and_hi (by rwa [hvlen]) (by rw [hvlen, readRange_length hcs]) hall
  simp only [State.val, State.byte, succeed_pix, mem_pix, State.hiddenPix, Memory.withTail, Memory.withPayload,
    Memory.withHeader]
  refine ⟨fun a ha => ?_, fun a h3 hc => ?_⟩
  · rw [read_writeList_of_lt _ (by omega), read_writeList_of_lt _ ha]
    exact read_writeList_and hhs hheader s.pix (Nat.zero_le a) (by omega)
  · by_cases hneed : a < d.required s.n
    · rw [read_writeList_of_lt _ hneed]
      exact read_writeList_and hcs hpayload _ h3 (by omega)
    · exact read_writeList_and hts (tail_agrees d ts) _ (by omega) (by omega)

/-- Settles O51, depth by depth. -/
theorem hiddenEncodeKeepsCarrierHighBits : Obligations.HiddenEncodeKeepsCarrierHighBits := by
  intro x hx s t h ht
  simp only [List.mem_cons, List.not_mem_nil, or_false] at hx
  rcases hx with rfl | rfl | rfl
  · exact exec_encodeHidden_keeps_high_bits (d := .two) h ht
  · exact exec_encodeHidden_keeps_high_bits (d := .four) h ht
  · exact exec_encodeHidden_keeps_high_bits (d := .six) h ht

end Sys2Proof.Machine
end

section
/-! The MetaHeader (obligations O14, O15, O30). A tag byte lives in the three bits the blend clears, so the mask of
those bits and the mask of the top five take a header apart again. The effects of HDRPUT and HDRGET are the laws
`putStaticHeader_spec`, `putHiddenHeader_spec` and `readHeader_spec`; what is added here is the order of their checks,
once for every refused pair and once for the three hidden depths. -/

namespace Sys2Proof.Machine

variable {s : State} {d : Depth}

/-! ## The datapath (rule R105) -/

theorem tagByte_and_top : ∀ t : BitVec 3, tagByte t &&& 0xF8 = 0 := by decide

theorem tagByte_and_low : ∀ t : BitVec 3, tagByte t &&& 7 = tagByte t := by decide

theorem setWidth_tagByte (t : BitVec 3) : (tagByte t).setWidth 3 = t := by simp [tagByte]

/-- The blend's low three bits are the tag's (rule R105 (a)): the carrier's have been cleared. -/
theorem blend_tagByte_and_low (c : Byte) (t : BitVec 3) : blend c (tagByte t) &&& 7 = tagByte t := by
  have hcarrier : c &&& 0xF8 &&& 7 = 0 := by rw [BitVec.and_assoc]; exact BitVec.and_zero
  rw [blend, BitVec.and_or_distrib_right, hcarrier, tagByte_and_low]
  exact BitVec.zero_or

/-- The field of a blended byte is the tag, as its low three bits are. -/
theorem setWidth_blend_tagByte (c : Byte) (t : BitVec 3) : (blend c (tagByte t)).setWidth 3 = t := by
  have hfield : ∀ v : Byte, v.setWidth 3 = (v &&& 7).setWidth 3 := fun v => by
    rw [BitVec.setWidth_and]; exact BitVec.and_allOnes.symm
  rw [hfield, blend_tagByte_and_low, setWidth_tagByte]

/-- Settles O30: each law is one of a tag byte alone, or of a tag byte blended into a carrier byte. -/
theorem headerLaws : Obligations.HeaderLaws := by
  refine ⟨fun c t => ⟨blend_tagByte_and_low c t, blend_tagByte_and c t⟩, fun c0 c1 c2 m d => ⟨?_, ?_⟩,
    fun m d t ht => ?_⟩
  · simp only [headerFields, setWidth_blend_tagByte]
    rfl
  · simp only [headerFields, setWidth_tagByte]
    rfl
  · simp only [tag, List.mem_cons, List.not_mem_nil, or_false] at ht
    rcases ht with rfl | rfl | rfl <;> exact tagByte_and_top _

/-! ## HDRPUT at a pair that is not legal (rules R57, R103) -/

/-- The two codes stand side by side in the low six bits of the word. -/
theorem pairWord_eq : ∀ mode depth : BitVec 3, pairWord mode depth = word (8 * mode.toNat + depth.toNat) := by decide

theorem hdrput_refused {mode depth : BitVec 3} (h : legalPair mode depth = none) :
    hdrput mode depth s = .next (s.reported 2 (8 * mode.toNat + depth.toNat)) := by
  have hcheck : requireLegal mode depth = .error (.error .notSupported (pairWord mode depth)) := by
    rw [requireLegal, h]
  rw [hdrput, hcheck, bind_error, pairWord_eq]
  exact runCommand_reported .notSupported _

/-! ## HDRPUT at a legal pair (rule R103) -/

theorem exec_putStaticHeader (s : State) : exec .hdrputStatic8 s = runCommand s (putStaticHeader s) := rfl

theorem exec_hdrputHiddenWork (d : Depth) (s : State) :
    exec d.hdrput s = runCommand s (hdrputHiddenWork d s) := by
  cases d <;> rfl

/-- HDRPUT hidden, check 2. -/
theorem exec_hdrputHidden_bounds (hcar : s.params.carSize < s.c) : exec d.hdrput s = .next (s.reported 5 s.c) := by
  have hw : hdrputHiddenWork d s = .error (.error .bounds (word s.c)) := by
    simp only [hdrputHiddenWork, require_neg (Nat.not_le.2 hcar), bind_error, word, word_c]
  rw [exec_hdrputHiddenWork, hw]; exact runCommand_reported .bounds s.c

/-- HDRPUT hidden, check 3. -/
theorem exec_hdrputHidden_capacity (hcar : s.c ≤ s.params.carSize) (h3 : s.c < 3) :
    exec d.hdrput s = .next (s.reported 1 3) := by
  have hw : hdrputHiddenWork d s = .error (.error .capacity (word 3)) := by
    simp only [hdrputHiddenWork, require_pos hcar, require_neg (Nat.not_le.2 h3), bind_ok, bind_error]
  rw [exec_hdrputHiddenWork, hw]; exact runCommand_reported .capacity 3

/-- HDRPUT hidden, where the checks pass, is the blended header with the success report. -/
theorem exec_hdrputHidden_completes (hp : s.params.Legal) (hcar : s.c ≤ s.params.carSize) (h3 : 3 ≤ s.c)
    (hwritten : s.Written .car 0 3) :
    ∃ t, exec d.hdrput s = .next t ∧ t = { s.completed with pix := t.pix } ∧
      t.byte .pix 0 = some ((s.val .car 0 &&& 0xF8) ||| 2) ∧
      t.byte .pix 1 = some ((s.val .car 1 &&& 0xF8) ||| d.code.setWidth 8) ∧
      t.byte .pix 2 = some ((s.val .car 2 &&& 0xF8) ||| 1) ∧ SameOutside s t .pix 0 3 := by
  obtain ⟨-, -, hpix, -⟩ := hp
  obtain ⟨m, heff, h0, h1, h2, hframe⟩ := putHiddenHeader_spec (d := d) hpix (h3.trans hcar) hwritten
  refine ⟨succeed { s with pix := m }, ?_, rfl, h0, h1, h2, hframe⟩
  rw [exec_hdrputHiddenWork, hdrputHiddenWork, require_pos hcar, require_pos h3, bind_ok, bind_ok, heff]
  rfl

/-- Settles O14: the refused pairs, the static header, and the hidden depths. -/
theorem hdrputFollowsItsRule : Obligations.HdrputFollowsItsRule := by
  refine ⟨fun i hi s => ?_, ⟨rfl, fun s hp => ?_⟩, fun x hx => ?_⟩
  · simp only [List.mem_cons, List.not_mem_nil, or_false] at hi
    rcases hi with rfl | rfl | rfl | rfl | rfl | rfl | rfl | rfl | rfl | rfl | rfl | rfl
    · exact hdrput_refused (mode := modeStatic) (depth := 1) rfl
    · exact hdrput_refused (mode := modeStatic) (depth := 2) rfl
    · exact hdrput_refused (mode := modeStatic) (depth := 3) rfl
    · exact hdrput_refused (mode := modeStatic) (depth := 4) rfl
    · exact hdrput_refused (mode := modeStatic) (depth := 5) rfl
    · exact hdrput_refused (mode := modeStatic) (depth := 6) rfl
    · exact hdrput_refused (mode := modeStatic) (depth := 7) rfl
    · exact hdrput_refused (mode := modeHidden) (depth := 0) rfl
    · exact hdrput_refused (mode := modeHidden) (depth := 1) rfl
    · exact hdrput_refused (mode := modeHidden) (depth := 3) rfl
    · exact hdrput_refused (mode := modeHidden) (depth := 5) rfl
    · exact hdrput_refused (mode := modeHidden) (depth := 7) rfl
  · obtain ⟨-, -, hpix, -⟩ := hp
    obtain ⟨m, heff, h0, h1, h2, hframe⟩ := putStaticHeader_spec hpix
    refine ⟨succeed { s with pix := m }, ?_, rfl, h0, h1, h2, hframe⟩
    rw [exec_putStaticHeader, heff]
    rfl
  · obtain ⟨d, rfl⟩ : ∃ d : Depth, x = (d.hdrput, encode d.hdrput, d.code.setWidth 8) := by
      simp only [List.mem_cons, List.not_mem_nil, or_false] at hx
      rcases hx with rfl | rfl | rfl
      · exact ⟨.two, rfl⟩
      · exact ⟨.four, rfl⟩
      · exact ⟨.six, rfl⟩
    exact ⟨rfl, fun _ => exec_hdrputHidden_bounds, fun _ => exec_hdrputHidden_capacity,
      fun _ => exec_hdrputHidden_completes⟩

/-! ## HDRGET (rule R104) -/

theorem exec_hdrgetWork (s : State) : exec .hdrget s = runCommand s (hdrgetWork s) := rfl

/-- Settles O15: the one check, and the header read back where it passes. -/
theorem hdrgetFollowsItsRule : Obligations.HdrgetFollowsItsRule := by
  refine ⟨rfl, fun s h3 => ?_, fun s hp h3 hwritten => ?_⟩
  · have hw : hdrgetWork s = .error (.error .length (word s.p)) := by
      simp only [hdrgetWork, require_neg (Nat.not_le.2 h3), bind_error, word, word_p]
    rw [exec_hdrgetWork, hw]; exact runCommand_reported .length s.p
  · obtain ⟨-, -, hpix, -⟩ := hp
    rw [exec_hdrgetWork, hdrgetWork, require_pos h3, bind_ok, readHeader_spec hpix hwritten, headerFields_val, bind_ok]
    rfl

end Sys2Proof.Machine
end

section
/-! NOP and ENCODE by their rules (obligations O11, O13, O25, O26). The checks of ENCODE are those of PACK and of MERGE,
whose order is settled by `reportsPackChecks` and `reportsMergeChecks`. Its effects put ranges of PIX one behind the
other, so each cell of the image is that of the last range it lies in. -/

namespace Sys2Proof.Machine

variable {s : State}

/-- Settles O11: NOP's work is the state as it is. -/
theorem nopOnlyReportsSuccess : Obligations.NopOnlyReportsSuccess := ⟨rfl, fun _ => rfl⟩

/-! ## ENCODE at a pair that is not legal (rule R116) -/

theorem requireLegal_refused {mode depth : BitVec 3} (h : legalPair mode depth = none) :
    requireLegal mode depth = .error (.error .notSupported (pairWord mode depth)) := by
  rw [requireLegal, h]

theorem encodeCommand_refused {mode depth : BitVec 3} (h : legalPair mode depth = none) :
    encodeCommand mode depth s = .next (s.reported 2 (8 * mode.toNat + depth.toNat)) := by
  rw [encodeCommand, requireLegal_refused h, bind_error, pairWord_eq]
  exact runCommand_reported .notSupported _

/-- Settles O13: the low six bits of these words are the two codes. -/
theorem encodeRefusesOtherPairs : Obligations.EncodeRefusesOtherPairs := by
  intro i hi s
  simp only [List.mem_cons, List.not_mem_nil, or_false] at hi
  rcases hi with rfl | rfl | rfl | rfl | rfl | rfl | rfl | rfl | rfl | rfl | rfl | rfl
  · exact encodeCommand_refused (mode := modeStatic) (depth := 1) rfl
  · exact encodeCommand_refused (mode := modeStatic) (depth := 2) rfl
  · exact encodeCommand_refused (mode := modeStatic) (depth := 3) rfl
  · exact encodeCommand_refused (mode := modeStatic) (depth := 4) rfl
  · exact encodeCommand_refused (mode := modeStatic) (depth := 5) rfl
  · exact encodeCommand_refused (mode := modeStatic) (depth := 6) rfl
  · exact encodeCommand_refused (mode := modeStatic) (depth := 7) rfl
  · exact encodeCommand_refused (mode := modeHidden) (depth := 0) rfl
  · exact encodeCommand_refused (mode := modeHidden) (depth := 1) rfl
  · exact encodeCommand_refused (mode := modeHidden) (depth := 3) rfl
  · exact encodeCommand_refused (mode := modeHidden) (depth := 5) rfl
  · exact encodeCommand_refused (mode := modeHidden) (depth := 7) rfl

/-! ## ENCODE static (rule R111) -/

theorem exec_encodeStaticWork (s : State) : exec .encodeStatic8 s = runCommand s (encodeStaticWork s) := rfl

/-- Settles O25: the payload is PACK's, in the state whose PIX begins with the tag, and leaves the tag alone. -/
theorem encodeStaticFollowsItsRule : Obligations.EncodeStaticFollowsItsRule := by
  refine ⟨rfl, reportsPackChecks exec_encodeStaticWork, fun s hlen hsym => ?_⟩
  have ⟨_, _, hpix⟩ := hlen
  obtain ⟨m, hheader, h0, h1, h2, hkeep⟩ := putStaticHeader_spec (s := s) (by omega)
  obtain ⟨m', heff, hpacked, hkeep'⟩ := packEffect_spec (s := s.withPix m) hlen hsym
  refine ⟨succeed { s with pix := m', pixlen := word (3 + 3 * s.n / 4) }, ?_, rfl,
    (hkeep' 0 (by omega)).trans h0, (hkeep' 1 (by omega)).trans h1, (hkeep' 2 (by omega)).trans h2, hpacked,
    fun a ha => (hkeep' a ?_).trans (hkeep a ?_)⟩
  · rw [exec_encodeStaticWork, encodeStaticWork, packChecks_ok hlen hsym, bind_ok, hheader, bind_ok]
    exact congrArg (runCommand s) heff
  · rw [withPix_n]; omega
  · omega

/-! ## ENCODE hidden (rule R112) -/

/-- The payload of accepted lengths ends below the required number of carrier bytes. -/
theorem payload_lt_required {d : Depth} {n q j : Nat} (halign : n % d.align = 0) (hq : q < n / d.perTriple)
    (hj : j < 3) : 3 + 3 * q + j < d.required n := by
  rw [Depth.required, payload_eq d halign]
  omega

/-- ENCODE hidden's work: the header, the payload and the tail, one behind the other. -/
theorem encodeHiddenWork_spec {d : Depth} (hlen : s.MergeLengths d.align (d.required s.n)) (hsym : s.Symbols s.n)
    (hwritten : s.Written .car 0 s.c) :
    ∃ m, encodeHiddenWork d s = .ok { s with pix := m, pixlen := s.carlen } ∧
      Memory.read m 0 = some ((s.val .car 0 &&& 0xF8) ||| 2) ∧
      Memory.read m 1 = some ((s.val .car 1 &&& 0xF8) ||| d.code.setWidth 8) ∧
      Memory.read m 2 = some ((s.val .car 2 &&& 0xF8) ||| 1) ∧
      (∀ q j, q < s.n / d.perTriple → j < 3 → Memory.read m (3 + 3 * q + j) =
        some ((s.val .car (3 + 3 * q + j) &&& d.hi) |||
          groupOf d (fun x => s.val .sym (d.perTriple * q + x)) j)) ∧
      (∀ a, d.required s.n ≤ a → a < s.c → Memory.read m a = some (s.val .car a &&& 0xFC)) ∧
      ∀ a, ¬(0 ≤ a ∧ a < s.c) → Memory.read m a = s.byte .pix a := by
  have ⟨halign, _, _, hcar, hpix, hneed⟩ := hlen
  have h3 : 3 ≤ d.required s.n := Nat.le_add_right ..
  obtain ⟨m, hheader, h0, h1, h2, hkeep⟩ := putHiddenHeader_spec (d := d) (s := s) (by omega) (by omega)
    fun a ha => hwritten a (by omega)
  obtain ⟨m', hpayload, hmerged, hkeep'⟩ := putPayload_spec (s := s.withPix m) hlen hsym
    fun a ha _ => hwritten a (ha.trans_le hneed) (Nat.zero_le a)
  obtain ⟨m'', htail, hcopied, hkeep''⟩ := putTail_spec (s := s.withPix m') hcar hpix hneed
    fun a ha _ => hwritten a ha (Nat.zero_le a)
  rw [withPix_n] at hmerged hkeep'
  rw [withPix_c] at hcopied hkeep''
  have hkept : ∀ a, a < 3 → Memory.read m'' a = Memory.read m a := fun a ha =>
    (hkeep'' a (by omega)).trans (hkeep' a (by omega))
  refine ⟨m'', ?_, (hkept 0 (by omega)).trans h0, (hkept 1 (by omega)).trans h1, (hkept 2 (by omega)).trans h2,
    fun q j hq hj => ?_, hcopied, fun a ha => ?_⟩
  · have hpayload : putPayload d (s.withPix m) = .ok (s.withPix m') := hpayload
    rw [encodeHiddenWork, mergeChecks_ok hlen hsym, bind_ok, hheader, bind_ok, ← State.withPix, hpayload, bind_ok,
      htail]
    rfl
  · have hlt := payload_lt_required halign hq hj
    exact (hkeep'' _ (by omega)).trans (hmerged q j hq hj)
  · exact (hkeep'' a (by omega)).trans ((hkeep' a (by omega)).trans (hkeep a (by omega)))

/-- ENCODE hidden at a supported depth: the checks in order, and the image where they pass. -/
theorem encodesAtDepth (d : Depth) :
    EncodesAtDepth d.encode (encode d.encode) (d.code.setWidth 8) d.perTriple d.hi (fun s => d.required s.n)
      (groupOf d) := by
  refine ⟨rfl, reportsMergeChecks (exec_encodeHiddenWork d), fun s hlen hsym hwritten => ?_⟩
  rw [← align_eq] at hlen
  obtain ⟨m, hwork, himage⟩ := encodeHiddenWork_spec hlen hsym hwritten
  refine ⟨succeed { s with pix := m, pixlen := s.carlen }, ?_, rfl, himage⟩
  rw [exec_encodeHiddenWork, hwork]
  rfl

/-- Settles O26, depth by depth. -/
theorem encodeHiddenFollowsItsRule : Obligations.EncodeHiddenFollowsItsRule :=
  ⟨encodesAtDepth .two, encodesAtDepth .four, encodesAtDepth .six⟩

end Sys2Proof.Machine
end

section
/-! DECODE by its rule (obligation O27). DECODE is its header checks followed by the work of another command, UNPACK or
EXTRACT.d, which the header selects: it reports what that command reports, and where that command completes it leaves
the same state with the header in HDR. So the checks and the effect behind the header are those of O17 and O21 to
O23. -/

namespace Sys2Proof.Machine

variable {s t u : State} {h : Hdr} {x : Coding}

/-! ## The command a header selects -/

/-- The command whose work DECODE does behind a header (rule R113). -/
def Coding.command : Coding → Instr
  | .static => .unpack
  | .hidden d => d.extract

/-- Symbols a triple, by what a header selects (rules R74, R80). -/
def Coding.perTriple : Coding → Nat
  | .static => 4
  | .hidden d => d.perTriple

/-- The symbol at a place of a triple, by what a header selects (rules R71, R92, R93, R94). -/
def Coding.symbol : Coding → (Nat → Byte) → Nat → Byte
  | .static => symbolStatic
  | .hidden d => symbolOf d

theorem Coding.exec_command (x : Coding) (s : State) : exec x.command s = runCommand s (decodePayload s x) := by
  cases x with
  | static => rfl
  | hidden d => exact exec_extractWork d s

/-- The selected command follows its own rule (O17, O21 to O23). -/
theorem Coding.command_extracts (x : Coding) :
    ExtractsAtDepth x.command (encode x.command) x.perTriple x.symbol := by
  cases x with
  | static => exact unpackFollowsItsRule
  | hidden d => exact extractsAtDepth d

theorem requireLegal_eq_ok {mode depth : BitVec 3} :
    requireLegal mode depth = .ok x ↔ legalPair mode depth = some x := by
  rw [requireLegal]
  cases legalPair mode depth <;> simp

/-- A legal pair has one of the two modes. -/
theorem mode_of_legalPair {mode depth : BitVec 3} (hx : legalPair mode depth = some x) :
    mode = modeStatic ∨ mode = modeHidden := by
  rw [legalPair] at hx
  split at hx
  next hmode => exact .inl hmode
  next =>
    split at hx
    next hmode => exact .inr hmode
    next => cases hx

/-! ## DECODE and the command it selects -/

theorem exec_decodeWork (s : State) : exec .decode s = runCommand s (decodeWork s) := decodeCommand_eq s

/-- DECODE's header checks pass exactly for a length of 3 or more and a header of version 1 with a legal pair. -/
theorem decodeHeader_eq_ok :
    decodeHeader s = .ok (h, x) ↔
      3 ≤ s.p ∧ readHeader s = .ok h ∧ h.version = Config.formatVersion ∧ legalPair h.mode h.depth = some x := by
  simp only [decodeHeader, bind_eq_ok, require_eq_ok, requireLegal_eq_ok, Except.ok.injEq, Prod.mk.injEq]
  constructor
  · rintro ⟨-, h3, h', hread, -, hversion, -, -, x', hpair, rfl, rfl⟩
    exact ⟨h3, hread, hversion, hpair⟩
  · rintro ⟨h3, hread, hversion, hpair⟩
    exact ⟨(), h3, h, hread, (), hversion, (), mode_of_legalPair hpair, x, hpair, rfl, rfl⟩

theorem decodeWork_of_header (hh : decodeHeader s = .ok (h, x)) :
    decodeWork s = decodePayload s x >>= fun t => .ok { t with hdr := h } := by
  rw [decodeWork, hh]
  rfl

/-- DECODE reports what the command its header selects reports. -/
theorem exec_decode_reports (hh : decodeHeader s = .ok (h, x)) (hc : exec x.command s = .next t)
    (ht : t.errcode ≠ 0) : exec .decode s = .next t := by
  rw [x.exec_command] at hc
  rw [exec_decodeWork, decodeWork_of_header hh]
  rcases runCommand_eq_next hc with ⟨u, -, rfl⟩ | ⟨e, info, hwork, rfl⟩
  · exact absurd rfl ht
  · rw [hwork]; rfl

/-- Where the command its header selects completes, DECODE completes with the header in HDR. -/
theorem exec_decode_completes (hh : decodeHeader s = .ok (h, x)) (hc : exec x.command s = .next t)
    (ht : t.errcode = 0) : exec .decode s = .next { t with hdr := h } := by
  rw [x.exec_command] at hc
  obtain ⟨u, hwork, rfl⟩ := runCommand_succeeded hc ht
  rw [exec_decodeWork, decodeWork_of_header hh, hwork]
  rfl

/-- DECODE completes only where the command its header selects does. -/
theorem exec_decode_succeeded (hd : exec .decode s = .next t) (ht : t.errcode = 0) :
    ∃ h x u, decodeHeader s = .ok (h, x) ∧ decodePayload s x = .ok u ∧ t = succeed { u with hdr := h } := by
  rw [exec_decodeWork] at hd
  obtain ⟨_, hwork, rfl⟩ := runCommand_succeeded hd ht
  obtain ⟨⟨h, x⟩, hh, hwork⟩ := bind_eq_ok.1 hwork
  obtain ⟨u, hu, hwork⟩ := bind_eq_ok.1 hwork
  cases hwork
  exact ⟨h, x, u, hh, hu, rfl⟩

/-! ## The header of PIX, as numbers (rules R102, R113) -/

theorem low3_lt (s : State) (a : Nat) : s.low3 a < 8 := Nat.mod_lt _ (by decide)

theorem toNat_ofNat_low3 (s : State) (a : Nat) : (BitVec.ofNat 3 (s.low3 a)).toNat = s.low3 a :=
  Nat.mod_eq_of_lt (low3_lt s a)

theorem headerOf_word (s : State) : s.headerOf.word = word s.headerBits := by
  rw [hdrWord_eq]
  simp only [State.headerOf, toNat_ofNat_low3]
  rfl

theorem headerOf_pairWord (s : State) : pairWord s.headerOf.mode s.headerOf.depth = word (s.headerBits % 64) := by
  have hmode := low3_lt s 0
  have hdepth := low3_lt s 1
  have hbits : 8 * s.low3 0 + s.low3 1 = s.headerBits % 64 := by rw [State.headerBits]; omega
  rw [pairWord_eq]
  simp only [State.headerOf, toNat_ofNat_low3, hbits]

theorem headerOf_version_eq (s : State) : s.headerOf.version = Config.formatVersion ↔ s.low3 2 = 1 := by
  rw [← BitVec.toNat_inj]
  simp only [State.headerOf, toNat_ofNat_low3]
  rfl

theorem headerOf_mode_eq (s : State) :
    (s.headerOf.mode = modeStatic ∨ s.headerOf.mode = modeHidden) ↔ (s.low3 0 = 1 ∨ s.low3 0 = 2) := by
  rw [← BitVec.toNat_inj, ← BitVec.toNat_inj]
  simp only [State.headerOf, toNat_ofNat_low3]
  rfl

/-- The pairs that are not legal, by the mode (rule R57). -/
theorem legalPair_eq_none :
    ∀ depth < 8, (depth ≠ 0 → legalPair modeStatic (BitVec.ofNat 3 depth) = none) ∧
      (depth ≠ 2 → depth ≠ 4 → depth ≠ 6 → legalPair modeHidden (BitVec.ofNat 3 depth) = none) := by
  decide

/-! ## The header checks in order -/

/-- With the cells of the header written, reading it leaves the checks on its fields. -/
theorem exec_decode_of_written (hp : s.params.Legal) (h3 : 3 ≤ s.p) (hwritten : s.Written .pix 0 3) :
    exec .decode s = runCommand s (do
      require (s.headerOf.version = Config.formatVersion) .header (word s.headerBits)
      require (s.headerOf.mode = modeStatic ∨ s.headerOf.mode = modeHidden) .header (word s.headerBits)
      let x ← requireLegal s.headerOf.mode s.headerOf.depth
      let t ← decodePayload s x
      .ok { t with hdr := s.headerOf }) := by
  obtain ⟨-, -, hpix, -⟩ := hp
  rw [exec_decodeWork, decodeWork, decodeHeader, require_pos h3, bind_ok, readHeader_spec hpix hwritten,
    headerFields_val, bind_ok, headerOf_word]
  simp only [bind_assoc, bind_ok]

/-- Checks 2 and 3. -/
theorem exec_decode_headerError (hp : s.params.Legal) (h3 : 3 ≤ s.p) (hwritten : s.Written .pix 0 3)
    (hbad : s.low3 2 ≠ 1 ∨ (s.low3 0 ≠ 1 ∧ s.low3 0 ≠ 2)) : exec .decode s = .next (s.reported 6 s.headerBits) := by
  have hfails : ¬s.headerOf.version = Config.formatVersion ∨
      ¬(s.headerOf.mode = modeStatic ∨ s.headerOf.mode = modeHidden) := by
    rw [headerOf_version_eq, headerOf_mode_eq]
    omega
  rw [exec_decode_of_written hp h3 hwritten, require_require_neg hfails]
  exact runCommand_reported .header _

/-- Check 4. -/
theorem exec_decode_notSupported (hp : s.params.Legal) (h3 : 3 ≤ s.p) (hwritten : s.Written .pix 0 3)
    (hversion : s.low3 2 = 1)
    (hbad : (s.low3 0 = 1 ∧ s.low3 1 ≠ 0) ∨ (s.low3 0 = 2 ∧ s.low3 1 ≠ 2 ∧ s.low3 1 ≠ 4 ∧ s.low3 1 ≠ 6)) :
    exec .decode s = .next (s.reported 2 (s.headerBits % 64)) := by
  have hmode : s.low3 0 = 1 ∨ s.low3 0 = 2 := hbad.imp And.left And.left
  have ⟨hstatic, hhidden⟩ := legalPair_eq_none (s.low3 1) (low3_lt s 1)
  have hpair : legalPair s.headerOf.mode s.headerOf.depth = none := by
    rcases hbad with ⟨hm, h0⟩ | ⟨hm, h2, h4, h6⟩
    · have hm : s.headerOf.mode = modeStatic := congrArg (BitVec.ofNat 3) hm
      exact hm ▸ hstatic h0
    · have hm : s.headerOf.mode = modeHidden := congrArg (BitVec.ofNat 3) hm
      exact hm ▸ hhidden h2 h4 h6
  rw [exec_decode_of_written hp h3 hwritten, require_pos ((headerOf_version_eq s).2 hversion), bind_ok,
    require_pos ((headerOf_mode_eq s).2 hmode), bind_ok, requireLegal_refused hpair, headerOf_pairWord, bind_error]
  exact runCommand_reported .notSupported _

/-! ## DECODE at a legal header -/

theorem decodeHeader_headerIs {mode depth : Nat} (hx : legalPair (BitVec.ofNat 3 mode) (BitVec.ofNat 3 depth) = some x)
    (hs : s.HeaderIs mode depth) : decodeHeader s = .ok (s.headerOf, x) := by
  obtain ⟨⟨-, -, hpix, -⟩, h3, hwritten, hversion, rfl, rfl⟩ := hs
  exact decodeHeader_eq_ok.2 ⟨h3, (readHeader_spec hpix hwritten).trans (by rw [headerFields_val]),
    (headerOf_version_eq s).2 hversion, hx⟩

/-- DECODE at a legal header: the checks and the effect of the command it selects. -/
theorem decodesAtDepth {mode depth : Nat}
    (hx : legalPair (BitVec.ofNat 3 mode) (BitVec.ofNat 3 depth) = some x) :
    DecodesAtDepth mode depth x.perTriple x.symbol := by
  obtain ⟨-, ⟨hlength, hbounds, hsym⟩, hcompletes⟩ := x.command_extracts
  refine ⟨fun s hs htriples => ?_, fun s hs htriples hpix => ?_, fun s hs htriples hpix hsize => ?_,
    fun s hs hlen hwritten => ?_⟩
  · exact exec_decode_reports (decodeHeader_headerIs hx hs) (hlength s fun h => htriples h.2) (by simp)
  · have ⟨_, h3, _⟩ := hs
    exact exec_decode_reports (decodeHeader_headerIs hx hs) (hbounds s ⟨h3, htriples⟩ hpix) (by simp)
  · have ⟨_, h3, _⟩ := hs
    exact exec_decode_reports (decodeHeader_headerIs hx hs) (hsym s ⟨h3, htriples⟩ hpix hsize) (by simp)
  · obtain ⟨t, hexec, ht, hsymbols, hframe⟩ := hcompletes s hlen hwritten
    refine ⟨{ t with hdr := s.headerOf }, exec_decode_completes (decodeHeader_headerIs hx hs) hexec (by rw [ht]; rfl),
      ?_, hsymbols, hframe⟩
    rw [ht]

/-- Settles O27: the header checks, and the four legal headers. -/
theorem decodeFollowsItsRule : Obligations.DecodeFollowsItsRule := by
  refine ⟨rfl, fun s h3 => ?_, fun s => exec_decode_headerError, fun s => exec_decode_notSupported,
    decodesAtDepth (x := .static) rfl, decodesAtDepth (x := .hidden .two) rfl, decodesAtDepth (x := .hidden .four) rfl,
    decodesAtDepth (x := .hidden .six) rfl⟩
  have hw : decodeWork s = .error (.error .length (word s.p)) := by
    simp only [decodeWork, decodeHeader, require_neg (Nat.not_le.2 h3), bind_error, word, word_p]
  rw [exec_decodeWork, hw]
  exact runCommand_reported .length s.p

end Sys2Proof.Machine
end

section
/-! The compound commands and their parts (obligation O45). Each part of ENCODE finds, in the state the part before it
has left, the lengths and the ranges of SYM and CAR that ENCODE itself has read, since the parts write only PIX and
PIXLEN; so it does the same work, and the report it leaves is replaced by the next one. UNPACK and EXTRACT after HDRGET
read nothing that HDRGET writes. -/

namespace Sys2Proof.Machine

variable {s t u : State} {d : Depth} {x : Coding} {h : Hdr}

/-! ## Reads in a later state -/

section
variable {b : Buf} {a len : Nat} {vs : List Byte}

theorem memRead_congr (hp : t.params = s.params) (hm : t.mem b = s.mem b) : memRead t b a = memRead s b a := by
  simp only [memRead, State.byte, size_congr s b hp, hm]

theorem readRange_congr (hp : t.params = s.params) (hm : t.mem b = s.mem b) :
    readRange t b a len = readRange s b a len := by
  induction len generalizing a with
  | zero => rfl
  | succ len ih => simp only [readRange, memRead_congr hp hm, ih]

/-- A range that was read reads the same where the sizes and its buffer are the same. -/
theorem readRange_later (hvs : readRange s b a len = .ok vs) (hp : t.params = s.params) (hm : t.mem b = s.mem b) :
    readRange t b a len = .ok vs :=
  (readRange_congr hp hm).trans hvs

end

/-! ## ENCODE static (rule R114 (a)) -/

/-- PIX with the tag as a pixel of its own as its header. -/
def Memory.withStaticHeader (m : Memory) : Memory := Memory.writeList m 0 (tag modeStatic 0)

theorem putStaticHeader_of_le (hpix : 3 ≤ s.params.pixSize) :
    putStaticHeader s = .ok (s.withPix s.pix.withStaticHeader) :=
  writeRange_of_le hpix

/-- The checks of PACK pass only over a range of symbols. -/
theorem packChecks_symbols {v : Unit} (hc : packChecks s = .ok v) :
    ∃ vs, readRange s .sym 0 s.n = .ok vs ∧ AllSymbols vs := by
  simp only [packChecks, bind_eq_ok] at hc
  obtain ⟨-, -, -, -, -, -, hsymbols⟩ := hc
  exact checkSymbols_iff_readRange.1 hsymbols

theorem packLengths_pixSize (hlen : s.PackLengths) : 3 ≤ s.params.pixSize := by
  obtain ⟨-, -, hpix⟩ := hlen
  omega

/-- ENCODE static completes only for accepted lengths and a range of symbols, and leaves what PACK leaves behind the
tag. -/
theorem exec_encodeStatic_succeeded (he : exec .encodeStatic8 s = .next t) (ht : t.errcode = 0) :
    s.PackLengths ∧ ∃ vs, readRange s .sym 0 s.n = .ok vs ∧ AllSymbols vs ∧
      t = succeed ((s.withPix s.pix.withStaticHeader).packed vs) := by
  rw [exec_encodeStaticWork] at he
  obtain ⟨u, hwork, rfl⟩ := runCommand_succeeded he ht
  obtain ⟨_, hchecks, hwork⟩ := bind_eq_ok.1 hwork
  have hlen := packChecks_lengths hchecks
  obtain ⟨vs, hvs, hall⟩ := packChecks_symbols hchecks
  have hvs' := (readRange_withPix (m := s.pix.withStaticHeader) sym_ne_pix).trans hvs
  rw [putStaticHeader_of_le (packLengths_pixSize hlen), bind_ok,
    packEffect_of_readRange (s := s.withPix s.pix.withStaticHeader) hlen hvs'] at hwork
  cases hwork
  exact ⟨hlen, vs, hvs, hall, rfl⟩

/-- PACK after HDRPUT static reaches the state of ENCODE static. -/
theorem exec_encodeStatic_parts (he : exec .encodeStatic8 s = .next t) (ht : t.errcode = 0) :
    ∃ u, exec .hdrputStatic8 s = .next u ∧ u.errcode = 0 ∧ exec .pack u = .next t := by
  obtain ⟨hlen, vs, hvs, hall, rfl⟩ := exec_encodeStatic_succeeded he ht
  have hheader := putStaticHeader_of_le (packLengths_pixSize hlen)
  have hpack : packWork (succeed (s.withPix s.pix.withStaticHeader)) = .ok _ :=
    packWork_eq_ok.2 ⟨hlen, vs, readRange_later hvs rfl rfl, hall, rfl⟩
  exact ⟨_, (exec_putStaticHeader s).trans (congrArg (runCommand s) hheader), rfl, congrArg (runCommand _) hpack⟩

/-! ## ENCODE hidden (rule R114 (b)) -/

/-- What a completed ENCODE hidden rests on: the lengths, and the ranges of CAR and SYM it has read. -/
structure State.HiddenStreams (s : State) (d : Depth) (hs cs ts vs : List Byte) : Prop where
  lengths : s.MergeLengths d.align (d.required s.n)
  header : readRange s .car 0 3 = .ok hs
  payload : readRange s .car 3 (d.payload s.n) = .ok cs
  tail : readRange s .car (d.required s.n) (s.c - d.required s.n) = .ok ts
  symbols : readRange s .sym 0 s.n = .ok vs
  allSymbols : AllSymbols vs

theorem exec_encodeHidden_succeeded (he : exec d.encode s = .next t) (ht : t.errcode = 0) :
    ∃ hs cs ts vs, s.HiddenStreams d hs cs ts vs ∧
      t = succeed { s with pix := s.hiddenPix d hs cs ts vs, pixlen := s.carlen } := by
  rw [exec_encodeHiddenWork] at he
  obtain ⟨_, hwork, rfl⟩ := runCommand_succeeded he ht
  obtain ⟨hlen, hs, cs, ts, vs, hhs, hcs, hts, hvs, hall, rfl⟩ := encodeHiddenWork_eq_ok hwork
  exact ⟨hs, cs, ts, vs, ⟨hlen, hhs, hcs, hts, hvs, hall⟩, rfl⟩

section
variable {hs cs ts vs : List Byte}

/-- HDRPUT's work comes out right for a carrier whose first three bytes are read. -/
theorem hdrputHiddenWork_of_readRange (hcar : s.c ≤ s.params.carSize) (h3 : 3 ≤ s.c) (hpix : 3 ≤ s.params.pixSize)
    (hhs : readRange s .car 0 3 = .ok hs) : hdrputHiddenWork d s = .ok (s.withPix (s.pix.withHeader d hs)) := by
  have hlen := readRange_length hhs
  rw [hdrputHiddenWork, require_pos hcar, require_pos h3, bind_ok, bind_ok, putHiddenHeader, hhs, bind_ok,
    writeRange_of_le (by simpa [tag, hlen] using hpix)]
  rfl

theorem mergeAll_readRange_length (hlen : s.MergeLengths d.align (d.required s.n))
    (hcs : readRange s .car 3 (d.payload s.n) = .ok cs) (hvs : readRange s .sym 0 s.n = .ok vs) :
    (mergeAll d cs vs).length = d.payload s.n := by
  obtain ⟨halign, -⟩ := hlen
  have hclen := readRange_length hcs
  rw [mergeAll_length d cs vs (by rw [hclen, readRange_length hvs, payload_eq d halign]), hclen]

/-- MERGE's work comes out right for accepted lengths, a range of symbols, and a carrier range. -/
theorem mergeWork_of_readRange (hlen : s.MergeLengths d.align (d.required s.n))
    (hcs : readRange s .car 3 (d.payload s.n) = .ok cs) (hvs : readRange s .sym 0 s.n = .ok vs)
    (hall : AllSymbols vs) : mergeWork d s = .ok (s.merged d cs vs) := by
  have hmlen := mergeAll_readRange_length hlen hcs hvs
  obtain ⟨halign, htriples, hsym, hcar, hpix, hneed⟩ := hlen
  have hchecks : mergeChecks d s = .ok () := by
    rw [mergeChecks, require_pos halign, require_pos htriples, require_pos hsym, require_pos hcar, require_pos hpix,
      require_pos hneed]
    exact checkSymbols_iff_readRange.2 ⟨vs, hvs, hall⟩
  have hfits : 3 + (mergeAll d cs vs).length ≤ s.size .pix := by rw [hmlen]; exact hneed.trans hpix
  rw [mergeWork, hchecks, bind_ok, mergeEffect, putPayload, hvs, bind_ok, hcs, bind_ok, writeRange_of_le hfits]
  rfl

/-- TAIL's work comes out right for accepted lengths and a carrier range. -/
theorem tailWork_of_readRange {a : Nat} (hp : s.p = a) (h3 : 3 ≤ a) (hac : a ≤ s.c) (htriples : s.c % 3 = 0)
    (hcar : s.c ≤ s.params.carSize) (hpix : s.c ≤ s.params.pixSize) (hts : readRange s .car a (s.c - a) = .ok ts) :
    tailWork s = .ok { s with pix := s.pix.withTail a ts, pixlen := s.carlen } := by
  subst hp
  have hfits : s.p + (ts.map tailByte).length ≤ s.size .pix := by
    rw [List.length_map, readRange_length hts, Nat.add_sub_cancel' hac]
    exact hpix
  rw [tailWork, require_pos htriples, require_pos ⟨h3, hac⟩, require_pos hcar, require_pos hpix, bind_ok, bind_ok,
    bind_ok, bind_ok, putTail, hts, bind_ok, writeRange_of_le hfits]
  rfl

end

/-- TAIL after MERGE after HDRPUT hidden reaches the state of ENCODE hidden. -/
theorem exec_encodeHidden_parts (he : exec d.encode s = .next t) (ht : t.errcode = 0) :
    ∃ u v, exec d.hdrput s = .next u ∧ u.errcode = 0 ∧ exec d.merge u = .next v ∧ v.errcode = 0 ∧
      exec .tail v = .next t := by
  obtain ⟨hs, cs, ts, vs, ⟨hlen, hhs, hcs, hts, hvs, hall⟩, rfl⟩ := exec_encodeHidden_succeeded he ht
  have ⟨_, htriples, _, hcar, hpix, hneed⟩ := hlen
  have h3 : 3 ≤ d.required s.n := Nat.le_add_right ..
  have hheader : hdrputHiddenWork d s = .ok _ :=
    hdrputHiddenWork_of_readRange hcar (h3.trans hneed) ((h3.trans hneed).trans hpix) hhs
  have hmerge : mergeWork d (succeed (s.withPix (s.pix.withHeader d hs))) = .ok _ :=
    mergeWork_of_readRange hlen (readRange_later hcs rfl rfl) (readRange_later hvs rfl rfl) hall
  have htail : tailWork (succeed ((succeed (s.withPix (s.pix.withHeader d hs))).merged d cs vs)) = .ok _ :=
    tailWork_of_readRange (word_toNat (hneed.trans_lt s.carlen.isLt)) h3 hneed htriples hcar hpix
      (readRange_later hts rfl rfl)
  exact ⟨_, _, (exec_hdrputHiddenWork d s).trans (congrArg (runCommand s) hheader), rfl,
    (exec_mergeWork d _).trans (congrArg (runCommand _) hmerge), rfl, congrArg (runCommand _) htail⟩

/-! ## DECODE (rule R114 (c)) -/

/-- The symbols of a byte stream, by what a header selects (rules R74, R86). -/
def Coding.symbols : Coding → List Byte → List Byte
  | .static => unpackAll
  | .hidden d => extractAll d

/-- The state UNPACK or EXTRACT leaves before its report, from the bytes it reads. -/
def State.decoded (s : State) (x : Coding) (bytes : List Byte) : State :=
  { s with sym := Memory.writeList s.sym 0 (x.symbols bytes), symlen := word (x.perTriple * (s.p - 3) / 3) }

/-- EXTRACT's work comes out right exactly for accepted lengths and a range of bytes. -/
theorem extractWork_eq_ok :
    extractWork d s = .ok u ↔
      s.PixLengths d.perTriple ∧ ∃ vs, readRange s .pix 3 (s.p - 3) = .ok vs ∧ u = s.extracted d vs := by
  constructor
  · intro hwork
    obtain ⟨_, hchecks, heff⟩ := bind_eq_ok.1 hwork
    have hlen := extractChecks_lengths hchecks
    obtain ⟨vs, hvs, -⟩ := bind_eq_ok.1 heff
    exact ⟨hlen, vs, hvs, (Except.ok.inj ((extractWork_of_readRange hlen hvs).symm.trans hwork)).symm⟩
  · rintro ⟨hlen, vs, hvs, rfl⟩
    exact extractWork_of_readRange hlen hvs

theorem decodePayload_eq_ok :
    decodePayload s x = .ok u ↔
      s.PixLengths x.perTriple ∧ ∃ vs, readRange s .pix 3 (s.p - 3) = .ok vs ∧ u = s.decoded x vs := by
  cases x with
  | static => exact unpackWork_eq_ok
  | hidden d => exact extractWork_eq_ok

/-- A header that is read is the one the statements name. -/
theorem readHeader_eq_headerOf (hh : readHeader s = .ok h) : h = s.headerOf := by
  simp only [readHeader, bind_eq_ok, memRead_eq_ok, Except.ok.injEq] at hh
  obtain ⟨b0, ⟨-, h0⟩, b1, ⟨-, h1⟩, b2, ⟨-, h2⟩, rfl⟩ := hh
  simp only [← headerFields_val, State.val, h0, h1, h2, Option.getD_some]

/-- UNPACK or EXTRACT after HDRGET reaches the state of DECODE. -/
theorem exec_decode_parts {mode depth : Nat} (hx : legalPair (BitVec.ofNat 3 mode) (BitVec.ofNat 3 depth) = some x)
    (hd : exec .decode s = .next t) (ht : t.errcode = 0) (hmode : s.low3 0 = mode) (hdepth : s.low3 1 = depth) :
    ∃ u, exec .hdrget s = .next u ∧ u.errcode = 0 ∧ exec x.command u = .next t := by
  obtain ⟨h, x', u, hheader, hpayload, rfl⟩ := exec_decode_succeeded hd ht
  obtain ⟨h3, hread, -, hpair⟩ := decodeHeader_eq_ok.1 hheader
  obtain rfl : x' = x := by
    subst hmode hdepth
    rw [readHeader_eq_headerOf hread] at hpair
    exact Option.some.inj (hpair.symm.trans hx)
  obtain ⟨hlen, vs, hvs, rfl⟩ := decodePayload_eq_ok.1 hpayload
  have hget : hdrgetWork s = .ok { s with hdr := h } := by
    rw [hdrgetWork, require_pos h3, bind_ok, hread]
    rfl
  have hpayload' : decodePayload (succeed { s with hdr := h }) x' = .ok _ :=
    decodePayload_eq_ok.2 ⟨hlen, vs, readRange_later hvs rfl rfl, rfl⟩
  exact ⟨_, (exec_hdrgetWork s).trans (congrArg (runCommand s) hget), rfl,
    (x'.exec_command _).trans (congrArg (runCommand _) hpayload')⟩

/-- Settles O45: ENCODE static, ENCODE hidden at each depth, and DECODE at each legal header. -/
theorem compoundCommandsEqualTheirParts : Obligations.CompoundCommandsEqualTheirParts := by
  refine ⟨fun s t => exec_encodeStatic_parts, fun x hx s t he ht => ?_, fun x hx s t hd ht hmode hdepth => ?_⟩
  · simp only [List.mem_cons, List.not_mem_nil, or_false] at hx
    rcases hx with rfl | rfl | rfl
    · exact exec_encodeHidden_parts (d := .two) he ht
    · exact exec_encodeHidden_parts (d := .four) he ht
    · exact exec_encodeHidden_parts (d := .six) he ht
  · simp only [List.mem_cons, List.not_mem_nil, or_false] at hx
    rcases hx with rfl | rfl | rfl | rfl
    · exact exec_decode_parts (x := .static) rfl hd ht hmode hdepth
    · exact exec_decode_parts (x := .hidden .two) rfl hd ht hmode hdepth
    · exact exec_decode_parts (x := .hidden .four) rfl hd ht hmode hdepth
    · exact exec_decode_parts (x := .hidden .six) rfl hd ht hmode hdepth

end Sys2Proof.Machine
end

section
/-! DECODE after ENCODE (obligations O48, O49, O50). PIX after ENCODE is three header bytes with a stream of bytes
behind them, in which DECODE finds the header ENCODE has put and reads as many bytes of the stream as PIXLEN says. The
packed or merged payload gives the symbols back; a carrier byte of the tail gives the symbols of its bits above the low
two. -/

namespace Sys2Proof.Machine

variable {s t u : State} {d : Depth} {m : Memory} {hs cs ts vs ws : List Byte}

/-! ## Streams behind a header -/

theorem writeList_append (m : Memory) (a : Nat) (vs ws : List Byte) :
    Memory.writeList m a (vs ++ ws) = Memory.writeList (Memory.writeList m a vs) (a + vs.length) ws := by
  induction vs generalizing m a with
  | nil => rfl
  | cons v vs ih =>
    rw [List.cons_append, Memory.writeList, ih, Memory.writeList, List.length_cons]
    congr 1
    omega

/-- The first part of a stream that was written reads back. -/
theorem readRange_of_writeList_append {b : Buf} {a : Nat} (hm : s.mem b = Memory.writeList m a (vs ++ ws))
    (hfits : a + vs.length ≤ s.size b) : readRange s b a vs.length = .ok vs :=
  readRange_eq_ok.2 ⟨rfl, fun j hj => ⟨by omega, by
    rw [State.byte, hm, read_writeList, if_pos (by rw [List.length_append]; omega), Nat.add_sub_cancel_left,
      List.getElem?_append_left hj]⟩⟩

/-- The header of a PIX with a stream behind it. -/
theorem readHeader_before_stream {b0 b1 b2 : Byte}
    (hm : s.pix = Memory.writeList (Memory.writeList m 0 [b0, b1, b2]) 3 vs) (hpix : 3 ≤ s.params.pixSize) :
    readHeader s = .ok (headerFields b0 b1 b2) := by
  have hcell : ∀ a (ha : a < 3), memRead s .pix a = .ok ([b0, b1, b2][a]) := fun a ha =>
    memRead_eq_ok.2 ⟨ha.trans_le hpix, by
      rw [State.byte, mem_pix, hm, read_writeList_of_lt _ ha, read_writeList, if_pos ⟨Nat.zero_le a, by simpa using ha⟩,
        Nat.sub_zero, List.getElem?_eq_getElem]⟩
  rw [readHeader, hcell 0 (by decide), hcell 1 (by decide), hcell 2 (by decide)]
  rfl

theorem decodeHeader_static (hp : 3 ≤ s.p) (hpix : 3 ≤ s.params.pixSize)
    (hm : s.pix = Memory.writeList m.withStaticHeader 3 vs) :
    decodeHeader s = .ok ({ version := 1, mode := 1, depth := 0 }, .static) := by
  obtain ⟨-, hfields, -⟩ := headerLaws
  obtain ⟨-, hstatic⟩ := hfields 0 0 0 modeStatic 0
  exact decodeHeader_eq_ok.2 ⟨hp, (readHeader_before_stream hm hpix).trans (congrArg _ hstatic), rfl, rfl⟩

theorem legalPair_hidden (d : Depth) : legalPair 2 d.code = some (.hidden d) := by cases d <;> rfl

theorem decodeHeader_hidden (hp : 3 ≤ s.p) (hpix : 3 ≤ s.params.pixSize) (hlen : hs.length = 3)
    (hm : s.pix = Memory.writeList (m.withHeader d hs) 3 vs) :
    decodeHeader s = .ok ({ version := 1, mode := 2, depth := d.code }, .hidden d) := by
  obtain ⟨c0, c1, c2, rfl⟩ := List.length_eq_three.1 hlen
  obtain ⟨-, hfields, -⟩ := headerLaws
  obtain ⟨hblended, -⟩ := hfields c0 c1 c2 modeHidden d.code
  exact decodeHeader_eq_ok.2
    ⟨hp, (readHeader_before_stream hm hpix).trans (congrArg _ hblended), rfl, legalPair_hidden d⟩

/-! ## Static (rule R117) -/

/-- Settles O48: DECODE runs UNPACK, which gives the packed symbols back. -/
theorem staticEncodeDecodeRoundTrip : Obligations.StaticEncodeDecodeRoundTrip := by
  intro s t he ht
  obtain ⟨hlen, vs, hvs, hall, rfl⟩ := exec_encodeStatic_succeeded he ht
  have ⟨_, _, hpix⟩ := hlen
  have hn : s.n < 2 ^ 32 := s.symlen.isLt
  have hp : (succeed ((s.withPix s.pix.withStaticHeader).packed vs)).p = 3 + 3 * s.n / 4 :=
    word_toNat (v := 3 + 3 * s.n / 4) (by omega)
  have hheader := decodeHeader_static (s := succeed ((s.withPix s.pix.withStaticHeader).packed vs)) (by omega)
    (packLengths_pixSize hlen) rfl
  have hunpack := unpackWork_packed (s := s.withPix s.pix.withStaticHeader) hlen (readRange_later hvs rfl rfl) hall rfl
  refine ⟨_, exec_decode_completes hheader (congrArg (runCommand _) hunpack) rfl, rfl, rfl, rfl, fun a ha => ?_⟩
  exact read_writeList_of_readRange hvs s.sym (Nat.zero_le a) (by rwa [Nat.zero_add])

/-! ## The image of ENCODE hidden -/

/-- The bytes behind the header of a hidden image: the merged payload and the tail. -/
def hiddenStream (d : Depth) (cs ts vs : List Byte) : List Byte := mergeAll d cs vs ++ ts.map tailByte

section
variable (h : s.HiddenStreams d hs cs ts vs)
include h

theorem State.HiddenStreams.mergeAll_length : (mergeAll d cs vs).length = d.payload s.n :=
  mergeAll_readRange_length h.lengths h.payload h.symbols

theorem State.HiddenStreams.required_le : d.required s.n ≤ s.c := by
  obtain ⟨-, -, -, -, -, hneed⟩ := h.lengths
  exact hneed

theorem State.HiddenStreams.hiddenPix_eq :
    s.hiddenPix d hs cs ts vs = Memory.writeList (s.pix.withHeader d hs) 3 (hiddenStream d cs ts vs) := by
  rw [hiddenStream, writeList_append, h.mergeAll_length]
  rfl

theorem State.HiddenStreams.stream_length : (hiddenStream d cs ts vs).length = s.c - 3 := by
  have hneed := h.required_le
  rw [hiddenStream, List.length_append, List.length_map, h.mergeAll_length, readRange_length h.tail]
  simp only [Depth.required] at hneed ⊢
  omega

/-- The bytes of the stream behind the payload are those of the carrier, with their low two bits cleared. -/
theorem State.HiddenStreams.stream_tail {j : Nat} (hlo : d.payload s.n ≤ j) (hhi : j < s.c - 3) :
    (hiddenStream d cs ts vs).getD j 0 = s.val .car (3 + j) &&& 0xFC := by
  have hval := readRange_val h.tail (j := j - d.payload s.n) (by simp only [Depth.required]; omega)
  have hmap : (ts.map tailByte).getD (j - d.payload s.n) (tailByte 0) = tailByte (ts.getD (j - d.payload s.n) 0) :=
    List.getD_map ts 0 tailByte
  have hindex : d.required s.n + (j - d.payload s.n) = 3 + j := by rw [Depth.required]; omega
  rw [hindex] at hval
  rw [hiddenStream, List.getD_append_right _ _ _ _ (h.mergeAll_length ▸ hlo), h.mergeAll_length, ← hval]
  exact hmap

end

/-- What a completed ENCODE hidden leaves for DECODE. -/
theorem exec_encodeHidden_image (he : exec d.encode s = .next t) (ht : t.errcode = 0) :
    ∃ hs cs ts vs, s.HiddenStreams d hs cs ts vs ∧ t.params = s.params ∧ t.p = s.c ∧
      t.pix = Memory.writeList (s.pix.withHeader d hs) 3 (hiddenStream d cs ts vs) := by
  obtain ⟨hs, cs, ts, vs, hstreams, rfl⟩ := exec_encodeHidden_succeeded he ht
  exact ⟨hs, cs, ts, vs, hstreams, rfl, rfl, hstreams.hiddenPix_eq⟩

/-! ## Hidden, with PIXLEN set to the required bytes (rule R117) -/

/-- DECODE of the payload alone runs EXTRACT, which gives the merged symbols back. -/
theorem exec_decode_encodeHidden (he : exec d.encode s = .next t) (ht : t.errcode = 0) :
    ∃ u, exec .decode { t with pixlen := BitVec.ofNat 32 (d.required s.n) } = .next u ∧ u.errcode = 0 ∧
      u.symlen = s.symlen ∧ u.hdr = { version := 1, mode := 2, depth := d.code } ∧
      ∀ a, a < s.n → u.byte .sym a = s.byte .sym a := by
  obtain ⟨hs, cs, ts, vs, hstreams, hparams, -, himage⟩ := exec_encodeHidden_image he ht
  have ⟨hlen, hhs, hcs, _, hvs, hall⟩ := hstreams
  have ⟨_, _, _, _, hpix, hneed⟩ := hlen
  have h3 : 3 ≤ d.required s.n := Nat.le_add_right ..
  generalize ht' : { t with pixlen := BitVec.ofNat 32 (d.required s.n) } = t'
  replace himage : t'.pix = Memory.writeList (s.pix.withHeader d hs) 3 (hiddenStream d cs ts vs) := ht' ▸ himage
  replace hparams : t'.params = s.params := ht' ▸ hparams
  have hp : t'.p = d.required s.n := ht' ▸ word_toNat (hneed.trans_lt s.carlen.isLt)
  have hheader := decodeHeader_hidden (hp ▸ h3) (hparams ▸ (h3.trans hneed).trans hpix) (readRange_length hhs) himage
  have hpayload : readRange t' .pix 3 (d.payload s.n) = .ok (mergeAll d cs vs) := by
    rw [← hstreams.mergeAll_length]
    refine readRange_of_writeList_append himage ?_
    rw [hstreams.mergeAll_length, size_pix, hparams]
    exact hneed.trans hpix
  have hextract := extractWork_merged hlen (readRange_length hcs) (readRange_length hvs) hall hparams hp hpayload
  have hcommand := (exec_extractWork d t').trans (congrArg (runCommand t') hextract)
  refine ⟨_, exec_decode_completes hheader hcommand rfl, rfl, rfl, rfl, fun a ha => ?_⟩
  exact read_writeList_of_readRange hvs t'.sym (Nat.zero_le a) (by rwa [Nat.zero_add])

/-- Settles O49, depth by depth. -/
theorem hiddenEncodeDecodeRoundTrip : Obligations.HiddenEncodeDecodeRoundTrip := by
  intro x hx s t he ht
  simp only [List.mem_cons, List.not_mem_nil, or_false] at hx
  rcases hx with rfl | rfl | rfl
  · exact exec_decode_encodeHidden (d := .two) he ht
  · exact exec_decode_encodeHidden (d := .four) he ht
  · exact exec_decode_encodeHidden (d := .six) he ht

/-! ## Hidden, with PIXLEN left at the carrier's length (rules R117, R176) -/

theorem joinAll2_append (hvs : vs.length % 3 = 0) : joinAll2 (vs ++ ws) = joinAll2 vs ++ joinAll2 ws := by
  fun_induction joinAll2 vs with
  | case1 g0 g1 g2 rest ih =>
    simp only [List.length_cons] at hvs
    simp [joinAll2, ih (by omega)]
  | case2 vs hshort =>
    match vs with
    | [] => rfl
    | [_] | [_, _] => simp at hvs
    | a :: b :: c :: l => exact absurd rfl (hshort a b c l)

theorem joinAll4_append (hvs : vs.length % 3 = 0) : joinAll4 (vs ++ ws) = joinAll4 vs ++ joinAll4 ws := by
  fun_induction joinAll4 vs with
  | case1 g0 g1 g2 rest s0 s1 hjoin ih =>
    simp only [List.length_cons] at hvs
    simp [joinAll4, hjoin, ih (by omega)]
  | case2 vs hshort =>
    match vs with
    | [] => rfl
    | [_] | [_, _] => simp at hvs
    | a :: b :: c :: l => exact absurd rfl (hshort a b c l)

theorem joinAll6_append (hvs : vs.length % 3 = 0) : joinAll6 (vs ++ ws) = joinAll6 vs ++ joinAll6 ws := by
  fun_induction joinAll6 vs with
  | case1 g0 g1 g2 rest s0 s1 s2 hjoin ih =>
    simp only [List.length_cons] at hvs
    simp [joinAll6, hjoin, ih (by omega)]
  | case2 vs hshort =>
    match vs with
    | [] => rfl
    | [_] | [_, _] => simp at hvs
    | a :: b :: c :: l => exact absurd rfl (hshort a b c l)

/-- Whole triples are extracted without what follows them. -/
theorem extractAll_append (hvs : vs.length % 3 = 0) :
    extractAll d (vs ++ ws) = extractAll d vs ++ extractAll d ws := by
  have hlow : (vs.map fun b => b &&& d.lo).length % 3 = 0 := by rwa [List.length_map]
  rw [extractAll, List.map_append]
  cases d with
  | two => exact joinAll2_append hlow
  | four => exact joinAll4_append hlow
  | six => exact joinAll6_append hlow

theorem read_writeList_of_getElem? {j : Nat} {v : Byte} (m : Memory) (a : Nat) (hv : vs[j]? = some v) :
    Memory.read (Memory.writeList m a vs) (a + j) = some v := by
  obtain ⟨hj, -⟩ := List.getElem?_eq_some_iff.1 hv
  rw [read_writeList, if_pos (by omega), Nat.add_sub_cancel_left, hv]

section
variable (h : s.HiddenStreams d hs cs ts vs)
include h

/-- The symbols of the whole stream begin with those that were encoded. -/
theorem State.HiddenStreams.extractAll_stream :
    extractAll d (hiddenStream d cs ts vs) = vs ++ extractAll d (ts.map tailByte) := by
  have hlen := h.mergeAll_length
  obtain ⟨⟨halign, -⟩, -, hcs, -, hvs, hall⟩ := h
  have hvlen := readRange_length hvs
  have htriples : (mergeAll d cs vs).length % 3 = 0 := by
    rw [hlen, payload_eq d halign]
    exact Nat.mul_mod_right ..
  rw [hiddenStream, extractAll_append htriples,
    extractAll_mergeAll (by rwa [hvlen]) (by rw [hvlen, readRange_length hcs]) hall]

/-- The symbols of a triple behind the payload are those of the carrier's bytes with their low two bits cleared. -/
theorem State.HiddenStreams.extractAll_stream_tail {q y : Nat} (hlo : s.n / d.perTriple ≤ q) (hhi : q < (s.c - 3) / 3)
    (hy : y < d.perTriple) :
    (extractAll d (hiddenStream d cs ts vs))[d.perTriple * q + y]? =
      some (symbolOf d (fun j => s.val .car (3 + 3 * q + j) &&& 0xFC) y) := by
  obtain ⟨halign, -⟩ := h.lengths
  have hpay := payload_eq d halign
  rw [extractAll_get d _ (by rwa [h.stream_length]) hy]
  refine congrArg some (symbolOf_congr d _ _ y hy fun j hj => ?_)
  rw [h.stream_tail (by omega) (by omega), Nat.add_assoc]

/-- SYM after DECODE of the whole image begins with the symbols as encoded. -/
theorem State.HiddenStreams.read_writeList_stream (m : Memory) {a : Nat} (ha : a < s.n) :
    Memory.read (Memory.writeList m 0 (extractAll d (hiddenStream d cs ts vs))) a = s.byte .sym a := by
  have hvlen := readRange_length h.symbols
  rw [h.extractAll_stream, writeList_append, read_writeList_of_lt _ (by omega)]
  exact read_writeList_of_readRange h.symbols m (Nat.zero_le a) (by rwa [Nat.zero_add])

end

/-- DECODE of the whole image runs EXTRACT over its payload and its tail. -/
theorem exec_decode_encodeHidden_whole (he : exec d.encode s = .next t) (ht : t.errcode = 0)
    (hsize : d.perTriple * (s.c - 3) / 3 ≤ s.params.symSize) :
    ∃ u, exec .decode t = .next u ∧ u.errcode = 0 ∧ u.n = d.perTriple * (s.c - 3) / 3 ∧
      (∀ a, a < s.n → u.byte .sym a = s.byte .sym a) ∧
      ∀ q y, s.n / d.perTriple ≤ q → q < (s.c - 3) / 3 → y < d.perTriple →
        u.byte .sym (d.perTriple * q + y) =
          some (symbolOf d (fun j => s.val .car (3 + 3 * q + j) &&& 0xFC) y) := by
  obtain ⟨hs, cs, ts, vs, hstreams, hparams, hp, himage⟩ := exec_encodeHidden_image he ht
  have ⟨_, htriples, _, _, hpix, hneed⟩ := hstreams.lengths
  have h3 : 3 ≤ s.c := (Nat.le_add_right ..).trans hneed
  have hheader := decodeHeader_hidden (hp ▸ h3) (hparams ▸ h3.trans hpix) (readRange_length hstreams.header) himage
  have hread : readRange t .pix 3 (t.p - 3) = .ok (hiddenStream d cs ts vs) := by
    rw [hp, ← hstreams.stream_length]
    refine readRange_of_writeList himage ?_
    rw [hstreams.stream_length, Nat.add_sub_cancel' h3, size_pix, hparams]
    exact hpix
  have hlengths : t.PixLengths d.perTriple := by
    rw [State.PixLengths, hp, hparams]
    exact ⟨⟨h3, by omega⟩, hpix, hsize⟩
  have hextract := extractWork_of_readRange hlengths hread
  have hcommand := (exec_extractWork d t).trans (congrArg (runCommand t) hextract)
  refine ⟨_, exec_decode_completes hheader hcommand rfl, rfl, ?_,
    fun a ha => hstreams.read_writeList_stream t.sym ha, fun q y hlo hhi hy => ?_⟩
  · have hc : s.c < 2 ^ 32 := s.carlen.isLt
    have hcount : d.perTriple * (s.c - 3) / 3 < 2 ^ 32 := by
      cases d <;> simp only [Depth.perTriple] <;> omega
    rw [← hp] at hcount ⊢
    exact word_toNat hcount
  · have hcell := read_writeList_of_getElem? t.sym 0 (hstreams.extractAll_stream_tail hlo hhi hy)
    rwa [Nat.zero_add] at hcell

/-- At depth 2 a tail byte holds no symbol bit. -/
theorem symbolTwo_and (v : Nat → Byte) (y : Nat) : symbolTwo (fun j => v j &&& 0xFC) y = 0 := by
  simp [symbolTwo, BitVec.and_assoc]

/-- At depth 2 every place of SYM is a triple of its own, so the tail gives 0 everywhere. -/
theorem tail_symbols_two (hn : u.n = 1 * (s.c - 3) / 3)
    (htail : ∀ q y, s.n / 1 ≤ q → q < (s.c - 3) / 3 → y < 1 →
      u.byte .sym (1 * q + y) = some (symbolTwo (fun j => s.val .car (3 + 3 * q + j) &&& 0xFC) y)) :
    ∀ a, s.n ≤ a → a < u.n → u.byte .sym a = some 0 := fun a hlo hhi => by
  have hcell := htail a 0 (by omega) (by omega) (by decide)
  rwa [symbolTwo_and, Nat.one_mul, Nat.add_zero] at hcell

/-- Settles O50, depth by depth. -/
theorem wholeImageDecodesWithItsTail : Obligations.WholeImageDecodesWithItsTail := by
  intro x hx s t he ht hsize
  simp only [List.mem_cons, List.not_mem_nil, or_false] at hx
  rcases hx with rfl | rfl | rfl
  · obtain ⟨u, hdecode, hu, hn, hsymbols, htail⟩ := exec_decode_encodeHidden_whole (d := .two) he ht hsize
    exact ⟨u, hdecode, hu, hn, hsymbols, htail, fun _ => tail_symbols_two hn htail⟩
  · obtain ⟨u, hdecode, hu, hn, hsymbols, htail⟩ := exec_decode_encodeHidden_whole (d := .four) he ht hsize
    exact ⟨u, hdecode, hu, hn, hsymbols, htail, nofun⟩
  · obtain ⟨u, hdecode, hu, hn, hsymbols, htail⟩ := exec_decode_encodeHidden_whole (d := .six) he ht hsize
    exact ⟨u, hdecode, hu, hn, hsymbols, htail, nofun⟩

end Sys2Proof.Machine
end

section
/-! The host's duties (obligation O35). The cells a command reads are cells the host owes it: cells, below the length
register, of a buffer the command reads (rule R133). So a command that stops at a cell without a value, which is the one
way it can stop (O34), names a cell the host has not written. -/

namespace Sys2Proof.Machine

variable {i : Instr} {s t : State} {w : State → Except Stop State}

/-- The cells the host owes a command (rule R133): those below the length register of a buffer the command reads. -/
def OwedCell (i : Instr) (s : State) : Buf → Nat → Prop
  | .sym, a => i ∈ readsSym ∧ a < s.n
  | .car, a => i ∈ readsCar ∧ a < s.c
  | .pix, a => i ∈ readsPix ∧ a < s.p

/-- A host that has met its duties has written every cell it owes, as far as the buffer has it. -/
theorem HostDuties.written (h : HostDuties i s) {b : Buf} {a : Nat} (ha : OwedCell i s b a) (hsize : a < s.size b) :
    s.byte b a ≠ none := by
  obtain ⟨hsym, hcar, hpix⟩ := h
  cases b with
  | sym => exact hsym ha.1 a (lt_min ha.2 hsize) a.zero_le
  | car => exact hcar ha.1 a (lt_min ha.2 hsize) a.zero_le
  | pix => exact hpix ha.1 a (lt_min ha.2 hsize) a.zero_le

/-! ## How reads go through work -/

/-- Work that stops at a cell without a value, if it does, at one of the given cells. -/
def ReadsWithin {α : Type} (cells : Buf → Nat → Prop) (x : Except Stop α) : Prop :=
  ∀ b a, x = .error (.fault (.unwrittenCell b a)) → cells b a

namespace ReadsWithin

variable {α β : Type} {cells : Buf → Nat → Prop}

theorem ok (a : α) : ReadsWithin cells (.ok a) := fun _ _ h => by cases h

theorem error (e : Error) (info : Word) : ReadsWithin cells (.error (.error e info) : Except Stop α) :=
  fun _ _ h => by cases h

/-- Two steps of work in a row, of which the second may rest on what the first has passed. -/
theorem bind {x : Except Stop α} {g : α → Except Stop β} (hx : ReadsWithin cells x)
    (hg : ∀ v, x = .ok v → ReadsWithin cells (g v)) : ReadsWithin cells (x >>= g) := fun b a h => by
  rcases bind_eq_error.1 h with h | ⟨v, hv, h⟩
  · exact hx b a h
  · exact hg v hv b a h

section
variable {p : Prop} [Decidable p] {e : Error} {info : Word}

theorem require : ReadsWithin cells (require p e info) := fun _ _ h => by
  obtain ⟨-, h⟩ := require_eq_error.1 h
  cases h

/-- The work behind a check may rest on it. -/
theorem require_bind {g : Unit → Except Stop β} (hg : p → ReadsWithin cells (g ())) :
    ReadsWithin cells (Machine.require p e info >>= g) :=
  .bind .require fun _ h => hg (require_eq_ok.1 h)

end

theorem memRead {b : Buf} {a : Nat} (h : cells b a) : ReadsWithin cells (memRead s b a) := fun _ _ hf => by
  rcases memRead_eq_error hf with ⟨-, hstop⟩ | ⟨-, -, hstop⟩
  · cases hstop
  · cases hstop
    exact h

theorem readRange {b : Buf} {a len : Nat} (h : ∀ j, j < a + len → cells b j) :
    ReadsWithin cells (readRange s b a len) := fun _ _ hf => by
  obtain ⟨j, -, hlt, ⟨-, hstop⟩ | ⟨-, -, hstop⟩⟩ := readRange_eq_error hf
  · cases hstop
  · cases hstop
    exact h _ hlt

theorem checkSymbols {a len : Nat} (h : ∀ j, j < a + len → cells .sym j) :
    ReadsWithin cells (checkSymbols s a len) := fun _ _ hf => by
  obtain ⟨j, -, hlt, ⟨-, hstop⟩ | ⟨-, -, hstop⟩ | ⟨v, -, -, hstop⟩⟩ := checkSymbols_eq_error hf
  · cases hstop
  · cases hstop
    exact h _ hlt
  · cases hstop

theorem memWrite {b : Buf} {a : Nat} {v : Byte} : ReadsWithin cells (memWrite s b a v) := fun _ _ h => by
  rw [Machine.memWrite] at h
  split at h <;> cases h

/-- Writing reads no cell. -/
theorem writeRange {b : Buf} {a : Nat} {vs : List Byte} : ReadsWithin cells (writeRange s b a vs) := by
  induction vs generalizing s a with
  | nil => exact .ok s
  | cons v vs ih => exact .bind .memWrite fun _ _ => ih

end ReadsWithin

/-! ## The checks and the effects -/

section
variable {cells : Buf → Nat → Prop} {d : Depth}

theorem requireLegal_reads {mode depth : BitVec 3} : ReadsWithin cells (requireLegal mode depth) := by
  rw [requireLegal]
  split
  · exact .ok _
  · exact .error _ _

theorem packChecks_reads (hsym : ∀ j, j < s.n → cells .sym j) : ReadsWithin cells (packChecks s) :=
  .require_bind fun _ => .require_bind fun _ => .require_bind fun _ => .checkSymbols (by rwa [Nat.zero_add])

theorem mergeChecks_reads (hsym : ∀ j, j < s.n → cells .sym j) : ReadsWithin cells (mergeChecks d s) :=
  .require_bind fun _ => .require_bind fun _ => .require_bind fun _ => .require_bind fun _ => .require_bind fun _ =>
    .require_bind fun _ => .checkSymbols (by rwa [Nat.zero_add])

theorem putHiddenHeader_reads (hcar : ∀ j, j < 3 → cells .car j) : ReadsWithin cells (putHiddenHeader d s) :=
  .bind (.readRange hcar) fun _ _ => .writeRange

theorem packEffect_reads (hsym : ∀ j, j < s.n → cells .sym j) : ReadsWithin cells (packEffect s) :=
  .bind (.readRange (by rwa [Nat.zero_add])) fun _ _ => .bind .writeRange fun _ _ => .ok _

theorem putPayload_reads (hsym : ∀ j, j < s.n → cells .sym j) (hcar : ∀ j, j < d.required s.n → cells .car j) :
    ReadsWithin cells (putPayload d s) :=
  .bind (.readRange (by rwa [Nat.zero_add])) fun _ _ => .bind (.readRange hcar) fun _ _ => .writeRange

theorem putTail_reads {a : Nat} (ha : a ≤ s.c) (hcar : ∀ j, j < s.c → cells .car j) :
    ReadsWithin cells (putTail a s) :=
  .bind (.readRange (by rwa [Nat.add_sub_cancel' ha])) fun _ _ => .writeRange

theorem readHeader_reads (hpix : ∀ j, j < 3 → cells .pix j) : ReadsWithin cells (readHeader s) :=
  .bind (.memRead (hpix 0 (by decide))) fun _ _ => .bind (.memRead (hpix 1 (by decide))) fun _ _ =>
    .bind (.memRead (hpix 2 (by decide))) fun _ _ => .ok _

/-- Symbols written to SYM from triples of PIX, for UNPACK and EXTRACT. -/
theorem symbols_reads {f : List Byte → List Byte} {g : State → State} (h3 : 3 ≤ s.p)
    (hpix : ∀ j, j < s.p → cells .pix j) :
    ReadsWithin cells (do
      let bytes ← readRange s .pix 3 (s.p - 3)
      let t ← writeRange s .sym 0 (f bytes)
      .ok (g t)) :=
  .bind (.readRange (by rwa [Nat.add_sub_cancel' h3])) fun _ _ => .bind .writeRange fun _ _ => .ok _

theorem unpackWork_reads (hpix : ∀ j, j < s.p → cells .pix j) : ReadsWithin cells (unpackWork s) :=
  .bind (.require_bind fun _ => .require_bind fun _ => .require) fun _ h =>
    symbols_reads (unpackChecks_lengths h).1.1 hpix

theorem extractWork_reads (hpix : ∀ j, j < s.p → cells .pix j) : ReadsWithin cells (extractWork d s) :=
  .bind (.require_bind fun _ => .require_bind fun _ => .require) fun _ h =>
    symbols_reads (extractChecks_lengths h).1.1 hpix

end

/-! ## The work of each kind -/

theorem Depth.merge_mem_readsSym (d : Depth) : d.merge ∈ readsSym := by cases d <;> decide
theorem Depth.encode_mem_readsSym (d : Depth) : d.encode ∈ readsSym := by cases d <;> decide
theorem Depth.extract_mem_readsPix (d : Depth) : d.extract ∈ readsPix := by cases d <;> decide

/-! The first cells of a buffer the command reads are owed, as far as the length register goes. -/

theorem owedCell_sym (hi : i ∈ readsSym) : ∀ j, j < s.n → OwedCell i s .sym j := fun _ hj => ⟨hi, hj⟩

theorem owedCell_car {k : Nat} (hi : i ∈ readsCar) (hk : k ≤ s.c) : ∀ j, j < k → OwedCell i s .car j :=
  fun _ hj => ⟨hi, hj.trans_le hk⟩

theorem owedCell_pix {k : Nat} (hi : i ∈ readsPix) (hk : k ≤ s.p) : ∀ j, j < k → OwedCell i s .pix j :=
  fun _ hj => ⟨hi, hj.trans_le hk⟩

theorem mergeWork_reads (d : Depth) : ReadsWithin (OwedCell d.merge s) (mergeWork d s) := by
  have hsym := owedCell_sym (s := s) d.merge_mem_readsSym
  refine .bind (mergeChecks_reads hsym) fun _ hchecks => .bind (putPayload_reads hsym ?_) fun _ _ => .ok _
  obtain ⟨-, -, -, -, -, hneed⟩ := mergeChecks_lengths hchecks
  exact owedCell_car d.merge_mem_readsCar hneed

theorem encodeStaticWork_reads : ReadsWithin (OwedCell .encodeStatic8 s) (encodeStaticWork s) := by
  have hsym := owedCell_sym (i := .encodeStatic8) (s := s) (by decide)
  refine .bind (packChecks_reads hsym) fun _ _ => .bind .writeRange fun t ht => ?_
  obtain ⟨m, -, rfl⟩ := putStaticHeader_wrote ht
  exact packEffect_reads hsym

/-- Each part of ENCODE hidden reads on a state whose PIX alone has changed, so it reads by the lengths ENCODE started
with. -/
theorem encodeHiddenWork_reads (d : Depth) : ReadsWithin (OwedCell d.encode s) (encodeHiddenWork d s) := by
  have hsym := owedCell_sym (s := s) d.encode_mem_readsSym
  have hcar : ∀ {k}, k ≤ s.c → ∀ j, j < k → OwedCell d.encode s .car j := owedCell_car d.encode_mem_readsCar
  refine .bind (mergeChecks_reads hsym) fun _ hchecks => ?_
  obtain ⟨-, -, -, -, -, hneed⟩ := mergeChecks_lengths hchecks
  refine .bind (putHiddenHeader_reads (hcar ((Nat.le_add_right 3 _).trans hneed))) fun t ht => ?_
  obtain ⟨m, -, rfl⟩ := putHiddenHeader_wrote ht
  refine .bind (putPayload_reads hsym (hcar hneed)) fun u hu => ?_
  obtain ⟨m', -, rfl⟩ := putPayload_wrote hu
  exact .bind (putTail_reads hneed (hcar le_rfl)) fun _ _ => .ok _

theorem decodeWork_reads : ReadsWithin (OwedCell .decode s) (decodeWork s) := by
  have hpix : ∀ {k}, k ≤ s.p → ∀ j, j < k → OwedCell .decode s .pix j := owedCell_pix (by decide)
  have hheader : ReadsWithin (OwedCell .decode s) (decodeHeader s) :=
    .require_bind fun h3 => .bind (readHeader_reads (hpix h3)) fun _ _ => .require_bind fun _ => .require_bind fun _ =>
      .bind requireLegal_reads fun _ _ => .ok _
  refine .bind hheader fun ⟨v, x⟩ _ => .bind ?_ fun _ _ => .ok _
  cases x with
  | static => exact unpackWork_reads (hpix le_rfl)
  | hidden d => exact extractWork_reads (hpix le_rfl)

/-- The work of every kind reads only cells the host owes its commands. -/
theorem Runs.reads (hw : Runs i w) : ReadsWithin (OwedCell i s) (w s) := by
  cases hw with
  | nop => exact .ok _
  | notSupported => exact .error _ _
  | hdrputStatic => exact .writeRange
  | hdrputHidden d =>
    exact .require_bind fun _ => .require_bind fun h3 => putHiddenHeader_reads (owedCell_car d.hdrput_mem_readsCar h3)
  | hdrget =>
    exact .require_bind fun h3 => .bind (readHeader_reads (owedCell_pix (by decide) h3)) fun _ _ => .ok _
  | pack =>
    have hsym := owedCell_sym (i := .pack) (s := s) (by decide)
    exact .bind (packChecks_reads hsym) fun _ _ => packEffect_reads hsym
  | unpack => exact unpackWork_reads (owedCell_pix (by decide) le_rfl)
  | merge d => exact mergeWork_reads d
  | extract d => exact extractWork_reads (owedCell_pix d.extract_mem_readsPix le_rfl)
  | tail =>
    exact .require_bind fun _ => .require_bind fun hp => .require_bind fun _ => .require_bind fun _ =>
      .bind (putTail_reads hp.2 (owedCell_car (by decide) le_rfl)) fun _ _ => .ok _
  | encodeStatic => exact encodeStaticWork_reads
  | encodeHidden d => exact encodeHiddenWork_reads d
  | decode => exact decodeWork_reads

/-- A command that stops at a cell without a value stops at one the host owes it. -/
theorem exec_unwrittenCell_owed {b : Buf} {a : Nat} (h : exec i s = .fault (.unwrittenCell b a)) :
    OwedCell i s b a := by
  obtain ⟨w, hw, hexec⟩ := exec_runs i
  rw [hexec] at h
  exact hw.reads b a (runCommand_eq_fault h)

/-- Settles O35, from O34: the one way to stop is at a cell without a value, and the host has written those it owes. -/
theorem hostDutiesPreventStops : Obligations.HostDutiesPreventStops := by
  intro i s hp hduties
  obtain ⟨hfaults, hrefused⟩ := onlyUnwrittenCellsStopACommand i s hp
  cases hexec : exec i s with
  | next t => exact ⟨t, rfl⟩
  | fault f =>
    obtain ⟨b, a, rfl, hsize, hnone⟩ := hfaults f hexec
    exact absurd hnone (HostDuties.written hduties (exec_unwrittenCell_owed hexec) hsize)
  | refused r => exact absurd hexec (hrefused r)

end Sys2Proof.Machine
end

section
/-! Errors (obligations O36, O43). An error entry is made over the state the command started from, so it leaves all but
the report; and no command reads the report. For the latter the work of each kind (`Runs`) is shown to commute with
changing the report, which either way of ending a command then replaces. -/

namespace Sys2Proof.Machine

variable {i : Instr} {s : State} {w : State → Except Stop State}

/-! ## What an error leaves (rules R146, R153) -/

/-- Settles O36: a next state with an ERRCODE is not the success epilogue's, so it is the error entry's. -/
theorem errorsChangeNothingButTheReport : Obligations.ErrorsChangeNothingButTheReport := by
  intro i s t h ht
  rcases exec_next_cases h with ⟨e, x, rfl⟩ | ⟨u, -, rfl⟩
  · rfl
  · exact absurd (succeed_errcode u) ht

/-! ## What a command reads of an earlier report (rules R15, R154) -/

/-- The state with another report: other values of DONE, ERRCODE and ERRINFO. -/
def State.withReport (done : Bool) (code : BitVec 4) (info : Word) (s : State) : State :=
  { s with done := done, errcode := code, errinfo := info }

section
variable {done : Bool} {code : BitVec 4} {info : Word} {b : Buf} {a len : Nat} {d : Depth}

@[simp] theorem withReport_params : (s.withReport done code info).params = s.params := rfl
@[simp] theorem withReport_n : (s.withReport done code info).n = s.n := rfl
@[simp] theorem withReport_c : (s.withReport done code info).c = s.c := rfl
@[simp] theorem withReport_p : (s.withReport done code info).p = s.p := rfl
@[simp] theorem withReport_size : (s.withReport done code info).size b = s.size b := by cases b <;> rfl
@[simp] theorem withReport_mem : (s.withReport done code info).mem b = s.mem b := by cases b <;> rfl

theorem withReport_setMem (m : Memory) :
    (s.withReport done code info).setMem b m = (s.setMem b m).withReport done code info := by cases b <;> rfl

/-! Reads do not see the report, and writes commute with changing it. -/

@[simp] theorem memRead_withReport : memRead (s.withReport done code info) b a = memRead s b a :=
  memRead_congr withReport_params withReport_mem

@[simp] theorem readRange_withReport : readRange (s.withReport done code info) b a len = readRange s b a len :=
  readRange_congr withReport_params withReport_mem

@[simp] theorem writeRange_withReport (vs : List Byte) :
    writeRange (s.withReport done code info) b a vs = State.withReport done code info <$> writeRange s b a vs := by
  induction vs generalizing s a with
  | nil => rfl
  | cons v vs ih =>
    simp only [writeRange, memWrite, withReport_size, withReport_mem, withReport_setMem]
    split
    · exact ih
    · rfl

@[simp] theorem checkSymbols_withReport : checkSymbols (s.withReport done code info) a len = checkSymbols s a len := by
  induction len generalizing a with
  | zero => rfl
  | succ len ih => simp only [checkSymbols, memRead_withReport, ih]

@[simp] theorem readHeader_withReport : readHeader (s.withReport done code info) = readHeader s := by
  simp only [readHeader, memRead_withReport]

/-! Neither do the checks, and the effects commute with changing it. -/

@[simp] theorem packChecks_withReport : packChecks (s.withReport done code info) = packChecks s := by
  rw [packChecks, checkSymbols_withReport]
  rfl

@[simp] theorem mergeChecks_withReport : mergeChecks d (s.withReport done code info) = mergeChecks d s := by
  rw [mergeChecks, checkSymbols_withReport]
  rfl

@[simp] theorem decodeHeader_withReport : decodeHeader (s.withReport done code info) = decodeHeader s := by
  rw [decodeHeader, readHeader_withReport]
  rfl

@[simp] theorem packEffect_withReport :
    packEffect (s.withReport done code info) = State.withReport done code info <$> packEffect s := by
  simp only [packEffect, readRange_withReport, writeRange_withReport, map_bind, bind_map_left]
  rfl

@[simp] theorem putStaticHeader_withReport :
    putStaticHeader (s.withReport done code info) = State.withReport done code info <$> putStaticHeader s :=
  writeRange_withReport _

@[simp] theorem putHiddenHeader_withReport :
    putHiddenHeader d (s.withReport done code info) = State.withReport done code info <$> putHiddenHeader d s := by
  simp only [putHiddenHeader, readRange_withReport, writeRange_withReport, map_bind]

@[simp] theorem putPayload_withReport :
    putPayload d (s.withReport done code info) = State.withReport done code info <$> putPayload d s := by
  simp only [putPayload, withReport_n, readRange_withReport, writeRange_withReport, map_bind]

@[simp] theorem putTail_withReport :
    putTail a (s.withReport done code info) = State.withReport done code info <$> putTail a s := by
  simp only [putTail, withReport_c, readRange_withReport, writeRange_withReport, map_bind]

@[simp] theorem unpackWork_withReport :
    unpackWork (s.withReport done code info) = State.withReport done code info <$> unpackWork s := by
  simp only [unpackWork, unpackChecks, unpackEffect, readRange_withReport, writeRange_withReport, map_bind,
    bind_map_left]
  rfl

@[simp] theorem extractWork_withReport :
    extractWork d (s.withReport done code info) = State.withReport done code info <$> extractWork d s := by
  simp only [extractWork, extractChecks, extractEffect, readRange_withReport, writeRange_withReport, map_bind,
    bind_map_left]
  rfl

@[simp] theorem decodePayload_withReport {x : Coding} :
    decodePayload (s.withReport done code info) x = State.withReport done code info <$> decodePayload s x := by
  cases x with
  | static => exact unpackWork_withReport
  | hidden d => exact extractWork_withReport

/-- The work of every command commutes with changing the report, whatever it ends in. -/
theorem Runs.withReport (hw : Runs i w) :
    w (s.withReport done code info) = State.withReport done code info <$> w s := by
  cases hw with
  | nop | notSupported => rfl
  | hdrputStatic => exact putStaticHeader_withReport
  | hdrputHidden d =>
    simp only [hdrputHiddenWork, putHiddenHeader_withReport, map_bind]
    rfl
  | hdrget =>
    simp only [hdrgetWork, readHeader_withReport, map_bind]
    rfl
  | pack => simp only [packWork, packChecks_withReport, packEffect_withReport, map_bind]
  | unpack => exact unpackWork_withReport
  | merge d =>
    simp only [mergeWork, mergeEffect, mergeChecks_withReport, putPayload_withReport, map_bind, bind_map_left]
    rfl
  | extract d => exact extractWork_withReport
  | tail =>
    simp only [tailWork, withReport_p, putTail_withReport, map_bind, bind_map_left]
    rfl
  | encodeStatic =>
    simp only [encodeStaticWork, packChecks_withReport, putStaticHeader_withReport, packEffect_withReport, map_bind,
      bind_map_left]
  | encodeHidden d =>
    simp only [encodeHiddenWork, withReport_n, mergeChecks_withReport, putHiddenHeader_withReport,
      putPayload_withReport, putTail_withReport, map_bind, bind_map_left]
    rfl
  | decode =>
    simp only [decodeWork, decodeHeader_withReport, decodePayload_withReport, map_bind, bind_map_left]
    rfl

/-- Both ways a command can end replace the report, and a stop leaves none: the frame of rule R50 hides it. -/
theorem runCommand_withReport (x : Except Stop State) :
    runCommand (s.withReport done code info) (State.withReport done code info <$> x) = runCommand s x := by
  cases x with
  | ok u => rfl
  | error r => cases r <;> rfl

end

/-- Settles O43: the command's work carries the other report along, and the way it ends replaces it. -/
theorem commandsIgnoreAnEarlierReport : Obligations.CommandsIgnoreAnEarlierReport := by
  intro i s done code info
  obtain ⟨w, hw, hexec⟩ := exec_runs i
  change exec i (s.withReport done code info) = exec i s
  rw [hexec, hexec, hw.withReport]
  exact runCommand_withReport (w s)

end Sys2Proof.Machine
end

section
/-! The first command after reset (obligation O52, rule R172). Reset leaves every length register 0, so the three commands
are met with no symbols, no image and no carrier; their effects and reports are those of O16, O27
and O26. -/

namespace Sys2Proof.Machine

variable {s : State} {i : Instr}

/-- A step from a placed word that decodes runs its command, with CMD holding the word (rule R17; log entry 3). -/
theorem step_withFetchWord {w : Nat} (hd : decode (BitVec.ofNat 32 (w % 2 ^ 32)) = .ok i) :
    step (s.withFetchWord 32 w) = exec i { s with cmd := BitVec.ofNat 32 (w % 2 ^ 32) } :=
  stepRunsTheDecodedCommand (s.withFetchWord 32 w) _ i s.pending rfl hd

/-- PACK with no symbols succeeds and leaves an image of the header pixel alone, whose cells it does not write
(rule R73). -/
theorem exec_pack_of_no_symbols (hn : s.n = 0) (hpix : 3 ≤ s.params.pixSize) :
    exec .pack s = .next { s.completed with pixlen := 3 } := by
  have hlengths : s.PackLengths := by
    rw [State.PackLengths, hn]
    exact ⟨rfl, Nat.zero_le _, hpix⟩
  have hread : readRange s .sym 0 s.n = .ok [] := by rw [hn, readRange]
  rw [exec_packWork, packWork_eq_ok.2 ⟨hlengths, [], hread, allSymbols_nil, rfl⟩, runCommand_ok, State.packed, hn]
  rfl

/-- DECODE with no image reports the length 0 before it reads a cell of PIX (rule R113). -/
theorem exec_decode_of_no_image (hp : s.p = 0) : exec .decode s = .next (s.reported 4 0) := by
  obtain ⟨-, hlength, -⟩ := decodeFollowsItsRule
  simpa only [hp] using hlength s (by omega)

theorem required_zero (d : Depth) : d.required 0 = 3 := by cases d <;> rfl

/-- ENCODE hidden with no symbols and no carrier reports the three bytes its header pixel would need, at every depth
(rules R96, R112). -/
theorem exec_encodeHidden_of_no_carrier (d : Depth) (hn : s.n = 0) (hc : s.c = 0) :
    exec d.encode s = .next (s.reported 1 3) := by
  obtain ⟨-, -, -, -, hcapacity, -⟩ := reportsMergeChecks (exec_encodeHiddenWork d)
  have hreport := hcapacity s (by simp [hn]) (by simp [hc]) (by omega) (by omega) (by omega)
  simp only [hn, hc, required_zero] at hreport
  exact hreport (by decide)

/-- Settles O52: each word runs its command on the reset state, whose lengths are 0. -/
theorem firstCommandsAfterReset : Obligations.FirstCommandsAfterReset := by
  intro p hlegal
  obtain ⟨-, -, hpix, -⟩ := hlegal
  refine ⟨?_, ?_, ?_⟩
  · rw [step_withFetchWord (i := .pack) rfl]
    exact exec_pack_of_no_symbols rfl hpix
  · rw [step_withFetchWord (i := .decode) rfl]
    exact exec_decode_of_no_image rfl
  · rw [step_withFetchWord (i := .encodeHidden2) rfl]
    exact exec_encodeHidden_of_no_carrier .two rfl rfl

end Sys2Proof.Machine
end

section
/-! What stays as it was over a step: everything while no move is pending (obligation O5), the host's side of the run
over its reset (O10), and the sizes of the buffers over every step (O42). The sizes follow the way a step is built: a
command's work and its two ends, a write to CMD, a write to a register, a move of the host. -/

namespace Sys2Proof.Machine

variable {i : Instr} {s t : State}

/-! ## Waiting and reset -/

/-- Settles O5. -/
theorem stepWaitsWithNothingPending : Obligations.StepWaitsWithNothingPending := by
  intro s h
  simp [step, serveNext, h]

/-- A step with a reset pending resets the block, with the move off the list (rule R170). -/
theorem step_reset {rest : List HostAction} (h : s.pending = .reset :: rest) :
    step s = .next (resetBlock { s with pending := rest }) := by
  rw [step_of_pending h, serve]

/-- Settles O10: the fields of `resetBlock` that are not the block's own are those of the state it resets. -/
theorem resetKeepsTheHostsSide : Obligations.ResetKeepsTheHostsSide := fun s rest h =>
  ⟨resetBlock { s with pending := rest }, step_reset h, resetBlock_params _, resetBlock_pending _,
    resetBlock_readData _⟩

/-! ## The sizes of the buffers -/

theorem exec_keeps_params (h : exec i s = .next t) : t.params = s.params := by
  rcases exec_next_cases h with ⟨e, x, rfl⟩ | ⟨u, hu, rfl⟩
  · exact raiseError_params s e x
  · exact hu.params_eq

theorem runWord_keeps_params {w : Word} (h : runWord w s = .next t) : t.params = s.params := by
  rw [runWord] at h
  cases hd : decode w with
  | ok i => rw [hd] at h; exact exec_keeps_params (s := { s with cmd := w }) h
  | error cause => rw [hd] at h; cases h; rfl

theorem regWrite_keeps_params {r : Reg} {v : Word} (h : regWrite r v s = .next t) : t.params = s.params := by
  cases r with
  | cmd => exact runWord_keeps_params h
  | status | errinfo | symlen | carlen | pixlen | hdr => cases h; rfl

/-- No move of the host changes the sizes, its reset included (log entry 1). -/
theorem serve_keeps_params {a : HostAction} (h : serve a s = .next t) : t.params = s.params := by
  rcases serve_next_cases h with ⟨d, rfl⟩ | ⟨_, _, _, -, -, hreg⟩ | ⟨b, x, v, -, -, rfl⟩ | ⟨-, rfl⟩
  · rfl
  · exact regWrite_keeps_params hreg
  · exact setMem_params s b _
  · exact resetBlock_params s

/-- Settles O42, by the host's next move. -/
theorem noStepChangesTheSizes : Obligations.NoStepChangesTheSizes := by
  intro s t h
  rcases step_next_cases h with ⟨-, rfl⟩ | ⟨a, rest, -, hserve⟩
  · rfl
  · exact serve_keeps_params (s := { s with pending := rest }) hserve

end Sys2Proof.Machine
end
